-- ==== Sys2Proof/Word.lean ====
section
/-! DEFINITION. The word types of the QOI codec core and its pixel record (spec/00_scope.md R9). -/

namespace Sys2Proof

/-- R9 `u8`: one channel value, or one byte of a stream. -/
abbrev Byte := BitVec 8

/-- R8, R9 `u32`: a counter, a width, a height, a packed pixel. -/
abbrev Word := BitVec 32

/-- R9: a Pixel is a record of four unsigned bytes.
Two pixels are equal when all four channels are equal, which is the derived equality. -/
structure Pixel where
  r : Byte
  g : Byte
  b : Byte
  a : Byte
deriving DecidableEq, Repr, Inhabited

/-- R9: `BLACK` is `(0, 0, 0, 255)`, the source's opaque black. -/
def Pixel.black : Pixel := ⟨0, 0, 0, 255⟩

end Sys2Proof
end

