-- ==== Sys2Proof/Config.lean ====
section
/-! DEFINITION. What is fixed for the machine (spec/00_scope.md R6), the open parameter MAGIC (R7), and
the free value for a cache that no rule gives contents to (spec/10_state.md R38, U1). -/

namespace Sys2Proof.Config

/-- R6 `CACHE_SLOTS`. -/
abbrev cacheSlots : Nat := 64

/-- R6 `RUN_MAX`: the longest run one RUN byte codes. -/
def runMax : BitVec 6 := 62

/-- R6 `MAX_PIXELS`: `width*height` may equal it. -/
def maxPixels : Nat := 400000000

/-- R6 `HEADER_LEN`. -/
def headerLen : Nat := 14

/-- R6: the channels byte ENC writes. -/
def channelsByte : Byte := 4

/-- R6: the colorspace byte ENC writes. -/
def colorspaceByte : Byte := 0

/-- R7, U6: the magic constant is a parameter, so nothing here gives its value.
No statement can rest on one (notes/assumptions/1.md). -/
opaque magic : Word

/-- R38, U1: what a cache holds after a hardware reset is any value.
The argument is the model's draw counter, so two resets need not agree (notes/assumptions/3.md). -/
opaque unspecifiedCache : Nat → Vector Pixel cacheSlots

end Sys2Proof.Config
end

