-- ==== Sys2Proof/Syntax.lean ====
section
/-! DEFINITION. The opcode alphabet (spec/30_encoding.md R80): one constructor per row of
spec/opcode_table.json, its arguments the fields of the formats R83 to R88, as the stream holds them. -/

namespace Sys2Proof

/-- R2, R80: the closed set of six opcodes.
The fields are the biased fields of the formats; Machine/Operands.lean takes the bias off (R92). -/
inductive Instr where
  /-- R83 `00iiiiii`: the slot `i`. -/
  | index (i : BitVec 6)
  /-- R84 `01rrggbb`: the three biased deltas. -/
  | diff (rr gg bb : BitVec 2)
  /-- R85 `10gggggg rrrrbbbb`: the biased green delta and the two biased nibbles. -/
  | luma (g : BitVec 6) (rrrr bbbb : BitVec 4)
  /-- R86 `11llllll`: the run length minus 1. -/
  | run (l : BitVec 6)
  /-- R87 `11111110 r g b`: three raw channels. -/
  | rgb (r g b : Byte)
  /-- R88 `11111111 r g b a`: four raw channels. -/
  | rgba (r g b a : Byte)
deriving DecidableEq, Repr

end Sys2Proof
end

