-- ==== Sys2Proof/WellFormed.lean ====
section
/-! DEFINITION. Which terms of Instr have an encoding of their own (spec/30_encoding.md R86, R94). -/

namespace Sys2Proof

/-- R86: RUN has `llllll` in 0..61, since 62 and 63 would give the bytes of RGB and RGBA.
Every other field may take every value of its width (R83, R84, R85, R87, R88, R91). -/
def Instr.wellFormed : Instr → Bool
  | .index _ => true
  | .diff _ _ _ => true
  | .luma _ _ _ => true
  | .run l => decide (l.toNat ≤ 61)
  | .rgb _ _ _ => true
  | .rgba _ _ _ _ => true

end Sys2Proof
end

