-- ==== Sys2Proof/Decode.lean ====
section
/-! DEFINITION. Reading and writing the opcode stream (spec/30_encoding.md R80 to R96): the decoder, total
on any bytes; the encoder, written from the formats R83 to R88; the assembler of R94. -/

namespace Sys2Proof

/-! ## Fields -/

/-- R10, R82: the tag `v[7:6]` of a first byte. -/
def tagOf (v : Byte) : BitVec 2 := v.extractLsb' 6 2

/-- R10: the six low bits `v[5:0]`. -/
def low6 (v : Byte) : BitVec 6 := v.extractLsb' 0 6

/-- R10: the high nibble `v[7:4]`. -/
def highNibble (v : Byte) : BitVec 4 := v.extractLsb' 4 4

/-- R10: the low nibble `v[3:0]`. -/
def lowNibble (v : Byte) : BitVec 4 := v.extractLsb' 0 4

/-- R10 `{x, y}`: a tag in front of six bits. -/
def tagged (t : BitVec 2) (x : BitVec 6) : Byte := t ++ x

/-! ## Decoding -/

/-- Why a byte list is no opcode.
No byte value is illegal (R91): a list can only be empty or end inside the opcode its first byte names. -/
inductive DecodeError where
  /-- There is no first byte. -/
  | empty
  /-- The operand bytes the first byte asks for are not all there. -/
  | truncated
deriving DecidableEq, Repr

/-- R82: the decode order of a first byte, RGBA and RGB before the tag.
The operand bytes follow in the order of R66; the answer carries the bytes after the opcode. -/
def decode : List Byte → Except DecodeError (Instr × List Byte)
  | [] => .error .empty
  | v :: rest =>
    if v = 0xFF then
      match rest with
      | r :: g :: b :: a :: tl => .ok (.rgba r g b a, tl)
      | _ => .error .truncated
    else if v = 0xFE then
      match rest with
      | r :: g :: b :: tl => .ok (.rgb r g b, tl)
      | _ => .error .truncated
    else if tagOf v = 0b11 then .ok (.run (low6 v), rest)
    else if tagOf v = 0b00 then .ok (.index (low6 v), rest)
    else if tagOf v = 0b01 then
      .ok (.diff (v.extractLsb' 4 2) (v.extractLsb' 2 2) (v.extractLsb' 0 2), rest)
    else
      match rest with
      | w :: tl => .ok (.luma (low6 v) (highNibble w) (lowNibble w), tl)
      | [] => .error .truncated

/-- R81, R96: the length of an opcode in bytes, told from its first byte. -/
def opcodeLength (v : Byte) : Nat :=
  if v = 0xFF then 5
  else if v = 0xFE then 4
  else if tagOf v = 0b10 then 2
  else 1

/-! ## Encoding -/

/-- R83 to R88: the bytes of an opcode, in stream order. -/
def encode : Instr → List Byte
  | .index i => [tagged 0b00 i]
  | .diff rr gg bb => [tagged 0b01 (rr ++ gg ++ bb)]
  | .luma g rrrr bbbb => [tagged 0b10 g, rrrr ++ bbbb]
  | .run l => [tagged 0b11 l]
  | .rgb r g b => [0xFE, r, g, b]
  | .rgba r g b a => [0xFF, r, g, b, a]

/-! ## The opcode table's words -/

/-- The bytes of a table word: byte `k` is bits `8k+7..8k`, and the bits from `nbits` up are 0.
Five bytes is the longest opcode (R81). -/
def tableBytes (nbits w : Nat) : List Byte :=
  let m := w % 2 ^ nbits
  [BitVec.ofNat 8 m, BitVec.ofNat 8 (m >>> 8), BitVec.ofNat 8 (m >>> 16),
   BitVec.ofNat 8 (m >>> 24), BitVec.ofNat 8 (m >>> 32)]

/-- The instruction the decoder reads from a table word. -/
def decodeTableWord (nbits w : Nat) : Option Instr :=
  match decode (tableBytes nbits w) with
  | .ok (i, _) => some i
  | .error _ => none

/-! ## Assembler (R94) -/

/-- R14 `be32`: the four bytes of a word, most significant first. -/
def be32 (v : Word) : List Byte :=
  [v.extractLsb' 24 8, v.extractLsb' 16 8, v.extractLsb' 8 8, v.extractLsb' 0 8]

/-- R14 `BE32`: the word of four bytes, most significant first. -/
def bigEndian32 (b0 b1 b2 b3 : Byte) : Word := b0 ++ b1 ++ b2 ++ b3

/-- R94: a line of the spec's assembler, with the operands as a programmer writes them.
DESIGN CHOICE: the line is its abstract syntax; the text of decimal digits is not parsed (notes/assumptions/16.md). -/
inductive AsmLine where
  | index (s : Int)
  | diff (dr dg db : Int)
  | luma (dg drg dbg : Int)
  | run (n : Int)
  | rgb (r g b : Int)
  | rgba (r g b a : Int)
  | header (w h c cs : Int)
deriving DecidableEq, Repr

/-- The range test of an assembler operand (R94). -/
def inRange (lo hi x : Int) : Bool := decide (lo ≤ x ∧ x ≤ hi)

/-- R94, R92: the opcode a line stands for; a line whose operand is outside its range has none.
`.header` is no opcode (R93). -/
def assembleOpcode : AsmLine → Option Instr
  | .index s => if inRange 0 63 s then some (.index (BitVec.ofInt 6 s)) else none
  | .diff dr dg db =>
    if inRange (-2) 1 dr && inRange (-2) 1 dg && inRange (-2) 1 db then
      some (.diff (BitVec.ofInt 2 (dr + 2)) (BitVec.ofInt 2 (dg + 2)) (BitVec.ofInt 2 (db + 2)))
    else none
  | .luma dg drg dbg =>
    if inRange (-32) 31 dg && inRange (-8) 7 drg && inRange (-8) 7 dbg then
      some (.luma (BitVec.ofInt 6 (dg + 32)) (BitVec.ofInt 4 (drg + 8)) (BitVec.ofInt 4 (dbg + 8)))
    else none
  | .run n => if inRange 1 62 n then some (.run (BitVec.ofInt 6 (n - 1))) else none
  | .rgb r g b =>
    if inRange 0 255 r && inRange 0 255 g && inRange 0 255 b then
      some (.rgb (BitVec.ofInt 8 r) (BitVec.ofInt 8 g) (BitVec.ofInt 8 b))
    else none
  | .rgba r g b a =>
    if inRange 0 255 r && inRange 0 255 g && inRange 0 255 b && inRange 0 255 a then
      some (.rgba (BitVec.ofInt 8 r) (BitVec.ofInt 8 g) (BitVec.ofInt 8 b) (BitVec.ofInt 8 a))
    else none
  | .header _ _ _ _ => none

/-- R94: the bytes a line assembles to; `none` where the assembler refuses the line (U13). -/
def assemble : AsmLine → Option (List Byte)
  | .header w h c cs =>
    if inRange 0 4294967295 w && inRange 0 4294967295 h && inRange 0 255 c && inRange 0 255 cs then
      some (be32 Config.magic ++ be32 (BitVec.ofInt 32 w) ++ be32 (BitVec.ofInt 32 h) ++
        [BitVec.ofInt 8 c, BitVec.ofInt 8 cs])
    else none
  | .index s => (assembleOpcode (.index s)).map encode
  | .diff dr dg db => (assembleOpcode (.diff dr dg db)).map encode
  | .luma dg drg dbg => (assembleOpcode (.luma dg drg dbg)).map encode
  | .run n => (assembleOpcode (.run n)).map encode
  | .rgb r g b => (assembleOpcode (.rgb r g b)).map encode
  | .rgba r g b a => (assembleOpcode (.rgba r g b a)).map encode

end Sys2Proof
end

