-- ==== Sys2Proof/Machine/Operands.lean ====
section
/-! DEFINITION. Operand assembly and channel arithmetic (spec/00_scope.md R11, spec/30_encoding.md R92,
spec/41_encoder.md R117, spec/42_decoder.md R150, R151), and the packed views of a pixel (R42, R62). -/

namespace Sys2Proof.Machine

/-! ## Modular arithmetic (R11) -/

/-- R11 `add8`: addition modulo 256. -/
def add8 (x y : Byte) : Byte := x + y

/-- R11 `sub8`: subtraction modulo 256. -/
def sub8 (x y : Byte) : Byte := x - y

/-- R11 `s8`: the two's complement view of a byte. -/
def s8 (v : Byte) : Int := if v.toNat ≤ 127 then (v.toNat : Int) else (v.toNat : Int) - 256

/-- R92: a decoded signed delta applied to a previous channel, `add8(p, d mod 256)`. -/
def addDelta (p : Byte) (d : Int) : Byte := add8 p (BitVec.ofInt 8 d)

/-! ## Taking the bias off a field (R92) -/

/-- R84, R92: a DIFF field of two bits stands for `f - 2`. -/
def diffDelta (f : BitVec 2) : Int := (f.toNat : Int) - 2

/-- R85, R92: the LUMA green field stands for `f - 32`. -/
def lumaGreen (f : BitVec 6) : Int := (f.toNat : Int) - 32

/-- R85, R92: a LUMA nibble stands for `f - 8`. -/
def lumaNibble (f : BitVec 4) : Int := (f.toNat : Int) - 8

/-- R86, R92: the RUN field stands for the length `f + 1`. -/
def runLength (l : BitVec 6) : Nat := l.toNat + 1

/-! ## Pixels from operands -/

/-- R150 `DiffPixel`. -/
def diffPixel (rr gg bb : BitVec 2) (pv : Pixel) : Pixel :=
  ⟨addDelta pv.r (diffDelta rr), addDelta pv.g (diffDelta gg), addDelta pv.b (diffDelta bb), pv.a⟩

/-- R151 `LumaPixel`. -/
def lumaPixel (g : BitVec 6) (rrrr bbbb : BitVec 4) (pv : Pixel) : Pixel :=
  let dg := lumaGreen g
  ⟨addDelta pv.r (lumaNibble rrrr + dg), addDelta pv.g dg, addDelta pv.b (lumaNibble bbbb + dg), pv.a⟩

/-! ## Deltas from pixels (R117) -/

/-- R117: the five deltas of a pixel against the previous one. -/
structure Deltas where
  dr : Int
  dg : Int
  db : Int
  drg : Int
  dbg : Int
deriving DecidableEq, Repr

/-- R117 `Deltas(px, pv)`: modular 8-bit differences, read as signed. -/
def deltas (px pv : Pixel) : Deltas :=
  let dr := s8 (sub8 px.r pv.r)
  let dg := s8 (sub8 px.g pv.g)
  let db := s8 (sub8 px.b pv.b)
  { dr := dr
    dg := dg
    db := db
    drg := s8 (sub8 (BitVec.ofInt 8 dr) (BitVec.ofInt 8 dg))
    dbg := s8 (sub8 (BitVec.ofInt 8 db) (BitVec.ofInt 8 dg)) }

/-- R118: the range test of DIFF. -/
def Deltas.fitsDiff (d : Deltas) : Bool :=
  inRange (-2) 1 d.dr && inRange (-2) 1 d.dg && inRange (-2) 1 d.db

/-- R119: the range test of LUMA. -/
def Deltas.fitsLuma (d : Deltas) : Bool :=
  inRange (-32) 31 d.dg && inRange (-8) 7 d.drg && inRange (-8) 7 d.dbg

/-! ## Packed pixels -/

/-- R42: the packing on the pixel ports, red in bits [31:24] down to alpha in [7:0]. -/
def packPixel (p : Pixel) : Word := p.r ++ p.g ++ p.b ++ p.a

/-- R42: the pixel of a packed word. -/
def unpackPixel (w : Word) : Pixel :=
  ⟨w.extractLsb' 24 8, w.extractLsb' 16 8, w.extractLsb' 8 8, w.extractLsb' 0 8⟩

/-- R61: the index of the pixel at column `x`, row `y` of a raster of the width given. -/
def rasterIndex (width x y : Nat) : Nat := y * width + x

/-- R62: channel `k` of a pixel, in the byte order of a raster buffer: red, green, blue, alpha. -/
def channelAt (p : Pixel) (k : Nat) : Byte :=
  match k % 4 with
  | 0 => p.r
  | 1 => p.g
  | 2 => p.b
  | _ => p.a

end Sys2Proof.Machine
end

