-- ==== Sys2Proof/Machine/State.lean ====
section
/-! DEFINITION. The machine's state (spec/10_state.md): both agents' registers, the four streams of
spec/20_memory.md R60, the host's input ports and the handshake, all plain data; the state after a
hardware reset; the ways a step can stop. -/

namespace Sys2Proof.Machine

/-- R20: the two agents. -/
inductive Agent where
  | enc
  | dec
deriving DecidableEq, Repr

/-- R23: `ENC.state`. No other value exists. -/
inductive EncState where
  | idle
  | active
  | done
  | error
deriving DecidableEq, Repr

/-- R28: `DEC.state`. The values 6 and 7 are never written, so they have no name here. -/
inductive DecState where
  | idle
  | hdr
  | op
  | arg
  | done
  | error
deriving DecidableEq, Repr

/-- R27: `DEC.op`, the multi-byte opcode whose operands are being read. -/
inductive PendingOp where
  | none
  | rgb
  | rgba
  | luma
deriving DecidableEq, Repr

/-- R181: the cause of the last error. Codes 8..15 are never written, so they have no name here. -/
inductive Cause where
  | none
  | preZeroDim
  | preTooManyPixels
  | fmtBadMagic
  | fmtBadDims
  | fmtTruncated
  | fmtRunOverrun
  | fmtTrailingBytes
deriving DecidableEq, Repr

/-- R38: 64 slots of one Pixel, addressed by a 6-bit index. -/
abbrev Cache := Vector Pixel Config.cacheSlots

/-- R22: the encoder's registers, exactly these. -/
structure Enc where
  /-- `ENC.state` (R23) -/
  state : EncState
  /-- `ENC.width` -/
  width : Word
  /-- `ENC.height` -/
  height : Word
  /-- `ENC.npix` -/
  npix : Word
  /-- `ENC.px_pos` (R26) -/
  pxPos : Word
  /-- `ENC.out_count` -/
  outCount : Word
  /-- `ENC.prev` (R24) -/
  prev : Pixel
  /-- `ENC.run` (R25) -/
  run : BitVec 6
  /-- `ENC.cache[0..63]` (R38) -/
  cache : Cache
  /-- `ENC.err_cause` (R181) -/
  errCause : Cause
deriving DecidableEq, Repr

/-- R27: the decoder's registers, exactly these. -/
structure Dec where
  /-- `DEC.state` (R28) -/
  state : DecState
  /-- `DEC.in_len` -/
  inLen : Word
  /-- `DEC.in_pos` (R29) -/
  inPos : Word
  /-- `DEC.hdr[0..13]` -/
  hdr : Vector Byte 14
  /-- `DEC.width` -/
  width : Word
  /-- `DEC.height` -/
  height : Word
  /-- `DEC.channels` -/
  channels : Byte
  /-- `DEC.colorspace` -/
  colorspace : Byte
  /-- `DEC.npix` -/
  npix : Word
  /-- `DEC.out_count` -/
  outCount : Word
  /-- `DEC.op` -/
  op : PendingOp
  /-- `DEC.op_byte` -/
  opByte : Byte
  /-- `DEC.argc` -/
  argc : BitVec 3
  /-- `DEC.arg[0..3]` -/
  arg : Vector Byte 4
  /-- `DEC.prev` (R30) -/
  prev : Pixel
  /-- `DEC.cache[0..63]` (R38) -/
  cache : Cache
  /-- `DEC.err_cause` (R181) -/
  errCause : Cause
deriving DecidableEq, Repr

/-- R60: the four streams, each addressed by position, as lists of (index, element) in rising order.
An index that is not listed holds no element: the host has not offered it, or no one has emitted it
(notes/assumptions/6.md).
The elements of the raster spaces are whole pixels (R68, R69 "A partial-pixel access does not exist"). -/
structure Memory where
  /-- `RASTER_IN` -/
  rasterIn : List (Nat × Pixel)
  /-- `BYTES_OUT` -/
  bytesOut : List Host.Cell
  /-- `BYTES_IN` -/
  bytesIn : List Host.Cell
  /-- `RASTER_OUT` -/
  rasterOut : List (Nat × Pixel)
deriving DecidableEq, Repr

/-- R40, R41: the levels of the input ports, which the host drives.
The offered pixel `enc_px` is RASTER_IN at `px_pos` and the offered byte `dec_in_byte` is BYTES_IN at
`in_pos` (R13), so neither is stored a second time. -/
structure Ports where
  /-- `enc_start` -/
  encStart : Bool
  /-- `enc_width` -/
  encWidth : Word
  /-- `enc_height` -/
  encHeight : Word
  /-- `enc_px_valid` -/
  encPxValid : Bool
  /-- `enc_out_ready` -/
  encOutReady : Bool
  /-- `dec_start` -/
  decStart : Bool
  /-- `dec_in_len` -/
  decInLen : Word
  /-- `dec_in_valid` -/
  decInValid : Bool
  /-- `dec_px_ready` -/
  decPxReady : Bool
deriving DecidableEq, Repr

/-- What happens next: an agent takes its turn, or the host acts on a port, a buffer, a sink or the reset.
The model's own type: it makes the interleaving that R209 and U14 leave open plain data (notes/assumptions/5.md). -/
inductive Move where
  /-- An agent takes its turn (R5). -/
  | turn (a : Agent)
  /-- R200: hardware reset of the agents named, between two steps. -/
  | rst (enc dec : Bool)
  /-- R43: the byte `enc_out_byte` moves to the sink, where valid and ready are both 1 (notes/assumptions/15.md). -/
  | takeByte
  /-- R43: the pixel `dec_px` moves to the sink, where valid and ready are both 1 (notes/assumptions/15.md). -/
  | takePixel
  /-- The host drives `enc_start`, `enc_width` and `enc_height`. -/
  | driveEncStart (start : Bool) (width height : Word)
  /-- The host drives `enc_px_valid`. -/
  | driveEncPxValid (v : Bool)
  /-- The host drives `enc_out_ready`. -/
  | driveEncOutReady (v : Bool)
  /-- The host drives `dec_start` and `dec_in_len`. -/
  | driveDecStart (start : Bool) (len : Word)
  /-- The host drives `dec_in_valid`. -/
  | driveDecInValid (v : Bool)
  /-- The host drives `dec_px_ready`. -/
  | driveDecPxReady (v : Bool)
  /-- The host puts a pixel at an index of RASTER_IN, before or during a pass (R72, U5). -/
  | putPixel (i : Word) (p : Pixel)
  /-- The host puts a byte at an index of BYTES_IN, before or during a pass (R72, U5). -/
  | putByte (i : Word) (v : Byte)
deriving DecidableEq, Repr

/-- Everything the machine holds. -/
structure State where
  /-- R22 -/
  enc : Enc
  /-- R27 -/
  dec : Dec
  /-- R60 -/
  mem : Memory
  /-- R40, R41: input ports -/
  ports : Ports
  /-- R43: how many bytes of BYTES_OUT the sink has taken -/
  encTaken : Word
  /-- R43: how many pixels of RASTER_OUT the sink has taken -/
  decTaken : Word
  /-- R200: what the byte sink has taken, oldest first -/
  byteSink : List Byte
  /-- R200: what the pixel sink has taken, oldest first -/
  pixelSink : List Pixel
  /-- The model's own: the moves still to come -/
  agenda : List Move
  /-- The model's own: who moves when the agenda is empty -/
  turn : Agent
  /-- The model's own: how many caches Config.unspecifiedCache has been drawn for -/
  draws : Nat
deriving DecidableEq, Repr

/-- What stops the machine with a fault: nothing.
Every error of the spec is an agent's `ERROR` state with a cause code, which is a next state (R182), and no
rule stops the block.
No one raises a fault, so there is no difference from the hardware to call safe or unsafe. -/
inductive Fault where
deriving DecidableEq, Repr

/-- What a step refuses for want of a meaning. -/
inductive Refusal where
  /-- Raised by an arm of `exec` whose instruction has no meaning yet; safe, since the machine stops where the
  hardware goes on.
  No arm raises it: all six opcodes have their meaning. -/
  | notModelled (mnemonic : String)
deriving DecidableEq, Repr

/-- A cache as State.reset holds it: R38 leaves it unspecified.
DESIGN CHOICE every slot is (0,0,0,0), unsafe (notes/assumptions/2.md). -/
def Cache.atReset : Cache := Vector.replicate 64 ⟨0, 0, 0, 0⟩

/-- R22, R49: the encoder's hardware-reset values, with the cache contents given. -/
def Enc.atReset (c : Cache) : Enc where
  state := .idle
  width := 0
  height := 0
  npix := 0
  pxPos := 0
  outCount := 0
  prev := .black
  run := 0
  cache := c
  errCause := .none

/-- R27, R49: the decoder's hardware-reset values, with the cache contents given. -/
def Dec.atReset (c : Cache) : Dec where
  state := .idle
  inLen := 0
  inPos := 0
  hdr := Vector.replicate 14 0
  width := 0
  height := 0
  channels := 0
  colorspace := 0
  npix := 0
  outCount := 0
  op := .none
  opByte := 0
  argc := 0
  arg := Vector.replicate 4 0
  prev := .black
  cache := c
  errCause := .none

/-- R60: no stream holds an element. -/
def Memory.empty : Memory := ⟨[], [], [], []⟩

/-- R49 gives input ports no reset value: the host drives them.
DESIGN CHOICE all low and zero, unsafe (notes/assumptions/4.md). -/
def Ports.atReset : Ports := ⟨false, 0, 0, false, false, false, 0, false, false⟩

/-- R49, R200: the machine right after the hardware reset that follows power-up (R202). -/
def State.reset : State where
  enc := Enc.atReset Cache.atReset
  dec := Dec.atReset Cache.atReset
  mem := Memory.empty
  ports := Ports.atReset
  encTaken := 0
  decTaken := 0
  byteSink := []
  pixelSink := []
  agenda := []
  turn := .enc
  draws := 0

end Sys2Proof.Machine
end

