-- ==== Sys2Proof/Machine/Ops.lean ====
section
/-! DEFINITION. The named operations over the streams, the caches and the registers: stream access
(spec/00_scope.md R13), the pixel cache (spec/40_pixel_cache.md), error entry (spec/60_exceptions.md R182),
and the decoder's common tails (spec/42_decoder.md R153, R154). -/

namespace Sys2Proof.Machine

/-! ## Streams as lists of (index, element) -/

/-- The element at an index; `none` where there is none. -/
def memRead {α : Type} : List (Nat × α) → Nat → Option α
  | [], _ => none
  | (k, v) :: rest, i => if k = i then some v else memRead rest i

/-- The element at an index replaced or added, keeping the indices rising. -/
def memWrite {α : Type} : List (Nat × α) → Nat → α → List (Nat × α)
  | [], i, x => [(i, x)]
  | (k, v) :: rest, i, x =>
    if i < k then (i, x) :: (k, v) :: rest
    else if i = k then (i, x) :: rest
    else (k, v) :: memWrite rest i x

/-- `n` elements equal to `x` at `base`, `base + 1`, and so on. -/
def memFill {α : Type} (m : List (Nat × α)) (base : Nat) (x : α) : Nat → List (Nat × α)
  | 0 => m
  | n + 1 => memWrite (memFill m base x n) (base + n) x

/-- The elements from an index on, in index order. -/
def memFrom {α : Type} (m : List (Nat × α)) (base : Nat) : List α :=
  (m.filter (fun c => decide (base ≤ c.1))).map Prod.snd

/-- The canonical form of one stream: indices strictly rising. -/
def memWf {α : Type} : List (Nat × α) → Bool
  | [] => true
  | [_] => true
  | (i, _) :: (j, y) :: rest => decide (i < j) && memWf ((j, y) :: rest)

/-- The canonical form of all four streams, so that equal streams are equal lists. -/
def Memory.wf (m : Memory) : Bool :=
  memWf m.rasterIn && memWf m.bytesOut && memWf m.bytesIn && memWf m.rasterOut

/-- R62: byte `k` of a raster seen as bytes, where a host stores it so. -/
def rasterByteAt (m : List (Nat × Pixel)) (k : Nat) : Option Byte :=
  (memRead m (k / 4)).map (fun p => channelAt p k)

/-! ## The pixel cache -/

/-- R100 `hash`: the exact sum, reduced modulo 64. -/
def pixelHash (p : Pixel) : BitVec 6 :=
  BitVec.ofNat 6 (p.r.toNat * 3 + p.g.toNat * 5 + p.b.toNat * 7 + p.a.toNat * 11)

/-- R101 `lookup`: a plain read; every 6-bit index is valid. -/
def lookup (cache : Cache) (s : BitVec 6) : Pixel := cache[s.toNat]'(s.isLt)

/-- R104 `store`: the slot replaced without any check (R103). -/
def store (cache : Cache) (s : BitVec 6) (p : Pixel) : Cache := cache.set s.toNat p s.isLt

/-- R102 `reset`: every slot `BLACK`. -/
def cacheReset : Cache := Vector.replicate 64 .black

/-! ## Error entry -/

/-- R182: the agent's `err_cause` and `state` are written and nothing else changes.
The caller abandons the rest of its step.
There is no return from an error: only a start step or a hardware reset leaves `ERROR` (R185). -/
def raise (a : Agent) (c : Cause) (s : State) : State :=
  match a with
  | .enc => { s with enc.errCause := c, enc.state := .error }
  | .dec => { s with dec.errCause := c, dec.state := .error }

/-! ## ENC's output -/

/-- R13 `EmitByte`. -/
def emitByte (v : Byte) (s : State) : State :=
  { s with
    mem.bytesOut := memWrite s.mem.bytesOut s.enc.outCount.toNat v
    enc.outCount := s.enc.outCount + 1 }

/-- Several bytes emitted in order. -/
def emitBytes : List Byte → State → State
  | [], s => s
  | v :: rest, s => emitBytes rest (emitByte v s)

/-! ## DEC's input and output -/

/-- R141: the part of `NextByte` that consumes the byte offered. -/
def consumeByte (s : State) : State := { s with dec.inPos := s.dec.inPos + 1 }

/-- R13 `EmitPixel`, `n` times the same pixel (R148): they go to the end of the output sequence, which has
`out_count` elements. -/
def emitPixels (n : Nat) (p : Pixel) (s : State) : State :=
  { s with mem.rasterOut := memFill s.mem.rasterOut s.dec.outCount.toNat p n }

/-- R154 `CheckComplete`. -/
def checkComplete (s : State) : State :=
  if s.dec.outCount = s.dec.npix then
    if s.dec.inPos = s.dec.inLen then { s with dec.state := .done }
    else raise .dec .fmtTrailingBytes s
  else s

/-- R153 `FinishPixel`: the common tail of every opcode except RUN. -/
def finishPixel (px : Pixel) (s : State) : State :=
  let s1 := emitPixels 1 px s
  checkComplete { s1 with
    dec.cache := store s1.dec.cache (pixelHash px) px
    dec.prev := px
    dec.outCount := s1.dec.outCount + 1
    dec.op := .none
    dec.argc := 0
    dec.state := .op }

end Sys2Proof.Machine
end

