-- ==== Sys2Proof/Machine/MultiByte.lean ====
section
/-! DEFINITION. What DEC does on an opcode of several bytes: LUMA, RGB and RGBA (spec/42_decoder.md R146,
R147, R151). The state given is that of the step that has read the last operand byte (R152). -/

namespace Sys2Proof.Machine

/-- R151 LUMA. -/
def execLuma (g : BitVec 6) (rrrr bbbb : BitVec 4) (s : State) : Host.Outcome State Fault Refusal :=
  .next (finishPixel (lumaPixel g rrrr bbbb s.dec.prev) s)

/-- R147 RGB: alpha is read from `prev` when the third operand arrives. -/
def execRgb (r g b : Byte) (s : State) : Host.Outcome State Fault Refusal :=
  .next (finishPixel ⟨r, g, b, s.dec.prev.a⟩ s)

/-- R146 RGBA. -/
def execRgba (r g b a : Byte) (s : State) : Host.Outcome State Fault Refusal :=
  .next (finishPixel ⟨r, g, b, a⟩ s)

end Sys2Proof.Machine
end

