-- ==== Sys2Proof/Machine/OneByte.lean ====
section
/-! DEFINITION. What DEC does on an opcode of one byte: INDEX, DIFF and RUN (spec/42_decoder.md R148, R149,
R150). The state given is that of the step that has read the byte (R141, R145). -/

namespace Sys2Proof.Machine

/-- R149 INDEX: the pixel of the slot named, stored again at its own hash. -/
def execIndex (i : BitVec 6) (s : State) : Host.Outcome State Fault Refusal :=
  .next (finishPixel (lookup s.dec.cache i) s)

/-- R150 DIFF. -/
def execDiff (rr gg bb : BitVec 2) (s : State) : Host.Outcome State Fault Refusal :=
  .next (finishPixel (diffPixel rr gg bb s.dec.prev) s)

/-- R148 RUN: an overrun raises before any pixel is emitted; cache and `prev` do not change.
DEDUCED from R8 ("None of them can wrap"): the sum is formed without wrapping (notes/assumptions/12.md). -/
def execRun (l : BitVec 6) (s : State) : Host.Outcome State Fault Refusal :=
  let n := runLength l
  if s.dec.outCount.toNat + n > s.dec.npix.toNat then .next (raise .dec .fmtRunOverrun s)
  else
    let s1 := emitPixels n s.dec.prev s
    .next (checkComplete { s1 with dec.outCount := s1.dec.outCount + BitVec.ofNat 32 n })

end Sys2Proof.Machine
end

