-- ==== Sys2Proof/Machine/Dispatch.lean ====
section
/-! DEFINITION. One arm per opcode (spec/42_decoder.md R145, R152). -/

namespace Sys2Proof.Machine

def exec (i : Instr) (s : State) : Host.Outcome State Fault Refusal :=
  match i with
  | .index slot => Sys2Proof.Machine.execIndex slot s
  | .diff rr gg bb => Sys2Proof.Machine.execDiff rr gg bb s
  | .luma g rrrr bbbb => Sys2Proof.Machine.execLuma g rrrr bbbb s
  | .run l => Sys2Proof.Machine.execRun l s
  | .rgb r g b => Sys2Proof.Machine.execRgb r g b s
  | .rgba r g b a => Sys2Proof.Machine.execRgba r g b a s

end Sys2Proof.Machine
end

