-- ==== Sys2Proof/Machine/Flags.lean ====
section
/-! DEFINITION. Register encodings (spec/10_state.md R23, R27, R28, spec/60_exceptions.md R181), the status
flags (R44, R45), and every output port as a function of the state (R40, R41).
No opcode sets a flag: the flags are derived from the state register and never stored. -/

namespace Sys2Proof.Machine

/-- R23: the two bits of `ENC.state`. -/
def EncState.code : EncState → BitVec 2
  | .idle => 0
  | .active => 1
  | .done => 2
  | .error => 3

/-- R28: the three bits of `DEC.state`. -/
def DecState.code : DecState → BitVec 3
  | .idle => 0
  | .hdr => 1
  | .op => 2
  | .arg => 3
  | .done => 4
  | .error => 5

/-- R27: the two bits of `DEC.op`. -/
def PendingOp.code : PendingOp → BitVec 2
  | .none => 0
  | .rgb => 1
  | .rgba => 2
  | .luma => 3

/-- R181: the four bits of a cause. -/
def Cause.code : Cause → BitVec 4
  | .none => 0
  | .preZeroDim => 1
  | .preTooManyPixels => 2
  | .fmtBadMagic => 3
  | .fmtBadDims => 4
  | .fmtTruncated => 5
  | .fmtRunOverrun => 6
  | .fmtTrailingBytes => 7

/-- R45: 0 none, 1 FormatError (causes 3 to 7), 2 PreconditionError (causes 1 and 2). -/
def errKind (c : Cause) : BitVec 2 :=
  match c with
  | .none => 0
  | .preZeroDim => 2
  | .preTooManyPixels => 2
  | .fmtBadMagic => 1
  | .fmtBadDims => 1
  | .fmtTruncated => 1
  | .fmtRunOverrun => 1
  | .fmtTrailingBytes => 1

/-- R44 `busy` of ENC. -/
def EncState.busy : EncState → Bool
  | .active => true
  | .idle => false
  | .done => false
  | .error => false

/-- R44 `busy` of DEC. -/
def DecState.busy : DecState → Bool
  | .hdr => true
  | .op => true
  | .arg => true
  | .idle => false
  | .done => false
  | .error => false

/-- R44 `done` of ENC. -/
def encDone (s : State) : Bool := decide (s.enc.state = .done)

/-- R44 `error` of ENC. -/
def encError (s : State) : Bool := decide (s.enc.state = .error)

/-- R44 `done` of DEC. -/
def decDone (s : State) : Bool := decide (s.dec.state = .done)

/-- R44 `error` of DEC. -/
def decError (s : State) : Bool := decide (s.dec.state = .error)

/-! ## Handshake (R43) -/

/-- R43: ENC has emitted a byte the sink has not taken. This is `enc_out_valid`. -/
def encOutValid (s : State) : Bool := decide (s.encTaken ≠ s.enc.outCount)

/-- R43: DEC has emitted a pixel the sink has not taken. This is `dec_px_valid`. -/
def decPxValid (s : State) : Bool := decide (s.decTaken ≠ s.dec.outCount)

/-- R40 `enc_px_ready`: 1 only in `ACTIVE`.
DEDUCED from R43: 0 while an emitted byte is not taken, since ENC then holds its next step
(notes/assumptions/22.md). -/
def encPxReady (s : State) : Bool := decide (s.enc.state = .active) && !encOutValid s

/-- R41 `dec_in_ready`: 1 only in `HDR`, `OP` or `ARG` with `in_pos < in_len`.
DEDUCED from R43: 0 while an emitted pixel is not taken (notes/assumptions/22.md). -/
def decInReady (s : State) : Bool :=
  s.dec.state.busy && decide (s.dec.inPos.toNat < s.dec.inLen.toNat) && !decPxValid s

/-- R112, R13 `InPixel(px_pos)`: the pixel the host offers, if it offers one. -/
def offeredPixel (s : State) : Option Pixel :=
  if s.ports.encPxValid then memRead s.mem.rasterIn s.enc.pxPos.toNat else none

/-- R40, R42 `enc_px`: the offered pixel as the port carries it, packed. -/
def encPxPort (s : State) : Option Word := (offeredPixel s).map packPixel

/-- R141, R13 `InByte(in_pos)`: the byte the host offers, if it offers one. -/
def offeredByte (s : State) : Option Byte :=
  if s.ports.decInValid then memRead s.mem.bytesIn s.dec.inPos.toNat else none

/-! ## Output ports -/

/-- R40: what ENC shows the host, exactly the output ports of its table.
The counter `px_pos`, which R188 calls read-only on ports and R40 gives no port, is in `CounterOutputs`
(notes/assumptions/23.md).
`outByte` is `none` where `outValid` is 0 (notes/assumptions/22.md). -/
structure EncOutputs where
  pxReady : Bool
  outValid : Bool
  outByte : Option Byte
  busy : Bool
  done : Bool
  error : Bool
  errKind : BitVec 2
  errCause : BitVec 4
  outCount : Word
deriving DecidableEq, Repr

/-- R41: what DEC shows the host. `px` is `none` where `pxValid` is 0 (notes/assumptions/22.md). -/
structure DecOutputs where
  inReady : Bool
  pxValid : Bool
  px : Option Word
  width : Word
  height : Word
  channels : Byte
  colorspace : Byte
  busy : Bool
  done : Bool
  error : Bool
  errKind : BitVec 2
  errCause : BitVec 4
  inPos : Word
  outCount : Word
deriving DecidableEq, Repr

/-- R40. It has no `px_pos`: see `counterOutputs` (notes/assumptions/23.md). -/
def encOutputs (s : State) : EncOutputs where
  pxReady := encPxReady s
  outValid := encOutValid s
  outByte := if encOutValid s then memRead s.mem.bytesOut s.encTaken.toNat else none
  busy := s.enc.state.busy
  done := encDone s
  error := encError s
  errKind := errKind s.enc.errCause
  errCause := s.enc.errCause.code
  outCount := s.enc.outCount

/-- R41; `dec_px` is packed by R42. -/
def decOutputs (s : State) : DecOutputs where
  inReady := decInReady s
  pxValid := decPxValid s
  px := if decPxValid s then (memRead s.mem.rasterOut s.decTaken.toNat).map packPixel else none
  width := s.dec.width
  height := s.dec.height
  channels := s.dec.channels
  colorspace := s.dec.colorspace
  busy := s.dec.state.busy
  done := decDone s
  error := decError s
  errKind := errKind s.dec.errCause
  errCause := s.dec.errCause.code
  inPos := s.dec.inPos
  outCount := s.dec.outCount

/-- R188: the four progress counters, each read-only on ports.
R40 and R41 name a port for the last three (`enc_out_count`, `dec_in_pos`, `dec_out_count`) and none for
`ENC.px_pos`.
DESIGN CHOICE: `encPxPos` is an output the host reads beside R40's table, under no port name of the spec
(notes/assumptions/23.md). -/
structure CounterOutputs where
  encPxPos : Word
  encOutCount : Word
  decInPos : Word
  decOutCount : Word
deriving DecidableEq, Repr

/-- R188. -/
def counterOutputs (s : State) : CounterOutputs where
  encPxPos := s.enc.pxPos
  encOutCount := (encOutputs s).outCount
  decInPos := (decOutputs s).inPos
  decOutCount := (decOutputs s).outCount

end Sys2Proof.Machine
end

