-- ==== Sys2Proof/Machine/Decoder.lean ====
section
/-! DEFINITION. The decoder's steps (spec/42_decoder.md R140 to R145, R152): the start step, the header, and
the collection of an opcode's bytes up to the step that runs it. -/

namespace Sys2Proof.Machine

/-- R140 `DecStart`.
DEDUCED from R60 (RASTER_OUT has indices 0..out_count-1): the output sequence of the new pass is empty
(notes/assumptions/8.md). -/
def decStart (s : State) : State :=
  { s with
    dec := { s.dec with
      inLen := s.ports.decInLen
      inPos := 0
      outCount := 0
      npix := 0
      width := 0
      height := 0
      channels := 0
      colorspace := 0
      hdr := Vector.replicate 14 0
      op := .none
      opByte := 0
      argc := 0
      arg := Vector.replicate 4 0
      errCause := .none
      cache := cacheReset
      prev := .black
      state := .hdr }
    mem.rasterOut := []
    decTaken := 0 }

/-- R143 `CheckMagic`. -/
def checkMagic (s : State) : State :=
  if bigEndian32 s.dec.hdr[0] s.dec.hdr[1] s.dec.hdr[2] s.dec.hdr[3] ≠ Config.magic then
    raise .dec .fmtBadMagic s
  else s

/-- R8, R144: the exact product of two dimensions. -/
def pixelProduct (w h : Word) : Nat := w.toNat * h.toNat

/-- R144 `ParseHeader`. -/
def parseHeader (s : State) : State :=
  let h := s.dec.hdr
  let s1 : State := { s with
    dec.width := bigEndian32 h[4] h[5] h[6] h[7]
    dec.height := bigEndian32 h[8] h[9] h[10] h[11]
    dec.channels := h[12]
    dec.colorspace := h[13] }
  let n := pixelProduct s1.dec.width s1.dec.height
  if s1.dec.width = 0 ∨ s1.dec.height = 0 ∨ n > Config.maxPixels then raise .dec .fmtBadDims s1
  else { s1 with dec.npix := BitVec.ofNat 32 n, dec.state := .op }

/-- R142: the byte `v` read at `in_pos` is kept in `hdr` at that index, and the position moves on (R141). -/
def keepHeaderByte (v : Byte) (s : State) : State :=
  { s with
    dec.hdr := s.dec.hdr.setIfInBounds s.dec.inPos.toNat v
    dec.inPos := s.dec.inPos + 1 }

/-- R142 `DecHeader`, the byte `v` read at `in_pos`. -/
def decHeader (v : Byte) (s : State) : State :=
  if s.dec.inPos = 3 then checkMagic (keepHeaderByte v s)
  else if s.dec.inPos = 13 then parseHeader (keepHeaderByte v s)
  else keepHeaderByte v s

/-- R145: the multi-byte opcode a first byte opens. -/
def pendingOf (v : Byte) : PendingOp :=
  if v = 0xFF then .rgba
  else if v = 0xFE then .rgb
  else if tagOf v = 0b10 then .luma
  else .none

/-- R145: a first byte whose operands are still to come is kept, and DEC waits in `ARG`. -/
def openOpcode (v : Byte) (s : State) : State :=
  { s with dec.op := pendingOf v, dec.opByte := v, dec.argc := 0, dec.state := .arg }

/-- R145 `DecOp`: an opcode of one byte runs in this step. -/
def decOp (v : Byte) (s : State) : Host.Outcome State Fault Refusal :=
  let s1 := consumeByte s
  match decode [v] with
  | .ok (i, _) => exec i s1
  | .error _ => .next (openOpcode v s1)

/-- R81, R152: how many operand bytes the pending opcode takes. -/
def operandCount : PendingOp → Nat
  | .none => 0
  | .rgb => 3
  | .rgba => 4
  | .luma => 1

/-- R152: the first byte as `DEC.op` has it; LUMA keeps its six green bits in `op_byte`. -/
def pendingFirstByte (d : Dec) : Byte :=
  match d.op with
  | .rgba => 0xFF
  | .rgb => 0xFE
  | .luma => tagged 0b10 (low6 d.opByte)
  | .none => d.opByte

/-- R152: the bytes of the pending opcode that have been read. -/
def collectedBytes (d : Dec) : List Byte := pendingFirstByte d :: d.arg.toList.take d.argc.toNat

/-- R152: an operand byte is kept in `arg[argc]`. -/
def takeOperand (v : Byte) (s : State) : State :=
  { s with
    dec.arg := s.dec.arg.setIfInBounds s.dec.argc.toNat v
    dec.argc := s.dec.argc + 1 }

/-- R152: the last operand byte of the pending opcode has been read. -/
def operandsComplete (d : Dec) : Bool :=
  decide (d.op ≠ .none) && decide (d.argc.toNat = operandCount d.op)

/-- R152 `DecArg`: the step that reads the last operand byte runs the opcode. -/
def decArg (v : Byte) (s : State) : Host.Outcome State Fault Refusal :=
  let s1 := takeOperand v (consumeByte s)
  if operandsComplete s1.dec then
    match decode (collectedBytes s1.dec) with
    | .ok (i, _) => exec i s1
    | .error _ => .next s1
  else .next s1

/-- R141: one byte step, by the state it is taken in. -/
def decByte (v : Byte) (s : State) : Host.Outcome State Fault Refusal :=
  match s.dec.state with
  | .hdr => .next (decHeader v s)
  | .op => decOp v s
  | .arg => decArg v s
  | .idle => .next s
  | .done => .next s
  | .error => .next s

/-- R140, R141, R204, R208: what DEC does when it may take a step.
A start request is taken only when no pass runs; a busy DEC at the end of its input raises `FMT_TRUNCATED`
without consuming anything; otherwise it takes the byte offered, or waits. -/
def decStep (s : State) : Host.Outcome State Fault Refusal :=
  if s.dec.state.busy then
    if s.dec.inPos = s.dec.inLen then .next (raise .dec .fmtTruncated s)
    else if decInReady s then
      match offeredByte s with
      | some v => decByte v s
      | none => .next s
    else .next s
  else if s.ports.decStart then .next (decStart s)
  else .next s

end Sys2Proof.Machine
end

