-- ==== Sys2Proof/Machine/Encoder.lean ====
section
/-! DEFINITION. The encoder's steps (spec/41_encoder.md R110 to R123). ENC emits the bytes of an opcode by the
encoder of Decode.lean, which is written from the formats R83 to R88. -/

namespace Sys2Proof.Machine

/-- R111 `EmitHeader`: 14 bytes, in this order. -/
def headerBytes (w h : Word) : List Byte :=
  be32 Config.magic ++ be32 w ++ be32 h ++ [Config.channelsByte, Config.colorspaceByte]

/-- R110 `EncStart`.
DEDUCED from R60 (BYTES_OUT has indices 0..out_count-1): the output sequence of the new pass is empty
(notes/assumptions/8.md). -/
def encStart (s : State) : State :=
  let s0 := { s with
    enc := { s.enc with
      width := s.ports.encWidth
      height := s.ports.encHeight
      pxPos := 0
      outCount := 0
      npix := 0
      errCause := .none }
    mem.bytesOut := []
    encTaken := 0 }
  if s0.enc.width = 0 ∨ s0.enc.height = 0 then raise .enc .preZeroDim s0
  else
    let n := s0.enc.width.toNat * s0.enc.height.toNat
    if n > Config.maxPixels then raise .enc .preTooManyPixels s0
    else
      let s1 := { s0 with
        enc.npix := BitVec.ofNat 32 n
        enc.cache := cacheReset
        enc.prev := .black
        enc.run := 0 }
      let s2 := emitBytes (headerBytes s1.enc.width s1.enc.height) s1
      { s2 with enc.state := .active }

/-- R113, R114: the RUN byte of the open run, `0xC0 | (run - 1)`. -/
def runByte (run : BitVec 6) : List Byte := encode (.run (run - 1))

/-- R113, R114: the open run is written out and `run` cleared. -/
def flushRun (s : State) : State :=
  let s1 := emitBytes (runByte s.enc.run) s
  { s1 with enc.run := 0 }

/-- R113: a pixel equal to `prev` extends the run; a run of 62, or one at the last pixel, is flushed. -/
def extendRun (last : Bool) (s : State) : State :=
  let s1 := { s with enc.run := s.enc.run + 1 }
  if s1.enc.run = Config.runMax ∨ last then flushRun s1 else s1

/-- R117 to R121: the opcode of a pixel that misses the cache. -/
def missOpcode (px pv : Pixel) : Instr :=
  if px.a = pv.a then
    let d := deltas px pv
    if d.fitsDiff then
      .diff (BitVec.ofInt 2 (d.dr + 2)) (BitVec.ofInt 2 (d.dg + 2)) (BitVec.ofInt 2 (d.db + 2))
    else if d.fitsLuma then
      .luma (BitVec.ofInt 6 (d.dg + 32)) (BitVec.ofInt 4 (d.drg + 8)) (BitVec.ofInt 4 (d.dbg + 8))
    else .rgb px.r px.g px.b
  else .rgba px.r px.g px.b px.a

/-- R115 to R122: a pixel that differs from `prev`, after any open run is flushed. -/
def codePixel (px : Pixel) (s : State) : State :=
  let slot := pixelHash px
  let s1 :=
    if lookup s.enc.cache slot = px then emitBytes (encode (.index slot)) s
    else emitBytes (encode (missOpcode px s.enc.prev))
      { s with enc.cache := store s.enc.cache slot px }
  { s1 with enc.prev := px }

/-- R123: the position moves on, and the last pixel ends the pass. -/
def advancePixel (s : State) : State :=
  let s1 := { s with enc.pxPos := s.enc.pxPos + 1 }
  if s1.enc.pxPos = s1.enc.npix then { s1 with enc.state := .done } else s1

/-- R112 `EncPixel`: one pixel step, the pixel `px` read at `px_pos`. -/
def encPixel (px : Pixel) (s : State) : State :=
  let last := decide (s.enc.pxPos = s.enc.npix - 1)
  let s1 :=
    if px = s.enc.prev then extendRun last s
    else codePixel px (if s.enc.run ≠ 0 then flushRun s else s)
  advancePixel s1

/-- R110, R112, R204, R208: what ENC does when it may take a step.
A start request is taken only when no pass runs; an active ENC takes the pixel offered, or waits. -/
def encStep (s : State) : State :=
  if s.enc.state.busy then
    if encPxReady s then
      match offeredPixel s with
      | some px => encPixel px s
      | none => s
    else s
  else if s.ports.encStart then encStart s
  else s

end Sys2Proof.Machine
end

