-- ==== Sys2Proof/Machine/Interface.lean ====
section
/-! DEFINITION. The block's edge: output transfer and back-pressure (spec/10_state.md R43,
spec/70_reset_and_hazards.md R207), the hardware reset (R200), the host's moves, and an agent's turn. -/

namespace Sys2Proof.Machine

/-! ## Output transfer -/

/-- R43: with `enc_out_ready` at 1 the sink takes every byte offered, in order. -/
def drainBytes (s : State) : State :=
  if s.ports.encOutReady && encOutValid s then
    { s with
      byteSink := s.byteSink ++ memFrom s.mem.bytesOut s.encTaken.toNat
      encTaken := s.enc.outCount }
  else s

/-- R43: with `dec_px_ready` at 1 the sink takes every pixel offered, in order. -/
def drainPixels (s : State) : State :=
  if s.ports.decPxReady && decPxValid s then
    { s with
      pixelSink := s.pixelSink ++ memFrom s.mem.rasterOut s.decTaken.toNat
      decTaken := s.dec.outCount }
  else s

/-- R43: one byte moves to the sink, if one is offered and the sink is ready. -/
def takeByte (s : State) : State :=
  if s.ports.encOutReady && encOutValid s then
    match memRead s.mem.bytesOut s.encTaken.toNat with
    | some v => { s with byteSink := s.byteSink ++ [v], encTaken := s.encTaken + 1 }
    | none => s
  else s

/-- R43: one pixel moves to the sink, if one is offered and the sink is ready. -/
def takePixel (s : State) : State :=
  if s.ports.decPxReady && decPxValid s then
    match memRead s.mem.rasterOut s.decTaken.toNat with
    | some p => { s with pixelSink := s.pixelSink ++ [p], decTaken := s.decTaken + 1 }
    | none => s
  else s

/-! ## Turns -/

/-- R43: ENC's turn. It takes no step while a byte it emitted is not taken. -/
def encTurn (s : State) : State :=
  let s1 := drainBytes s
  if encOutValid s1 then s1 else drainBytes (encStep s1)

/-- A change of the state after an outcome that has one. -/
def mapNext (f : State → State) (o : Host.Outcome State Fault Refusal) : Host.Outcome State Fault Refusal :=
  match o with
  | .next t => .next (f t)
  | .fault r => .fault r
  | .refused r => .refused r

/-- R43: DEC's turn. It takes no step while a pixel it emitted is not taken. -/
def decTurn (s : State) : Host.Outcome State Fault Refusal :=
  let s1 := drainPixels s
  if decPxValid s1 then .next s1 else mapNext drainPixels (decStep s1)

/-- One agent's turn. -/
def agentTurn (a : Agent) (s : State) : Host.Outcome State Fault Refusal :=
  match a with
  | .enc => .next (encTurn s)
  | .dec => decTurn s

/-! ## Hardware reset (R200) -/

/-- R49, R200: ENC's registers at their reset values, its output stream empty, its cache unspecified.
What the sink has taken stays there. -/
def resetEnc (s : State) : State :=
  { s with
    enc := Enc.atReset (Config.unspecifiedCache s.draws)
    mem.bytesOut := []
    encTaken := 0
    draws := s.draws + 1 }

/-- R49, R200: DEC's registers at their reset values, its output stream empty, its cache unspecified.
What the sink has taken stays there. -/
def resetDec (s : State) : State :=
  { s with
    dec := Dec.atReset (Config.unspecifiedCache s.draws)
    mem.rasterOut := []
    decTaken := 0
    draws := s.draws + 1 }

/-- R200: the reset input is one per agent or shared. -/
def hardwareReset (enc dec : Bool) (s : State) : State :=
  let s1 := if enc then resetEnc s else s
  if dec then resetDec s1 else s1

/-! ## Moves -/

/-- What one move of the agenda does. -/
def doMove (m : Move) (s : State) : Host.Outcome State Fault Refusal :=
  match m with
  | .turn a => agentTurn a s
  | .rst enc dec => .next (hardwareReset enc dec s)
  | .takeByte => .next (takeByte s)
  | .takePixel => .next (takePixel s)
  | .driveEncStart start w h =>
    .next { s with ports.encStart := start, ports.encWidth := w, ports.encHeight := h }
  | .driveEncPxValid v => .next { s with ports.encPxValid := v }
  | .driveEncOutReady v => .next { s with ports.encOutReady := v }
  | .driveDecStart start len => .next { s with ports.decStart := start, ports.decInLen := len }
  | .driveDecInValid v => .next { s with ports.decInValid := v }
  | .driveDecPxReady v => .next { s with ports.decPxReady := v }
  | .putPixel i p => .next { s with mem.rasterIn := memWrite s.mem.rasterIn i.toNat p }
  | .putByte i v => .next { s with mem.bytesIn := memWrite s.mem.bytesIn i.toNat v }

/-- The agent after this one, when they take turns (R209: a step that stays enabled is taken). -/
def Agent.other : Agent → Agent
  | .enc => .dec
  | .dec => .enc

/-- R209, U14: the agenda says what happens next; once it is used up the agents take turns. -/
def advance (s : State) : Host.Outcome State Fault Refusal :=
  match s.agenda with
  | m :: rest => doMove m { s with agenda := rest }
  | [] => agentTurn s.turn { s with turn := s.turn.other }

end Sys2Proof.Machine
end

