-- ==== Sys2Proof/Machine/Fetch.lean ====
section
/-! DEFINITION. Placing an opcode where DEC's next byte step runs it (notes/assumptions/11.md).
DEC reads one byte a step (spec/10_state.md R29) and an opcode of k bytes takes k steps (R157), so the step that
RUNS an opcode is the one that reads its last byte: the bytes before it are placed as already read. -/

namespace Sys2Proof.Machine

/-- R141, R145, R152: DEC after the bytes of an opcode have been read, just before it runs.
Of a one-byte opcode only the position has moved. -/
def readOpcode (bs : List Byte) (s : State) : State :=
  match bs with
  | [] => s
  | [_] => consumeByte s
  | v :: operands => operands.foldl (fun t w => takeOperand w (consumeByte t)) (openOpcode v (consumeByte s))

/-- R145, R152: DEC after all bytes of an opcode but the last have been read. -/
def readAllButLast (bs : List Byte) (s : State) : State :=
  match bs with
  | [] => s
  | [_] => s
  | v :: operands =>
    operands.dropLast.foldl (fun t w => takeOperand w (consumeByte t)) (openOpcode v (consumeByte s))

/-- R140, R144: a decode pass of a 64 x 1 image in state `OP`, its header behind it, with `len` input bytes.
The header bytes themselves are left 0, since nothing reads them any more. -/
def passAtOpcodes (len : Word) (s : State) : State :=
  let s1 := decStart s
  { s1 with
    dec.inLen := len
    dec.inPos := 14
    dec.width := 64
    dec.height := 1
    dec.channels := 4
    dec.npix := 64
    dec.state := .op }

/-- Bytes put into BYTES_IN from an index on. -/
def putBytes (base : Nat) : List Byte → State → State
  | [], s => s
  | v :: rest, s => putBytes (base + 1) rest { s with mem.bytesIn := memWrite s.mem.bytesIn base v }

/-- The opcode's bytes put at `in_pos`, all but the last read, and DEC given the next turn. -/
def placeOpcode (bs : List Byte) (s : State) : State :=
  let k := BitVec.ofNat 32 bs.length
  let s0 := if s.dec.state = .op then s else passAtOpcodes (14 + k) s
  let s1 := putBytes s0.dec.inPos.toNat bs s0
  let s2 := readAllButLast bs s1
  let endPos := s2.dec.inPos + 1
  { s2 with
    dec.inLen := if s2.dec.inLen.toNat < endPos.toNat then endPos else s2.dec.inLen
    ports.decInValid := true
    ports.decPxReady := true
    agenda := .turn .dec :: s2.agenda }

/-- The bytes of the opcode at the front of a table word. -/
def tableOpcode (nbits w : Nat) : List Byte :=
  match tableBytes nbits w with
  | [] => []
  | v :: rest => v :: rest.take (opcodeLength v - 1)

end Sys2Proof.Machine
end

