-- ==== Sys2Proof/Machine/Step.lean ====
section
/-! DEFINITION. One step of the machine (spec/00_scope.md R5), and the placing of a table word. -/

namespace Sys2Proof.Machine

/-- R5: one move: an agent's atomic step, or one action of the host. -/
def step (s : State) : Host.Outcome State Fault Refusal := advance s

/-- The state with a table word's opcode placed so that the very next step runs it. -/
def State.withFetchWord (s : State) (nbits w : Nat) : State := placeOpcode (tableOpcode nbits w) s

end Sys2Proof.Machine
end

