-- ==== Sys2Proof/Safety.lean ====
section
/-! DEFINITION. The terms claims are made in: the invariants of the two agents and of their streams, and what it
means that a step emits bytes or leaves the rest of the machine alone. -/

namespace Sys2Proof.Machine

/-- R106: every slot holds a pixel whose hash is that slot, or `BLACK` left by the reset. -/
def cacheOk (cache : Cache) : Prop :=
  ∀ slot : BitVec 6, lookup cache slot = .black ∨ pixelHash (lookup cache slot) = slot

/-- What holds of the encoder's registers between any two steps.
The run counter stays within R25, the pass within R8, R110, R123 and R129, the slots within R106, and the cause
tells the state (R44, R181, R182). -/
structure EncInv (e : Enc) : Prop where
  /-- R25: between steps the value is 0..61 -/
  run_le : e.run.toNat ≤ 61
  /-- R113, R123: no run is open outside a pass -/
  run_closed : e.state ≠ .active → e.run = 0
  /-- R182, R185: a cause is held exactly in `ERROR` -/
  cause_iff : e.state = .error ↔ e.errCause ≠ .none
  /-- R180, R181: ENC raises PreconditionErrors only -/
  cause_kind : e.errCause = .none ∨ e.errCause = .preZeroDim ∨ e.errCause = .preTooManyPixels
  /-- R8: the pixel count is bounded -/
  npix_le : e.npix.toNat ≤ Config.maxPixels
  /-- R129: the output bound -/
  out_le : e.outCount.toNat ≤ Config.headerLen + 5 * e.npix.toNat
  /-- R110: the pass has `width*height` pixels, at least one -/
  dims : e.state = .active ∨ e.state = .done →
    e.npix.toNat = e.width.toNat * e.height.toNat ∧ 0 < e.npix.toNat
  /-- R26: a pixel is still to be read -/
  pos_lt : e.state = .active → e.pxPos.toNat < e.npix.toNat
  /-- R129: each pixel read has cost at most five bytes, a pixel of the open run none yet -/
  out_pace : e.state = .active →
    Config.headerLen ≤ e.outCount.toNat ∧
      e.outCount.toNat + 5 * e.run.toNat ≤ Config.headerLen + 5 * e.pxPos.toNat
  /-- R123: at the end all pixels are read and at least one opcode byte is out (R129) -/
  done_pos : e.state = .done → e.pxPos = e.npix ∧ Config.headerLen < e.outCount.toNat
  /-- R106 -/
  cache_ok : e.state = .active → cacheOk e.cache

/-- What holds of the decoder's registers between any two steps. -/
structure DecInv (d : Dec) : Prop where
  /-- R29: `in_pos <= in_len` always holds -/
  pos_le : d.inPos.toNat ≤ d.inLen.toNat
  /-- R148, R154: never more pixels than the pass has -/
  out_le : d.outCount.toNat ≤ d.npix.toNat
  /-- R8, R144: the pixel count is bounded -/
  npix_le : d.npix.toNat ≤ Config.maxPixels
  /-- R182, R185: a cause is held exactly in `ERROR` -/
  cause_iff : d.state = .error ↔ d.errCause ≠ .none
  /-- R180, R181: DEC raises FormatErrors only -/
  cause_kind : d.errCause ≠ .preZeroDim ∧ d.errCause ≠ .preTooManyPixels
  /-- R142: the header is not all read -/
  hdr_pos : d.state = .hdr → d.inPos.toNat < Config.headerLen ∧ d.outCount = 0 ∧ d.op = .none
  /-- R68, R145: an opcode starts at offset 14 or later, and some pixel needs it -/
  op_pos : d.state = .op → Config.headerLen ≤ d.inPos.toNat ∧ d.outCount.toNat < d.npix.toNat ∧ d.op = .none
  /-- R152: an opcode with operands is open, its first byte kept, and an operand is still to come -/
  arg_pos : d.state = .arg →
    Config.headerLen < d.inPos.toNat ∧ d.outCount.toNat < d.npix.toNat ∧ d.op ≠ .none ∧
      d.op = pendingOf d.opByte ∧ d.argc.toNat < operandCount d.op
  /-- R144: the pass has `width*height` pixels, at least one -/
  dims : d.state = .op ∨ d.state = .arg ∨ d.state = .done →
    d.npix.toNat = d.width.toNat * d.height.toNat ∧ 0 < d.npix.toNat
  /-- R156: the pass ends with the last pixel and the last byte -/
  done_pos : d.state = .done → d.outCount = d.npix ∧ d.inPos = d.inLen
  /-- R106 -/
  cache_ok : d.state.busy = true → cacheOk d.cache

/-- What holds of the streams between any two steps: the lists are canonical, each output stream has exactly the
indices R60 gives it, and the sink has taken no more than was emitted (R43). -/
structure StreamInv (s : State) : Prop where
  /-- The canonical form -/
  wf : s.mem.wf = true
  /-- R60: BYTES_OUT has the indices 0 .. out_count-1 -/
  bytes_range : ∀ k : Nat, (memRead s.mem.bytesOut k).isSome = decide (k < s.enc.outCount.toNat)
  /-- R60: RASTER_OUT has the indices 0 .. out_count-1 -/
  pixels_range : ∀ k : Nat, (memRead s.mem.rasterOut k).isSome = decide (k < s.dec.outCount.toNat)
  /-- R43 -/
  encTaken_le : s.encTaken.toNat ≤ s.enc.outCount.toNat
  /-- R43 -/
  decTaken_le : s.decTaken.toNat ≤ s.dec.outCount.toNat

/-- R43, R207: nothing is lost or reordered. The last items each sink holds are the items taken from the pass's
output stream, in order. -/
structure SinkInv (s : State) : Prop where
  bytes : ∃ n, s.byteSink.length = n + s.encTaken.toNat ∧
    ∀ k, k < s.encTaken.toNat → s.byteSink[n + k]? = memRead s.mem.bytesOut k
  pixels : ∃ n, s.pixelSink.length = n + s.decTaken.toNat ∧
    ∀ k, k < s.decTaken.toNat → s.pixelSink[n + k]? = memRead s.mem.rasterOut k

/-- The whole invariant. -/
structure Inv (s : State) : Prop where
  enc : EncInv s.enc
  dec : DecInv s.dec
  streams : StreamInv s
  sinks : SinkInv s

/-- Between `s` and `t` exactly the bytes `bs` were appended to BYTES_OUT (R13 `EmitByte`). -/
structure EmitsBytes (bs : List Byte) (s t : State) : Prop where
  count : t.enc.outCount = s.enc.outCount + BitVec.ofNat 32 bs.length
  emitted : ∀ k, k < bs.length → memRead t.mem.bytesOut (s.enc.outCount.toNat + k) = bs[k]?
  others : ∀ a, a < s.enc.outCount.toNat ∨ s.enc.outCount.toNat + bs.length ≤ a →
    memRead t.mem.bytesOut a = memRead s.mem.bytesOut a

/-- R20: `t` differs from `s` in nothing that belongs to ENC or the host. -/
structure OnlyDecoder (s t : State) : Prop where
  enc : t.enc = s.enc
  rasterIn : t.mem.rasterIn = s.mem.rasterIn
  bytesOut : t.mem.bytesOut = s.mem.bytesOut
  bytesIn : t.mem.bytesIn = s.mem.bytesIn
  ports : t.ports = s.ports
  encTaken : t.encTaken = s.encTaken
  decTaken : t.decTaken = s.decTaken
  byteSink : t.byteSink = s.byteSink
  pixelSink : t.pixelSink = s.pixelSink
  agenda : t.agenda = s.agenda
  turn : t.turn = s.turn
  draws : t.draws = s.draws

/-- R20: `t` differs from `s` in nothing that belongs to DEC or the host. -/
structure OnlyEncoder (s t : State) : Prop where
  dec : t.dec = s.dec
  rasterIn : t.mem.rasterIn = s.mem.rasterIn
  bytesIn : t.mem.bytesIn = s.mem.bytesIn
  rasterOut : t.mem.rasterOut = s.mem.rasterOut
  ports : t.ports = s.ports
  encTaken : t.encTaken = s.encTaken
  decTaken : t.decTaken = s.decTaken
  byteSink : t.byteSink = s.byteSink
  pixelSink : t.pixelSink = s.pixelSink
  agenda : t.agenda = s.agenda
  turn : t.turn = s.turn
  draws : t.draws = s.draws

/-- The registers of DEC that no opcode writes once its bytes have been read: the pass's length and position, the
header and its fields, and the bytes of the opcode itself (R148, R153). -/
structure OpcodeKeeps (d d' : Dec) : Prop where
  inLen : d'.inLen = d.inLen
  inPos : d'.inPos = d.inPos
  hdr : d'.hdr = d.hdr
  width : d'.width = d.width
  height : d'.height = d.height
  channels : d'.channels = d.channels
  colorspace : d'.colorspace = d.colorspace
  npix : d'.npix = d.npix
  opByte : d'.opByte = d.opByte
  arg : d'.arg = d.arg

/-- The pixel an opcode emits, from the registers it reads (R146, R147, R148, R149, R150, R151). -/
def opcodePixel (i : Instr) (d : Dec) : Pixel :=
  match i with
  | .index slot => lookup d.cache slot
  | .diff rr gg bb => diffPixel rr gg bb d.prev
  | .luma g rrrr bbbb => lumaPixel g rrrr bbbb d.prev
  | .run _ => d.prev
  | .rgb r g b => ⟨r, g, b, d.prev.a⟩
  | .rgba r g b a => ⟨r, g, b, a⟩

/-- R154: the state DEC is left in after `n` more pixels: `between` where they do not complete the pass, `DONE` where
the last byte completes it with them, and `ERROR` where bytes are left over. -/
def stateAfter (n : Nat) (between : DecState) (d : Dec) : DecState :=
  if d.outCount + BitVec.ofNat 32 n = d.npix then
    if d.inPos = d.inLen then .done else .error
  else between

/-- R154: the cause DEC is left with after `n` more pixels. -/
def causeAfter (n : Nat) (d : Dec) : Cause :=
  if d.outCount + BitVec.ofNat 32 n = d.npix ∧ d.inPos ≠ d.inLen then .fmtTrailingBytes else d.errCause

/-- What belongs to ENC is the same in both states: its registers, its streams, what its sink has taken, and its input
ports (R20, R40). -/
structure SameEncSide (s s' : State) : Prop where
  enc : s.enc = s'.enc
  rasterIn : s.mem.rasterIn = s'.mem.rasterIn
  bytesOut : s.mem.bytesOut = s'.mem.bytesOut
  encTaken : s.encTaken = s'.encTaken
  byteSink : s.byteSink = s'.byteSink
  encStart : s.ports.encStart = s'.ports.encStart
  encWidth : s.ports.encWidth = s'.ports.encWidth
  encHeight : s.ports.encHeight = s'.ports.encHeight
  encPxValid : s.ports.encPxValid = s'.ports.encPxValid
  encOutReady : s.ports.encOutReady = s'.ports.encOutReady

/-- What belongs to DEC is the same in both states: its registers, its streams, what its sink has taken, and its input
ports (R20, R41). -/
structure SameDecSide (s s' : State) : Prop where
  dec : s.dec = s'.dec
  bytesIn : s.mem.bytesIn = s'.mem.bytesIn
  rasterOut : s.mem.rasterOut = s'.mem.rasterOut
  decTaken : s.decTaken = s'.decTaken
  pixelSink : s.pixelSink = s'.pixelSink
  decStart : s.ports.decStart = s'.ports.decStart
  decInLen : s.ports.decInLen = s'.ports.decInLen
  decInValid : s.ports.decInValid = s'.ports.decInValid
  decPxReady : s.ports.decPxReady = s'.ports.decPxReady

/-- R114: the bytes that close the run open before a differing pixel. -/
def flushBytes (e : Enc) : List Byte :=
  if e.run.toNat = 0 then [] else [BitVec.ofNat 8 (0xC0 + (e.run.toNat - 1))]

/-- R125: the bytes of a run of `m` pixels. -/
def runBytes (m : Nat) : List Byte :=
  List.replicate (m / 62) 0xFD ++ (if m % 62 = 0 then [] else [BitVec.ofNat 8 (0xC0 + m % 62 - 1)])

end Sys2Proof.Machine
end

