-- ==== Sys2Proof/Certificates/Slice0/Obligations.lean ====
section
/-! DEFINITION. The statements for the provers. Each docstring names the rules of spec/ it formalises, or says that
it is the model's own. -/

open Sys2Proof Sys2Proof.Machine

/-! ## The opcode stream -/

/-- Every opcode that has an encoding is read back whole from its bytes, whatever bytes follow. -/
def Obligations.EncodeThenDecodeGivesOpcode : Prop :=
  ∀ (i : Instr) (rest : List Byte), i.wellFormed = true → decode (encode i ++ rest) = .ok (i, rest)

/-- R90: the groups are disjoint, so the bytes read are the only encoding of what was read. -/
def Obligations.DecodeThenEncodeGivesBytes : Prop :=
  ∀ (bs rest : List Byte) (i : Instr), decode bs = .ok (i, rest) →
    i.wellFormed = true ∧ encode i ++ rest = bs

/-- R81, R91, R96: no first byte and no operand byte is illegal. A byte list with a first byte is refused only when
operand bytes of the length that first byte tells are missing. -/
def Obligations.DecodeRefusesOnlyShortInput : Prop :=
  ∀ (v : Byte) (operands : List Byte),
    (operands.length + 1 < opcodeLength v → decode (v :: operands) = .error .truncated) ∧
    (opcodeLength v ≤ operands.length + 1 →
      ∃ i, decode (v :: operands) = .ok (i, operands.drop (opcodeLength v - 1)) ∧
        encode i = v :: operands.take (opcodeLength v - 1))

/-- Words written out from the formats R83 to R88 decode to the opcodes they stand for. -/
def Obligations.SampleWordsDecode : Prop :=
  decode [0b00110101] = .ok (.index 53, []) ∧
  decode [0b01111001] = .ok (.diff 3 2 1, []) ∧
  decode [0b10100101, 0b01010100] = .ok (.luma 37 5 4, []) ∧
  decode [0b11111101] = .ok (.run 61, []) ∧
  decode [0b11111110, 0x0A, 0x14, 0x1E] = .ok (.rgb 10 20 30, []) ∧
  decode [0b11111111, 0x01, 0x02, 0x03, 0x04] = .ok (.rgba 1 2 3 4, [])

/-- R94: each line of the assembler's table assembles to the bytes of its "encodes as" column when every operand is
in its range, and is refused otherwise. -/
def Obligations.AssemblerEncodesInRangeOnly : Prop :=
  (∀ x : Int, assemble (.index x) =
    if 0 ≤ x ∧ x ≤ 63 then some [BitVec.ofInt 8 (0x00 + x)] else none) ∧
  (∀ dr dg db : Int, assemble (.diff dr dg db) =
    if (-2 ≤ dr ∧ dr ≤ 1) ∧ (-2 ≤ dg ∧ dg ≤ 1) ∧ (-2 ≤ db ∧ db ≤ 1) then
      some [BitVec.ofInt 8 (0x40 + (dr + 2) * 16 + (dg + 2) * 4 + (db + 2))] else none) ∧
  (∀ dg drg dbg : Int, assemble (.luma dg drg dbg) =
    if (-32 ≤ dg ∧ dg ≤ 31) ∧ (-8 ≤ drg ∧ drg ≤ 7) ∧ (-8 ≤ dbg ∧ dbg ≤ 7) then
      some [BitVec.ofInt 8 (0x80 + dg + 32), BitVec.ofInt 8 ((drg + 8) * 16 + dbg + 8)] else none) ∧
  (∀ n : Int, assemble (.run n) =
    if 1 ≤ n ∧ n ≤ 62 then some [BitVec.ofInt 8 (0xC0 + n - 1)] else none) ∧
  (∀ r g b : Int, assemble (.rgb r g b) =
    if (0 ≤ r ∧ r ≤ 255) ∧ (0 ≤ g ∧ g ≤ 255) ∧ (0 ≤ b ∧ b ≤ 255) then
      some [0xFE, BitVec.ofInt 8 r, BitVec.ofInt 8 g, BitVec.ofInt 8 b] else none) ∧
  (∀ r g b a : Int, assemble (.rgba r g b a) =
    if (0 ≤ r ∧ r ≤ 255) ∧ (0 ≤ g ∧ g ≤ 255) ∧ (0 ≤ b ∧ b ≤ 255) ∧ (0 ≤ a ∧ a ≤ 255) then
      some [0xFF, BitVec.ofInt 8 r, BitVec.ofInt 8 g, BitVec.ofInt 8 b, BitVec.ofInt 8 a] else none) ∧
  (∀ w h cs k : Int, assemble (.header w h cs k) =
    if (0 ≤ w ∧ w < 2 ^ 32) ∧ (0 ≤ h ∧ h < 2 ^ 32) ∧ (0 ≤ cs ∧ cs ≤ 255) ∧ (0 ≤ k ∧ k ≤ 255) then
      some (be32 Config.magic ++ be32 (BitVec.ofInt 32 w) ++ be32 (BitVec.ofInt 32 h) ++
        [BitVec.ofInt 8 cs, BitVec.ofInt 8 k]) else none)

/-- R14: `BE32` and `be32` are inverse to each other, the most significant byte first. -/
def Obligations.BigEndianBytesRoundTrip : Prop :=
  (∀ b0 b1 b2 b3 : Byte,
    (bigEndian32 b0 b1 b2 b3).toNat =
      b0.toNat * 2 ^ 24 + b1.toNat * 2 ^ 16 + b2.toNat * 2 ^ 8 + b3.toNat ∧
    be32 (bigEndian32 b0 b1 b2 b3) = [b0, b1, b2, b3]) ∧
  (∀ v : Word, ∃ b0 b1 b2 b3 : Byte, be32 v = [b0, b1, b2, b3] ∧ bigEndian32 b0 b1 b2 b3 = v)

/-! ## Values and the pixel cache -/

/-- R42: packing a pixel loses nothing, so equality of packed words is equality of pixels. -/
def Obligations.PackedPixelRoundTrip : Prop :=
  (∀ p : Pixel, unpackPixel (packPixel p) = p) ∧
  (∀ p : Pixel, (packPixel p).toNat =
    p.r.toNat * 2 ^ 24 + p.g.toNat * 2 ^ 16 + p.b.toNat * 2 ^ 8 + p.a.toNat)

/-- R100: the slot of a pixel is the exact sum modulo 64, which is also the sum in 6-bit modular arithmetic. -/
def Obligations.HashIsWeightedSumModulo64 : Prop :=
  ∀ p : Pixel,
    (pixelHash p).toNat = (p.r.toNat * 3 + p.g.toNat * 5 + p.b.toNat * 7 + p.a.toNat * 11) % 64 ∧
    pixelHash p = 3 * p.r.setWidth 6 + 5 * p.g.setWidth 6 + 7 * p.b.setWidth 6 + 11 * p.a.setWidth 6

/-- R103, R104: what is stored in a slot is what lookups of that slot give, whatever is stored in other slots, until the
next store to it, which replaces it without any check. -/
def Obligations.StoredPixelStaysUntilItsSlotIsStoredAgain : Prop :=
  ∀ (cache : Cache) (slot : BitVec 6) (p q : Pixel) (others : List (BitVec 6 × Pixel)),
    (∀ e ∈ others, e.1 ≠ slot) →
    lookup (others.foldl (fun acc e => store acc e.1 e.2) (store cache slot p)) slot = p ∧
    lookup (store (others.foldl (fun acc e => store acc e.1 e.2) (store cache slot p)) slot q) slot = q ∧
    (∀ slot', slot' ≠ slot → (∀ e ∈ others, e.1 ≠ slot') →
      lookup (others.foldl (fun acc e => store acc e.1 e.2) (store cache slot p)) slot' = lookup cache slot')

/-- R117's corner case: with `dg` in -32..31, the wrapped `drg` is in -8..7 exactly when the unwrapped difference is,
and likewise `dbg`. -/
def Obligations.WrappedDeltaFitsExactlyWhenUnwrappedDoes : Prop :=
  ∀ px pv : Pixel, -32 ≤ (deltas px pv).dg → (deltas px pv).dg ≤ 31 →
    ((-8 ≤ (deltas px pv).drg ∧ (deltas px pv).drg ≤ 7) ↔
      (-8 ≤ (deltas px pv).dr - (deltas px pv).dg ∧ (deltas px pv).dr - (deltas px pv).dg ≤ 7)) ∧
    ((-8 ≤ (deltas px pv).dbg ∧ (deltas px pv).dbg ≤ 7) ↔
      (-8 ≤ (deltas px pv).db - (deltas px pv).dg ∧ (deltas px pv).db - (deltas px pv).dg ≤ 7))

/-! ## What an opcode does in DEC

The state is that of the step that has read the opcode's last byte. Each statement holds in every state, with all three
endings of R154: the pass goes on, it ends in `DONE`, or bytes are left over and it ends in `ERROR`. -/

/-- R146, R153, R154: RGBA gives the pixel of its four operands. -/
def Obligations.RgbaProducesItsOperands : Prop :=
  ∀ (r g b a : Byte) (s : State),
    ∃ t, exec (.rgba r g b a) s = .next t ∧
      memRead t.mem.rasterOut s.dec.outCount.toNat = some ⟨r, g, b, a⟩ ∧
      lookup t.dec.cache (pixelHash ⟨r, g, b, a⟩) = ⟨r, g, b, a⟩ ∧
      t.dec.prev = ⟨r, g, b, a⟩ ∧ t.dec.outCount = s.dec.outCount + 1 ∧
      t.dec.op = .none ∧ t.dec.argc = 0 ∧
      t.dec.state = stateAfter 1 .op s.dec ∧ t.dec.errCause = causeAfter 1 s.dec

/-- R147, R153, R154: RGB gives the pixel of its three operands and the previous pixel's alpha. -/
def Obligations.RgbKeepsPreviousAlpha : Prop :=
  ∀ (r g b : Byte) (s : State),
    ∃ t, exec (.rgb r g b) s = .next t ∧
      memRead t.mem.rasterOut s.dec.outCount.toNat = some ⟨r, g, b, s.dec.prev.a⟩ ∧
      lookup t.dec.cache (pixelHash ⟨r, g, b, s.dec.prev.a⟩) = ⟨r, g, b, s.dec.prev.a⟩ ∧
      t.dec.prev = ⟨r, g, b, s.dec.prev.a⟩ ∧ t.dec.outCount = s.dec.outCount + 1 ∧
      t.dec.op = .none ∧ t.dec.argc = 0 ∧
      t.dec.state = stateAfter 1 .op s.dec ∧ t.dec.errCause = causeAfter 1 s.dec

/-- R149, R153, R154: INDEX gives the pixel of the slot it names and stores it in the slot of its own hash, which
need not be the slot named. -/
def Obligations.IndexReproducesSlotAndStoresAtHash : Prop :=
  ∀ (i : BitVec 6) (s : State),
    ∃ t, exec (.index i) s = .next t ∧
      memRead t.mem.rasterOut s.dec.outCount.toNat = some (lookup s.dec.cache i) ∧
      lookup t.dec.cache (pixelHash (lookup s.dec.cache i)) = lookup s.dec.cache i ∧
      t.dec.prev = lookup s.dec.cache i ∧ t.dec.outCount = s.dec.outCount + 1 ∧
      t.dec.op = .none ∧ t.dec.argc = 0 ∧
      t.dec.state = stateAfter 1 .op s.dec ∧ t.dec.errCause = causeAfter 1 s.dec

/-- R150, R84, R92, R153, R154: DIFF adds each field less 2 to the previous pixel's channel, modulo 256, and keeps
alpha. -/
def Obligations.DiffAddsBiasedDeltas : Prop :=
  ∀ (rr gg bb : BitVec 2) (s : State),
    ∃ t, exec (.diff rr gg bb) s = .next t ∧
      memRead t.mem.rasterOut s.dec.outCount.toNat = some t.dec.prev ∧
      lookup t.dec.cache (pixelHash t.dec.prev) = t.dec.prev ∧
      (t.dec.prev.r.toNat : Int) = ((s.dec.prev.r.toNat : Int) + ((rr.toNat : Int) - 2)) % 256 ∧
      (t.dec.prev.g.toNat : Int) = ((s.dec.prev.g.toNat : Int) + ((gg.toNat : Int) - 2)) % 256 ∧
      (t.dec.prev.b.toNat : Int) = ((s.dec.prev.b.toNat : Int) + ((bb.toNat : Int) - 2)) % 256 ∧
      t.dec.prev.a = s.dec.prev.a ∧ t.dec.outCount = s.dec.outCount + 1 ∧
      t.dec.op = .none ∧ t.dec.argc = 0 ∧
      t.dec.state = stateAfter 1 .op s.dec ∧ t.dec.errCause = causeAfter 1 s.dec

/-- R151, R85, R92, R153, R154: LUMA adds `dg` to green, and `dg` with the nibble's own delta to red and blue,
modulo 256, and keeps alpha. -/
def Obligations.LumaAddsGreenBasedDeltas : Prop :=
  ∀ (g : BitVec 6) (rrrr bbbb : BitVec 4) (s : State),
    ∃ t, exec (.luma g rrrr bbbb) s = .next t ∧
      memRead t.mem.rasterOut s.dec.outCount.toNat = some t.dec.prev ∧
      lookup t.dec.cache (pixelHash t.dec.prev) = t.dec.prev ∧
      (t.dec.prev.r.toNat : Int) =
        ((s.dec.prev.r.toNat : Int) + (((rrrr.toNat : Int) - 8) + ((g.toNat : Int) - 32))) % 256 ∧
      (t.dec.prev.g.toNat : Int) = ((s.dec.prev.g.toNat : Int) + ((g.toNat : Int) - 32)) % 256 ∧
      (t.dec.prev.b.toNat : Int) =
        ((s.dec.prev.b.toNat : Int) + (((bbbb.toNat : Int) - 8) + ((g.toNat : Int) - 32))) % 256 ∧
      t.dec.prev.a = s.dec.prev.a ∧ t.dec.outCount = s.dec.outCount + 1 ∧
      t.dec.op = .none ∧ t.dec.argc = 0 ∧
      t.dec.state = stateAfter 1 .op s.dec ∧ t.dec.errCause = causeAfter 1 s.dec

/-- R148, R154: a RUN that fits gives `l + 1` copies of the previous pixel, and leaves the cache, `prev` and the
opcode registers alone. -/
def Obligations.RunRepeatsPreviousPixel : Prop :=
  ∀ (l : BitVec 6) (s : State),
    s.dec.outCount.toNat + (l.toNat + 1) ≤ s.dec.npix.toNat →
    ∃ t, exec (.run l) s = .next t ∧
      (∀ k, k < l.toNat + 1 → memRead t.mem.rasterOut (s.dec.outCount.toNat + k) = some s.dec.prev) ∧
      t.dec.outCount.toNat = s.dec.outCount.toNat + (l.toNat + 1) ∧
      t.dec.cache = s.dec.cache ∧ t.dec.prev = s.dec.prev ∧ t.dec.op = s.dec.op ∧ t.dec.argc = s.dec.argc ∧
      t.dec.state = stateAfter (l.toNat + 1) s.dec.state s.dec ∧ t.dec.errCause = causeAfter (l.toNat + 1) s.dec

/-- R148, R182: a RUN that would pass the pixel count raises `FMT_RUN_OVERRUN` with nothing emitted: the cause and
the state are written and nothing else changes. -/
def Obligations.RunOverrunRaisesBeforeEmitting : Prop :=
  ∀ (l : BitVec 6) (s : State),
    s.dec.npix.toNat < s.dec.outCount.toNat + (l.toNat + 1) →
    exec (.run l) s = .next { s with dec := { s.dec with errCause := .fmtRunOverrun, state := .error } }

/-- R154, R183: an opcode that completes the pass with bytes left over has emitted its own pixels, which stay in
RASTER_OUT, and `prev` is that pixel; it then raises `FMT_TRAILING_BYTES`. -/
def Obligations.TrailingBytesRaiseAfterLastPixel : Prop :=
  ∀ (i : Instr) (s : State) (n : Nat),
    (n = match i with | .run l => l.toNat + 1 | _ => 1) →
    s.dec.outCount.toNat + n = s.dec.npix.toNat → s.dec.inPos ≠ s.dec.inLen →
    ∃ t, exec i s = .next t ∧ t.dec.state = .error ∧ t.dec.errCause = .fmtTrailingBytes ∧
      t.dec.outCount = s.dec.npix ∧ t.dec.inPos = s.dec.inPos ∧
      t.dec.prev = opcodePixel i s.dec ∧
      (∀ k, k < n → memRead t.mem.rasterOut (s.dec.outCount.toNat + k) = some (opcodePixel i s.dec))

/-- The frame of the five opcodes that end in FinishPixel (R153): beside the pixel emitted, the slot of that pixel's
hash, `prev`, `out_count`, `op`, `argc`, and `state` with `err_cause` (R154), nothing changes; `err_cause` changes
only to `FMT_TRAILING_BYTES`. -/
def Obligations.PixelOpcodesFrame : Prop :=
  ∀ (i : Instr) (s t : State), (∀ l, i ≠ .run l) → exec i s = .next t →
    OnlyDecoder s t ∧ OpcodeKeeps s.dec t.dec ∧
      (∀ slot, slot ≠ pixelHash t.dec.prev → lookup t.dec.cache slot = lookup s.dec.cache slot) ∧
      (∀ a, a ≠ s.dec.outCount.toNat → memRead t.mem.rasterOut a = memRead s.mem.rasterOut a) ∧
      (t.dec.errCause = s.dec.errCause ∨ t.dec.errCause = .fmtTrailingBytes ∧ t.dec.state = .error)

/-- The frame of RUN (R148): beside the pixels emitted, `out_count`, and `state` with `err_cause`, nothing changes;
a run that overruns emits nothing. -/
def Obligations.RunOpcodeFrame : Prop :=
  ∀ (l : BitVec 6) (s t : State), exec (.run l) s = .next t →
    OnlyDecoder s t ∧ OpcodeKeeps s.dec t.dec ∧
      t.dec.cache = s.dec.cache ∧ t.dec.prev = s.dec.prev ∧ t.dec.op = s.dec.op ∧ t.dec.argc = s.dec.argc ∧
      (∀ a, a < s.dec.outCount.toNat ∨ s.dec.outCount.toNat + (l.toNat + 1) ≤ a →
        memRead t.mem.rasterOut a = memRead s.mem.rasterOut a) ∧
      (t.dec.errCause = s.dec.errCause ∨
        t.dec.errCause = .fmtTrailingBytes ∧ t.dec.state = .error ∨
        t.dec.errCause = .fmtRunOverrun ∧ t.dec.state = .error ∧ t.mem = s.mem ∧
          t.dec.outCount = s.dec.outCount)

/-! ## DEC's steps -/

/-- R145, R152: DEC's turn reads one byte. When that byte completes an opcode, the step is what the opcode does in the
state with the byte read, and the sink may then take what was emitted (R43); when operands are still to come, the
byte is kept. -/
def Obligations.StepRunsTheDecodedOpcode : Prop :=
  ∀ (s : State) (moves : List Move) (v : Byte),
    s.agenda = .turn .dec :: moves → decPxValid s = false → s.dec.inPos.toNat < s.dec.inLen.toNat →
    offeredByte s = some v →
    (∀ i, s.dec.state = .op → decode [v] = .ok (i, []) →
      step s = mapNext drainPixels (exec i (consumeByte { s with agenda := moves }))) ∧
    (s.dec.state = .op → decode [v] = .error .truncated →
      step s = .next (openOpcode v (consumeByte { s with agenda := moves }))) ∧
    (∀ i, s.dec.state = .arg →
      operandsComplete (takeOperand v (consumeByte s)).dec = true →
      decode (collectedBytes (takeOperand v (consumeByte s)).dec) = .ok (i, []) →
      step s = mapNext drainPixels (exec i (takeOperand v (consumeByte { s with agenda := moves })))) ∧
    (s.dec.state = .arg → operandsComplete (takeOperand v (consumeByte s)).dec = false →
      step s = .next (takeOperand v (consumeByte { s with agenda := moves })))

/-- R29, R81, R157: an opcode of k bytes takes k of DEC's turns, and what they do together is what the opcode does in
the state with its k bytes read: `in_pos` has advanced by k, and neither the pixel registers nor the streams have
changed before the last byte. -/
def Obligations.OpcodeRunsOverItsLength : Prop :=
  ∀ (i : Instr) (s u : State) (moves : List Move), i.wellFormed = true → s.dec.state = .op →
    s.agenda = List.replicate (encode i).length (.turn .dec) ++ moves →
    decPxValid s = false → s.ports.decInValid = true →
    s.dec.inPos.toNat + (encode i).length ≤ s.dec.inLen.toNat →
    (∀ k, k < (encode i).length → memRead s.mem.bytesIn (s.dec.inPos.toNat + k) = (encode i)[k]?) →
    u = readOpcode (encode i) { s with agenda := moves } →
    Host.Core.run Sys2Proof.core (encode i).length s = mapNext drainPixels (exec i u) ∧
      u.dec.inPos = s.dec.inPos + BitVec.ofNat 32 (encode i).length ∧
      u.dec.prev = s.dec.prev ∧ u.dec.cache = s.dec.cache ∧ u.dec.outCount = s.dec.outCount ∧
      u.dec.npix = s.dec.npix ∧ u.dec.inLen = s.dec.inLen ∧ u.mem = s.mem ∧
      OnlyDecoder { s with agenda := moves } u

/-- R140, R201: DEC's start step sets every register a pass uses, whatever DEC held, and reads no byte. -/
def Obligations.DecodeStartSetsThePass : Prop :=
  ∀ (s : State) (moves : List Move), s.agenda = .turn .dec :: moves → s.ports.decStart = true →
    s.dec.state.busy = false → decPxValid s = false →
    ∃ t, step s = .next t ∧
      t.dec.inLen = s.ports.decInLen ∧ t.dec.inPos = 0 ∧ t.dec.outCount = 0 ∧ t.dec.npix = 0 ∧
      t.dec.width = 0 ∧ t.dec.height = 0 ∧ t.dec.channels = 0 ∧ t.dec.colorspace = 0 ∧
      (∀ k (h : k < 14), t.dec.hdr[k] = 0) ∧ t.dec.op = .none ∧ t.dec.opByte = 0 ∧ t.dec.argc = 0 ∧
      (∀ k (h : k < 4), t.dec.arg[k] = 0) ∧ t.dec.errCause = .none ∧
      (∀ slot, lookup t.dec.cache slot = .black) ∧ t.dec.prev = .black ∧ t.dec.state = .hdr ∧
      t.enc = s.enc ∧ t.mem.bytesIn = s.mem.bytesIn ∧ t.pixelSink = s.pixelSink

/-- R64, R65, R142, R143, R144: fourteen turns in `HDR` read a header. A good magic with good dimensions leaves DEC in
`OP` at offset 14 with the big-endian fields; channels and colorspace are recorded and never checked; bad
dimensions raise `FMT_BAD_DIMS`. -/
def Obligations.HeaderIsReadInFourteenSteps : Prop :=
  ∀ (s : State) (moves : List Move) (w h : Word) (chans space : Byte) (bs : List Byte),
    bs = be32 Config.magic ++ be32 w ++ be32 h ++ [chans, space] →
    s.dec.state = .hdr → s.dec.inPos = 0 → 14 ≤ s.dec.inLen.toNat →
    s.agenda = List.replicate 14 (.turn .dec) ++ moves → decPxValid s = false → s.ports.decInValid = true →
    (∀ k, k < 14 → memRead s.mem.bytesIn k = bs[k]?) →
    ∃ t, Host.Core.run Sys2Proof.core 14 s = .next t ∧
      t.dec.inPos = 14 ∧ t.dec.width = w ∧ t.dec.height = h ∧ t.dec.channels = chans ∧ t.dec.colorspace = space ∧
      (if w = 0 ∨ h = 0 ∨ 400000000 < w.toNat * h.toNat then
        t.dec.state = .error ∧ t.dec.errCause = .fmtBadDims ∧ t.dec.npix = s.dec.npix
      else
        t.dec.state = .op ∧ t.dec.errCause = s.dec.errCause ∧ t.dec.npix.toNat = w.toNat * h.toNat) ∧
      t.dec.outCount = s.dec.outCount ∧ t.mem = s.mem

/-- R143, R184: the step that reads the fourth header byte raises `FMT_BAD_MAGIC` when the four bytes are not the
magic; no pixel is emitted, and `in_pos` is 4. -/
def Obligations.WrongMagicIsRejectedAtByteThree : Prop :=
  ∀ (s : State) (moves : List Move) (v : Byte),
    s.agenda = .turn .dec :: moves → s.dec.state = .hdr → s.dec.inPos = 3 → 3 < s.dec.inLen.toNat →
    decPxValid s = false → offeredByte s = some v →
    bigEndian32 s.dec.hdr[0] s.dec.hdr[1] s.dec.hdr[2] v ≠ Config.magic →
    ∃ t, step s = .next t ∧ t.dec.state = .error ∧ t.dec.errCause = .fmtBadMagic ∧ t.dec.inPos = 4 ∧
      t.dec.outCount = s.dec.outCount ∧ t.mem = s.mem ∧
      t.dec.hdr[0] = s.dec.hdr[0] ∧ t.dec.hdr[1] = s.dec.hdr[1] ∧ t.dec.hdr[2] = s.dec.hdr[2] ∧ t.dec.hdr[3] = v

/-- R141, R182, R184: a busy DEC at the end of its input raises `FMT_TRUNCATED` on its turn, whether or not the host
offers a byte, and nothing but the cause and the state changes. -/
def Obligations.TruncationIsRaisedBeforeAnyByteCheck : Prop :=
  ∀ (s : State) (moves : List Move),
    s.agenda = .turn .dec :: moves → s.dec.state.busy = true → s.dec.inPos = s.dec.inLen → decPxValid s = false →
    step s = .next { s with
      agenda := moves
      dec := { s.dec with errCause := .fmtTruncated, state := .error } }

/-- R43, R208: a busy DEC short of the end of its input waits while the byte at `in_pos` is not offered, and an active
ENC waits while the pixel at `px_pos` is not offered: the turn changes nothing.
An element that is not listed is not offered, which is the model's reading (notes/assumptions/6.md). -/
def Obligations.AgentsWaitForInput : Prop :=
  (∀ (s : State) (moves : List Move), s.agenda = .turn .dec :: moves → s.dec.state.busy = true →
    s.dec.inPos ≠ s.dec.inLen → decPxValid s = false → offeredByte s = none →
    step s = .next { s with agenda := moves }) ∧
  (∀ (s : State) (moves : List Move), s.agenda = .turn .enc :: moves → s.enc.state = .active →
    encOutValid s = false → offeredPixel s = none →
    step s = .next { s with agenda := moves })

/-- R43, R207: an agent whose output is not taken holds: its turn changes nothing while the sink is not ready. No step,
whatever it is, moves an item to a sink that is not ready.
That a start step, too, waits for output not taken is read from R43 (notes/assumptions/7.md). -/
def Obligations.AgentsHoldUnderBackPressure : Prop :=
  (∀ (s : State) (moves : List Move), s.agenda = .turn .dec :: moves → decPxValid s = true →
    s.ports.decPxReady = false → step s = .next { s with agenda := moves }) ∧
  (∀ (s : State) (moves : List Move), s.agenda = .turn .enc :: moves → encOutValid s = true →
    s.ports.encOutReady = false → step s = .next { s with agenda := moves }) ∧
  (∀ s t : State, step s = .next t →
    (s.ports.encOutReady = false → t.byteSink = s.byteSink) ∧
    (s.ports.decPxReady = false → t.pixelSink = s.pixelSink))

/-- R204, R46, R205: while an agent is busy, its start request and its configuration inputs have no effect: with any
other values on those ports the step does the same. -/
def Obligations.StartWhileBusyIsIgnored : Prop :=
  (∀ (s : State) (b : Bool) (len : Word), s.dec.state.busy = true →
    decTurn { s with ports := { s.ports with decStart := b, decInLen := len } } =
      mapNext (fun t => { t with ports := { t.ports with decStart := b, decInLen := len } }) (decTurn s)) ∧
  (∀ (s : State) (b : Bool) (w h : Word), s.enc.state.busy = true →
    encTurn { s with ports := { s.ports with encStart := b, encWidth := w, encHeight := h } } =
      { encTurn s with
        ports := { (encTurn s).ports with encStart := b, encWidth := w, encHeight := h } })

/-- R155: DEC never runs for ever. From a state of a pass with every remaining byte offered, a sink that takes every
pixel, and no start request pending, `in_len - in_pos + 1` or more turns of DEC lead to `DONE` or `ERROR` and stay
there. A start request left pending would begin the next pass. -/
def Obligations.DecodePassEnds : Prop :=
  ∀ (s : State) (n : Nat) (moves : List Move), DecInv s.dec → s.dec.state.busy = true →
    s.ports.decInValid = true → s.ports.decPxReady = true →
    (∀ k, s.dec.inPos.toNat ≤ k → k < s.dec.inLen.toNat → memRead s.mem.bytesIn k ≠ none) →
    s.dec.inLen.toNat - s.dec.inPos.toNat + 1 ≤ n → s.ports.decStart = false →
    s.agenda = List.replicate n (.turn .dec) ++ moves →
    ∃ t, Host.Core.run Sys2Proof.core n s = .next t ∧ (t.dec.state = .done ∨ t.dec.state = .error)

/-! ## Errors, flags and reset -/

/-- R182: error entry writes the agent's cause and state and changes nothing else. -/
def Obligations.RaiseWritesCauseAndStateOnly : Prop :=
  ∀ (c : Cause) (s : State),
    (raise .enc c s).enc.errCause = c ∧ (raise .enc c s).enc.state = .error ∧
    raise .enc c s = { s with enc := { s.enc with errCause := c, state := .error } } ∧
    (raise .dec c s).dec.errCause = c ∧ (raise .dec c s).dec.state = .error ∧
    raise .dec c s = { s with dec := { s.dec with errCause := c, state := .error } }

/-- R185: DEC leaves `ERROR` only by a start step, which clears the cause, or by a hardware reset; ENC likewise, where
a start step that fails is again in `ERROR`. -/
def Obligations.ErrorIsLeftOnlyByStartOrReset : Prop :=
  (∀ s t, step s = .next t → s.dec.state = .error → t.dec ≠ s.dec →
    (s.ports.decStart = true ∧ t.dec.state = .hdr ∧ t.dec.errCause = .none) ∨
    (∃ e moves, s.agenda = .rst e true :: moves ∧ t.dec.state = .idle ∧ t.dec.errCause = .none)) ∧
  (∀ s t, step s = .next t → s.enc.state = .error → t.enc ≠ s.enc →
    (s.ports.encStart = true ∧
      (t.enc.state = .active ∧ t.enc.errCause = .none ∨
        t.enc.state = .error ∧ (t.enc.errCause = .preZeroDim ∨ t.enc.errCause = .preTooManyPixels))) ∨
    (∃ d moves, s.agenda = .rst true d :: moves ∧ t.enc.state = .idle ∧ t.enc.errCause = .none))

/-- R44, R45: each status flag is 1 exactly in its states, so at most one of the three is 1 and all are 0 in `IDLE`; the
error kind is the function of the cause code that R45 gives, and the ports show both. -/
def Obligations.StatusFlagsFollowTheState : Prop :=
  (∀ s : State,
    ((encOutputs s).busy.toNat + (encOutputs s).done.toNat + (encOutputs s).error.toNat =
      if s.enc.state = .idle then 0 else 1) ∧
    ((decOutputs s).busy.toNat + (decOutputs s).done.toNat + (decOutputs s).error.toNat =
      if s.dec.state = .idle then 0 else 1) ∧
    (encOutputs s).errKind = errKind s.enc.errCause ∧ (decOutputs s).errKind = errKind s.dec.errCause ∧
    (encOutputs s).errCause = s.enc.errCause.code ∧ (decOutputs s).errCause = s.dec.errCause.code ∧
    ((encOutputs s).done = true ↔ s.enc.state = .done) ∧ ((encOutputs s).error = true ↔ s.enc.state = .error) ∧
    ((decOutputs s).done = true ↔ s.dec.state = .done) ∧ ((decOutputs s).error = true ↔ s.dec.state = .error) ∧
    ((encOutputs s).busy = true ↔ s.enc.state = .active) ∧
    ((decOutputs s).busy = true ↔ s.dec.state = .hdr ∨ s.dec.state = .op ∨ s.dec.state = .arg)) ∧
  (∀ c : Cause,
    (errKind c = 0 ↔ c.code = 0) ∧ (errKind c = 1 ↔ 3 ≤ c.code.toNat ∧ c.code.toNat ≤ 7) ∧
    (errKind c = 2 ↔ c.code = 1 ∨ c.code = 2) ∧ errKind c ≠ 3 ∧ c.code.toNat < 8)

/-- R49: the registers of both agents after hardware reset, the caches apart, and the empty output streams. -/
def Obligations.ResetLeavesTheGivenValues : Prop :=
  ∀ s : State, s = State.reset →
    s.enc.state = .idle ∧ s.enc.width = 0 ∧ s.enc.height = 0 ∧ s.enc.npix = 0 ∧ s.enc.pxPos = 0 ∧
    s.enc.outCount = 0 ∧ s.enc.prev = ⟨0, 0, 0, 255⟩ ∧ s.enc.run = 0 ∧ s.enc.errCause = .none ∧
    s.dec.state = .idle ∧ s.dec.inLen = 0 ∧ s.dec.inPos = 0 ∧ (∀ k (h : k < 14), s.dec.hdr[k] = 0) ∧
    s.dec.width = 0 ∧ s.dec.height = 0 ∧ s.dec.channels = 0 ∧ s.dec.colorspace = 0 ∧ s.dec.npix = 0 ∧
    s.dec.outCount = 0 ∧ s.dec.op = .none ∧ s.dec.opByte = 0 ∧ s.dec.argc = 0 ∧
    (∀ k (h : k < 4), s.dec.arg[k] = 0) ∧ s.dec.prev = ⟨0, 0, 0, 255⟩ ∧ s.dec.errCause = .none ∧
    s.mem.bytesOut = [] ∧ s.mem.rasterOut = []

/-- R200: a hardware reset of either agent, or of both, may come between any two steps. It abandons the pass of an agent
it names, empties that agent's output stream, and leaves what the sinks have taken, the other agent, and the host's
input buffers and ports as they were.
That bytes or pixels not yet taken are dropped, and that the host's side keeps its values, is the model's reading of
R49 and R200 (notes/assumptions/9.md). -/
def Obligations.HardwareResetAbandonsThePass : Prop :=
  ∀ (s : State) (e d : Bool) (moves : List Move), s.agenda = .rst e d :: moves →
    ∃ t, step s = .next t ∧
      (e = true → ∃ c, t.enc = Enc.atReset c ∧ t.mem.bytesOut = [] ∧ t.encTaken = 0) ∧
      (e = false → t.enc = s.enc ∧ t.mem.bytesOut = s.mem.bytesOut ∧ t.encTaken = s.encTaken) ∧
      (d = true → ∃ c, t.dec = Dec.atReset c ∧ t.mem.rasterOut = [] ∧ t.decTaken = 0) ∧
      (d = false → t.dec = s.dec ∧ t.mem.rasterOut = s.mem.rasterOut ∧ t.decTaken = s.decTaken) ∧
      t.byteSink = s.byteSink ∧ t.pixelSink = s.pixelSink ∧ t.ports = s.ports ∧
      t.mem.rasterIn = s.mem.rasterIn ∧ t.mem.bytesIn = s.mem.bytesIn ∧ t.agenda = moves

/-! ## ENC's steps -/

/-- R110, R111: ENC's start step with dimensions that pass sets the registers of the pass and emits the header, whose
width and height are big-endian and whose last bytes are 4 and 0. That the output of an earlier pass is gone from
BYTES_OUT is read from R60 (notes/assumptions/8.md). -/
def Obligations.EncodeStartEmitsTheHeader : Prop :=
  ∀ s : State, s.ports.encWidth ≠ 0 → s.ports.encHeight ≠ 0 →
    s.ports.encWidth.toNat * s.ports.encHeight.toNat ≤ 400000000 →
    (encStart s).enc.state = .active ∧ (encStart s).enc.width = s.ports.encWidth ∧
    (encStart s).enc.height = s.ports.encHeight ∧
    (encStart s).enc.npix.toNat = s.ports.encWidth.toNat * s.ports.encHeight.toNat ∧
    (encStart s).enc.pxPos = 0 ∧ (encStart s).enc.outCount = 14 ∧ (encStart s).enc.prev = .black ∧
    (encStart s).enc.run = 0 ∧ (encStart s).enc.errCause = .none ∧
    (∀ slot, lookup (encStart s).enc.cache slot = .black) ∧
    (encStart s).mem.bytesOut.map Prod.snd =
      be32 Config.magic ++ be32 s.ports.encWidth ++ be32 s.ports.encHeight ++ [4, 0] ∧
    (∀ k, 14 ≤ k → memRead (encStart s).mem.bytesOut k = none) ∧
    (encStart s).dec = s.dec ∧ (encStart s).byteSink = s.byteSink

/-- R110, R181, R184: a zero dimension, tested first, or more than 400,000,000 pixels by the exact product, ends the
start step in `ERROR` with its cause and no byte emitted.
That bytes of an earlier pass are gone from BYTES_OUT too is read from R60 (notes/assumptions/8.md). -/
def Obligations.EncodeStartRejectsBadDimensions : Prop :=
  ∀ s : State,
    (s.ports.encWidth = 0 ∨ s.ports.encHeight = 0 → (encStart s).enc.errCause = .preZeroDim) ∧
    (s.ports.encWidth ≠ 0 → s.ports.encHeight ≠ 0 →
      400000000 < s.ports.encWidth.toNat * s.ports.encHeight.toNat →
      (encStart s).enc.errCause = .preTooManyPixels) ∧
    ((s.ports.encWidth = 0 ∨ s.ports.encHeight = 0) ∨
        400000000 < s.ports.encWidth.toNat * s.ports.encHeight.toNat →
      (encStart s).enc.state = .error ∧ (encStart s).enc.outCount = 0 ∧ (encStart s).enc.npix = 0 ∧
      (encStart s).enc.pxPos = 0 ∧ (encStart s).enc.width = s.ports.encWidth ∧
      (encStart s).enc.height = s.ports.encHeight ∧ (encStart s).mem.bytesOut = [] ∧
      (encStart s).enc.prev = s.enc.prev ∧ (encStart s).enc.cache = s.enc.cache)

/-- R112, R43: ENC's turn with a pixel offered is the pixel step on that pixel, and the sink may then take the bytes;
with a start request and no pass running it is the start step. -/
def Obligations.EncoderTurnTakesOneStep : Prop :=
  ∀ (s : State) (moves : List Move), s.agenda = .turn .enc :: moves → encOutValid s = false →
    (∀ px, s.enc.state = .active → offeredPixel s = some px →
      step s = .next (drainBytes (encPixel px { s with agenda := moves }))) ∧
    (s.enc.state ≠ .active → s.ports.encStart = true →
      step s = .next (drainBytes (encStart { s with agenda := moves })))

/-- R113, R123, R124: a pixel equal to `prev` is coded by RUN, never by another opcode, whatever its slot holds. The
run grows by one; when it reaches 62, or at the last pixel, its byte is emitted and the run is 0. The cache and
`prev` do not change. -/
def Obligations.EncoderExtendsRun : Prop :=
  ∀ s : State, EncInv s.enc → s.enc.state = .active →
    ((encPixel s.enc.prev s).enc.prev = s.enc.prev ∧ (encPixel s.enc.prev s).enc.cache = s.enc.cache ∧
      (encPixel s.enc.prev s).enc.pxPos = s.enc.pxPos + 1) ∧
    (if s.enc.run.toNat = 61 ∨ s.enc.pxPos.toNat + 1 = s.enc.npix.toNat then
      EmitsBytes [BitVec.ofNat 8 (0xC0 + s.enc.run.toNat)] s (encPixel s.enc.prev s) ∧
        (encPixel s.enc.prev s).enc.run = 0
    else
      EmitsBytes [] s (encPixel s.enc.prev s) ∧
        (encPixel s.enc.prev s).enc.run.toNat = s.enc.run.toNat + 1)

/-- R114, R115, R122: a pixel that differs from `prev` and that its slot holds is coded by INDEX, after the byte of
any open run; the cache does not change. -/
def Obligations.EncoderCodesCacheHitAsIndex : Prop :=
  ∀ (s : State) (px : Pixel), EncInv s.enc → s.enc.state = .active → px ≠ s.enc.prev →
    lookup s.enc.cache (pixelHash px) = px →
    EmitsBytes (flushBytes s.enc ++ [BitVec.ofNat 8 (pixelHash px).toNat]) s (encPixel px s) ∧
      (encPixel px s).enc.cache = s.enc.cache ∧ (encPixel px s).enc.prev = px ∧ (encPixel px s).enc.run = 0

/-- R116, R122: a pixel that differs from `prev` and that its slot does not hold replaces what the slot held, and no
other slot changes. -/
def Obligations.EncoderStoresOnMiss : Prop :=
  ∀ (s : State) (px : Pixel), px ≠ s.enc.prev → lookup s.enc.cache (pixelHash px) ≠ px →
    (∀ slot, lookup (encPixel px s).enc.cache slot =
      if slot = pixelHash px then px else lookup s.enc.cache slot) ∧
    (encPixel px s).enc.prev = px ∧ (encPixel px s).enc.run = 0

/-- R114, R117, R118: on a miss with alpha unchanged and all three deltas in -2..1, the byte of DIFF, and `prev` is
the pixel. -/
def Obligations.EncoderCodesSmallDeltasAsDiff : Prop :=
  ∀ (s : State) (px : Pixel) (dr dg db : Int), EncInv s.enc → s.enc.state = .active → px ≠ s.enc.prev →
    lookup s.enc.cache (pixelHash px) ≠ px → px.a = s.enc.prev.a →
    dr = (px.r - s.enc.prev.r).toInt → dg = (px.g - s.enc.prev.g).toInt → db = (px.b - s.enc.prev.b).toInt →
    (-2 ≤ dr ∧ dr ≤ 1) → (-2 ≤ dg ∧ dg ≤ 1) → (-2 ≤ db ∧ db ≤ 1) →
    EmitsBytes (flushBytes s.enc ++ [BitVec.ofInt 8 (0x40 + (dr + 2) * 16 + (dg + 2) * 4 + (db + 2))])
      s (encPixel px s) ∧ (encPixel px s).enc.prev = px

/-- R114, R117, R119: on a miss with alpha unchanged, where DIFF does not fit, `dg` in -32..31 and both green-based
deltas in -8..7, the two bytes of LUMA, and `prev` is the pixel. -/
def Obligations.EncoderCodesGreenBasedDeltasAsLuma : Prop :=
  ∀ (s : State) (px : Pixel) (dr dg db drg dbg : Int), EncInv s.enc → s.enc.state = .active → px ≠ s.enc.prev →
    lookup s.enc.cache (pixelHash px) ≠ px → px.a = s.enc.prev.a →
    dr = (px.r - s.enc.prev.r).toInt → dg = (px.g - s.enc.prev.g).toInt → db = (px.b - s.enc.prev.b).toInt →
    drg = ((px.r - s.enc.prev.r) - (px.g - s.enc.prev.g)).toInt →
    dbg = ((px.b - s.enc.prev.b) - (px.g - s.enc.prev.g)).toInt →
    ¬((-2 ≤ dr ∧ dr ≤ 1) ∧ (-2 ≤ dg ∧ dg ≤ 1) ∧ (-2 ≤ db ∧ db ≤ 1)) →
    (-32 ≤ dg ∧ dg ≤ 31) → (-8 ≤ drg ∧ drg ≤ 7) → (-8 ≤ dbg ∧ dbg ≤ 7) →
    EmitsBytes
      (flushBytes s.enc ++ [BitVec.ofInt 8 (0x80 + (dg + 32)), BitVec.ofInt 8 ((drg + 8) * 16 + (dbg + 8))])
      s (encPixel px s) ∧ (encPixel px s).enc.prev = px

/-- R114, R117, R120: on a miss with alpha unchanged where neither range test holds, the four bytes of RGB,
and `prev` is the pixel. -/
def Obligations.EncoderFallsBackToRgb : Prop :=
  ∀ (s : State) (px : Pixel) (dr dg db drg dbg : Int), EncInv s.enc → s.enc.state = .active → px ≠ s.enc.prev →
    lookup s.enc.cache (pixelHash px) ≠ px → px.a = s.enc.prev.a →
    dr = (px.r - s.enc.prev.r).toInt → dg = (px.g - s.enc.prev.g).toInt → db = (px.b - s.enc.prev.b).toInt →
    drg = ((px.r - s.enc.prev.r) - (px.g - s.enc.prev.g)).toInt →
    dbg = ((px.b - s.enc.prev.b) - (px.g - s.enc.prev.g)).toInt →
    ¬((-2 ≤ dr ∧ dr ≤ 1) ∧ (-2 ≤ dg ∧ dg ≤ 1) ∧ (-2 ≤ db ∧ db ≤ 1)) →
    ¬((-32 ≤ dg ∧ dg ≤ 31) ∧ (-8 ≤ drg ∧ drg ≤ 7) ∧ (-8 ≤ dbg ∧ dbg ≤ 7)) →
    EmitsBytes (flushBytes s.enc ++ [0xFE, px.r, px.g, px.b]) s (encPixel px s) ∧ (encPixel px s).enc.prev = px

/-- R114, R121: on a miss with alpha changed, by however little, the five bytes of RGBA, and `prev` is the
pixel. -/
def Obligations.EncoderCodesAlphaChangeAsRgba : Prop :=
  ∀ (s : State) (px : Pixel), EncInv s.enc → s.enc.state = .active → px ≠ s.enc.prev →
    lookup s.enc.cache (pixelHash px) ≠ px → px.a ≠ s.enc.prev.a →
    EmitsBytes (flushBytes s.enc ++ [0xFF, px.r, px.g, px.b, px.a]) s (encPixel px s) ∧
      (encPixel px s).enc.prev = px

/-- R112, R123: the frame of a pixel step. Only ENC's output, `px_pos`, `out_count`, `prev`, `run`, the cache and, at
the last pixel, the state change. -/
def Obligations.PixelStepFrame : Prop :=
  ∀ (s : State) (px : Pixel),
    OnlyEncoder s (encPixel px s) ∧
    (encPixel px s).enc.width = s.enc.width ∧ (encPixel px s).enc.height = s.enc.height ∧
    (encPixel px s).enc.npix = s.enc.npix ∧ (encPixel px s).enc.errCause = s.enc.errCause ∧
    (encPixel px s).enc.pxPos = s.enc.pxPos + 1 ∧
    (encPixel px s).enc.state = (if s.enc.pxPos + 1 = s.enc.npix then .done else s.enc.state)

/-- R127, R129: a pixel step of a pass emits at most six bytes. -/
def Obligations.PixelStepEmitsAtMostSixBytes : Prop :=
  ∀ (s : State) (px : Pixel), EncInv s.enc → s.enc.state = .active →
    ∃ bs : List Byte, bs.length ≤ 6 ∧ EmitsBytes bs s (encPixel px s)

/-- R126, R201: what a start step leaves depends on the ports alone: two machines with the same ports, whatever their
registers and caches held before, have the same ENC and the same output after a start that passes, and the same DEC
after any start. That no output of an earlier pass is left in the streams is read from R60
(notes/assumptions/8.md). -/
def Obligations.StartForgetsEarlierPasses : Prop :=
  ∀ s s' : State, s.ports = s'.ports →
    (s.ports.encWidth ≠ 0 → s.ports.encHeight ≠ 0 →
      s.ports.encWidth.toNat * s.ports.encHeight.toNat ≤ 400000000 →
      (encStart s).enc = (encStart s').enc ∧ (encStart s).mem.bytesOut = (encStart s').mem.bytesOut) ∧
    (decStart s).dec = (decStart s').dec ∧ (decStart s).mem.rasterOut = (decStart s').mem.rasterOut

/-! ## The whole machine -/

/-- R107, per pixel: with equal caches and equal `prev`, the bytes ENC emits for a pixel that differs from `prev` are
one opcode, which DEC runs to that very pixel, and caches and `prev` are equal again. -/
def Obligations.DecoderKeepsLockStepWithEncoder : Prop :=
  ∀ (s : State) (px : Pixel), px ≠ s.enc.prev → s.enc.run = 0 → s.enc.outCount.toNat + 5 < 2 ^ 32 →
    s.dec.cache = s.enc.cache → s.dec.prev = s.enc.prev →
    ∃ i t, i.wellFormed = true ∧ (∀ l, i ≠ .run l) ∧ EmitsBytes (encode i) s (encPixel px s) ∧
      exec i s = .next t ∧
      memRead t.mem.rasterOut s.dec.outCount.toNat = some px ∧
      t.dec.prev = (encPixel px s).enc.prev ∧ t.dec.cache = (encPixel px s).enc.cache

/-- R128: the round trip. ENC's start step and one pixel step for each pixel of a raster that passes R110 end in
`DONE`. DEC, started on the bytes that left ENC, with their count as its input length and a sink that takes every
pixel, ends in `DONE` after one turn for the start and one for each byte, with the raster's dimensions and exactly its
pixels, in order. The turns and the sink's list are the model's (notes/assumptions/5.md, 7.md), and that RASTER_OUT
holds this pass's pixels only is read from R60 (notes/assumptions/8.md). -/
def Obligations.DecodeOfEncodeIsTheRaster : Prop :=
  ∀ (s e d : State) (pixels : List Pixel) (moves : List Move),
    s.ports.encWidth ≠ 0 → s.ports.encHeight ≠ 0 →
    s.ports.encWidth.toNat * s.ports.encHeight.toNat ≤ 400000000 →
    pixels.length = s.ports.encWidth.toNat * s.ports.encHeight.toNat →
    e = pixels.foldl (fun u p => encPixel p u) (encStart s) →
    e.enc.state = .done ∧
    (d.mem.bytesIn = e.mem.bytesOut → d.dec.state.busy = false → decPxValid d = false →
      d.ports.decStart = true → d.ports.decInLen = e.enc.outCount → d.ports.decInValid = true →
      d.ports.decPxReady = true →
      d.agenda = List.replicate (e.enc.outCount.toNat + 1) (.turn .dec) ++ moves →
      ∃ t, Host.Core.run Sys2Proof.core (e.enc.outCount.toNat + 1) d = .next t ∧
        t.dec.state = .done ∧ t.dec.errCause = .none ∧
        t.dec.width = s.ports.encWidth ∧ t.dec.height = s.ports.encHeight ∧
        t.pixelSink = d.pixelSink ++ pixels ∧ t.agenda = moves ∧
        ∀ k, memRead t.mem.rasterOut k = pixels[k]?)

/-- R125: `m` pixels equal to `prev`, with no run open before them, are coded as `floor(m/62)` bytes `0xFD` and, for a
rest, one byte `0xC0 + (m mod 62) - 1`, whether the pass ends with them or a pixel that differs follows, whose own
opcode, never RUN, comes after those bytes. Where the first of the `m` pixels differs from `prev`, it is coded by an
opcode other than RUN, and the remaining `m - 1` form the run. -/
def Obligations.RunBoundary : Prop :=
  ∀ (s : State) (m : Nat), EncInv s.enc → s.enc.state = .active →
    (s.enc.run = 0 → 0 < m → s.enc.pxPos.toNat + m = s.enc.npix.toNat →
      EmitsBytes (runBytes m) s ((List.replicate m s.enc.prev).foldl (fun u p => encPixel p u) s)) ∧
    (∀ px, s.enc.run = 0 → px ≠ s.enc.prev → s.enc.pxPos.toNat + m < s.enc.npix.toNat →
      ∃ i : Instr, i.wellFormed = true ∧ (∀ l, i ≠ .run l) ∧
        EmitsBytes (runBytes m ++ encode i) s
          ((List.replicate m s.enc.prev ++ [px]).foldl (fun u p => encPixel p u) s)) ∧
    (∀ q, q ≠ s.enc.prev → 0 < m → s.enc.pxPos.toNat + m = s.enc.npix.toNat →
      ∃ i : Instr, i.wellFormed = true ∧ (∀ l, i ≠ .run l) ∧
        EmitsBytes (flushBytes s.enc ++ encode i ++ runBytes (m - 1)) s
          ((List.replicate m q).foldl (fun u p => encPixel p u) s))

/-- R20, R108, R209, U14: the turns of the two agents commute: in either order the two steps end in the same state. -/
def Obligations.AgentTurnsCommute : Prop :=
  ∀ (s : State) (moves : List Move),
    Host.Core.run Sys2Proof.core 2 { s with agenda := .turn .enc :: .turn .dec :: moves } =
      Host.Core.run Sys2Proof.core 2 { s with agenda := .turn .dec :: .turn .enc :: moves }

/-- R20, R108, what a step may write: a step that is no reset leaves one of the two agents alone, with its output stream
and its sink. That a step does not read the other agent is AgentTurnDependsOnItsOwnSideOnly. -/
def Obligations.StepWritesOneAgentsSideOnly : Prop :=
  ∀ s t : State, step s = .next t → (∀ e d, s.agenda.head? ≠ some (.rst e d)) →
    (t.enc = s.enc ∧ t.mem.bytesOut = s.mem.bytesOut ∧ t.encTaken = s.encTaken ∧ t.byteSink = s.byteSink) ∨
    (t.dec = s.dec ∧ t.mem.rasterOut = s.mem.rasterOut ∧ t.decTaken = s.decTaken ∧ t.pixelSink = s.pixelSink)

/-- R20, R108, what a turn may read: the registers, streams, sink and ports of one agent after its turn depend on those
before it and on nothing of the other agent. Two machines that agree on ENC's side agree on it after ENC's turn, and
likewise DEC's, whatever the other sides hold. -/
def Obligations.AgentTurnDependsOnItsOwnSideOnly : Prop :=
  ∀ s s' : State,
    (SameEncSide s s' → SameEncSide (encTurn s) (encTurn s')) ∧
    (SameDecSide s s' → ∃ t t', decTurn s = .next t ∧ decTurn s' = .next t' ∧ SameDecSide t t')

/-- R72, R74: no step of an agent writes an input buffer or an input port. -/
def Obligations.AgentsNeverWriteTheirInput : Prop :=
  ∀ (a : Agent) (s t : State), agentTurn a s = .next t →
    t.mem.rasterIn = s.mem.rasterIn ∧ t.mem.bytesIn = s.mem.bytesIn ∧ t.ports = s.ports

/-- The machine never stops: every step answers a next state (R155 "DEC never holds for a reason other than a byte not
offered", R182, R43). -/
def Obligations.StepAlwaysAnswers : Prop :=
  ∀ s : State, ∃ t, step s = .next t

/-- The whole invariant holds at reset. Its clauses on the sinks and the model's own fields are the model's choice
(notes/assumptions/4.md, 5.md, 7.md). -/
def Obligations.ResetMeetsTheInvariant : Prop := Inv State.reset

/-- R25, R26, R106, R110, R123, R129: every step keeps the encoder's invariant. -/
def Obligations.StepKeepsEncoderInvariant : Prop :=
  ∀ s t : State, EncInv s.enc → step s = .next t → EncInv t.enc

/-- R29, R106, R144, R148, R154, R156: every step keeps the decoder's invariant. -/
def Obligations.StepKeepsDecoderInvariant : Prop :=
  ∀ s t : State, DecInv s.dec → step s = .next t → DecInv t.dec

/-- R60, R43, R207: every step keeps the streams exactly as long as the counters say, and what the sinks hold is what
was emitted, in order.
That a start leaves no index at or beyond `out_count` is read from R60 (notes/assumptions/8.md), and the sinks' lists
and their counts (notes/assumptions/7.md) and the canonical lists (notes/assumptions/20.md) are the model's. -/
def Obligations.StepKeepsStreamsAndSinks : Prop :=
  ∀ s t : State, Inv s → step s = .next t → StreamInv t ∧ SinkInv t
end

