-- ==== Sys2Proof/Laws/Cache.lean ====
section
/-! SUPPORT. What the cache operations of Machine/Ops.lean do (spec/40_pixel_cache.md). -/

namespace Sys2Proof.Machine

/-- R104, R103: a store changes its own slot and no other. -/
theorem lookup_store (cache : Cache) (slot : BitVec 6) (p : Pixel) (slot' : BitVec 6) :
    lookup (store cache slot p) slot' = if slot' = slot then p else lookup cache slot' := by
  unfold lookup store
  by_cases h : slot' = slot
  · subst h; simp
  · have hne : slot.toNat ≠ slot'.toNat := fun e => h (BitVec.eq_of_toNat_eq e.symm)
    rw [Vector.getElem_set, if_neg hne, if_neg h]

@[simp] theorem lookup_store_self (cache : Cache) (slot : BitVec 6) (p : Pixel) :
    lookup (store cache slot p) slot = p := by
  simp [lookup_store]

theorem lookup_store_other (cache : Cache) (slot : BitVec 6) (p : Pixel) (slot' : BitVec 6) (h : slot' ≠ slot) :
    lookup (store cache slot p) slot' = lookup cache slot' := by
  simp [lookup_store, h]

/-- R102: the reset fills every slot with `BLACK`. -/
@[simp] theorem lookup_cacheReset (slot : BitVec 6) : lookup cacheReset slot = .black := by
  unfold lookup cacheReset
  simp

/-- Two caches that agree on every lookup are the same cache. -/
theorem Cache.ext_lookup {cache cache' : Cache} (h : ∀ slot, lookup cache slot = lookup cache' slot) :
    cache = cache' := by
  apply Vector.ext
  intro k hk
  have hs := h (BitVec.ofNat 6 k)
  have hm : k % 64 = k := Nat.mod_eq_of_lt hk
  simpa [lookup, hm] using hs

/-- Storing what a slot already holds changes nothing (R149 (b)). -/
theorem store_lookup_self (cache : Cache) (slot : BitVec 6) : store cache slot (lookup cache slot) = cache :=
  Cache.ext_lookup fun slot' => by
    rw [lookup_store]; split_ifs with h
    · rw [h]
    · rfl

/-- R106: the reset cache is in order. -/
theorem cacheOk_cacheReset : cacheOk cacheReset := fun slot => .inl (lookup_cacheReset slot)

/-- R106: every store at a pixel's own slot keeps the cache in order. -/
theorem cacheOk_store (cache : Cache) (p : Pixel) (h : cacheOk cache) : cacheOk (store cache (pixelHash p) p) := by
  intro slot
  rw [lookup_store]
  split_ifs with hs
  · exact .inr hs.symm
  · exact h slot

end Sys2Proof.Machine
end

