-- ==== Sys2Proof/Laws/Decode.lean ====
section
/-! SUPPORT. The bit fields of an opcode's first byte and of LUMA's second byte, put together and taken apart
(spec/30_encoding.md R83 to R86): each fact is about at most 256 values and is checked on all of them. -/

namespace Sys2Proof

theorem tagOf_tagged : ∀ (t : BitVec 2) (x : BitVec 6), tagOf (tagged t x) = t := by decide

theorem low6_tagged : ∀ (t : BitVec 2) (x : BitVec 6), low6 (tagged t x) = x := by decide

theorem tagged_tagOf_low6 : ∀ v : Byte, tagged (tagOf v) (low6 v) = v := by decide

/-- R82: only the tag `11` can give the bytes of RGB and RGBA. -/
theorem tagged_ne_rgb : ∀ (t : BitVec 2) (x : BitVec 6), t ≠ 0b11 → tagged t x ≠ 0xFF ∧ tagged t x ≠ 0xFE := by
  decide

/-- R86: a RUN of field 0..61 has neither the byte of RGB nor that of RGBA. -/
theorem tagged_run_ne_rgb : ∀ l : BitVec 6, l.toNat ≤ 61 → tagged 0b11 l ≠ 0xFF ∧ tagged 0b11 l ≠ 0xFE := by
  decide

/-- R82: the RUN tag covers the first bytes 0xC0 to 0xFD only. -/
theorem low6_le_of_run : ∀ v : Byte, v ≠ 0xFF → v ≠ 0xFE → tagOf v = 0b11 → (low6 v).toNat ≤ 61 := by
  decide

theorem tag_cases : ∀ t : BitVec 2, t = 0b00 ∨ t = 0b01 ∨ t = 0b10 ∨ t = 0b11 := by decide

theorem highNibble_append : ∀ a b : BitVec 4, highNibble (a ++ b) = a := by decide

theorem lowNibble_append : ∀ a b : BitVec 4, lowNibble (a ++ b) = b := by decide

theorem nibbles_append : ∀ v : Byte, (highNibble v ++ lowNibble v : BitVec 8) = v := by decide

/-- R84: the three fields of a DIFF byte. -/
theorem diffFields_tagged : ∀ a b d : BitVec 2,
    (tagged 0b01 (a ++ b ++ d)).extractLsb' 4 2 = a ∧ (tagged 0b01 (a ++ b ++ d)).extractLsb' 2 2 = b ∧
      (tagged 0b01 (a ++ b ++ d)).extractLsb' 0 2 = d := by
  decide

theorem diffFields_append : ∀ v : Byte,
    (v.extractLsb' 4 2 ++ v.extractLsb' 2 2 ++ v.extractLsb' 0 2 : BitVec 6) = low6 v := by
  decide

/-! ## The decoder, one first byte at a time (R82) -/

theorem decode_rgba (r g b a : Byte) (rest : List Byte) :
    decode (0xFF :: r :: g :: b :: a :: rest) = .ok (.rgba r g b a, rest) := rfl

theorem decode_rgb (r g b : Byte) (rest : List Byte) :
    decode (0xFE :: r :: g :: b :: rest) = .ok (.rgb r g b, rest) := rfl

theorem decode_tagged_index (i : BitVec 6) (rest : List Byte) :
    decode (tagged 0b00 i :: rest) = .ok (.index i, rest) := by
  have h := tagged_ne_rgb 0b00 i (by decide)
  simp only [decode]
  rw [if_neg h.1, if_neg h.2, tagOf_tagged, low6_tagged, if_neg (by decide), if_pos rfl]

theorem decode_tagged_run (l : BitVec 6) (h : l.toNat ≤ 61) (rest : List Byte) :
    decode (tagged 0b11 l :: rest) = .ok (.run l, rest) := by
  have h := tagged_run_ne_rgb l h
  simp only [decode]
  rw [if_neg h.1, if_neg h.2, tagOf_tagged, low6_tagged, if_pos rfl]

theorem decode_tagged_diff (x y z : BitVec 2) (rest : List Byte) :
    decode (tagged 0b01 (x ++ y ++ z) :: rest) = .ok (.diff x y z, rest) := by
  have h := tagged_ne_rgb 0b01 (x ++ y ++ z) (by decide)
  have hf := diffFields_tagged x y z
  simp only [decode]
  rw [if_neg h.1, if_neg h.2, tagOf_tagged, if_neg (by decide), if_neg (by decide), if_pos rfl, hf.1, hf.2.1, hf.2.2]

theorem decode_tagged_luma (g : BitVec 6) (w : Byte) (rest : List Byte) :
    decode (tagged 0b10 g :: w :: rest) = .ok (.luma g (highNibble w) (lowNibble w), rest) := by
  have h := tagged_ne_rgb 0b10 g (by decide)
  simp only [decode]
  rw [if_neg h.1, if_neg h.2, tagOf_tagged, low6_tagged, if_neg (by decide), if_neg (by decide), if_neg (by decide)]

end Sys2Proof
end

