-- ==== Sys2Proof/Laws/Memory.lean ====
section
/-! SUPPORT. What the stream operations of Machine/Ops.lean do: reads after writes, and the canonical form. -/

namespace Sys2Proof.Machine

variable {α : Type}

@[simp] theorem memRead_nil (i : Nat) : memRead ([] : List (Nat × α)) i = none := rfl

theorem memRead_cons (k : Nat) (v : α) (m : List (Nat × α)) (i : Nat) :
    memRead ((k, v) :: m) i = if k = i then some v else memRead m i := rfl

/-- A read after a write gives the element written at its index and the old element everywhere else. -/
theorem memRead_memWrite (m : List (Nat × α)) (i : Nat) (x : α) (j : Nat) :
    memRead (memWrite m i x) j = if j = i then some x else memRead m j := by
  induction m with
  | nil => simp [memWrite, memRead, eq_comm]
  | cons c m ih =>
    obtain ⟨k, v⟩ := c
    unfold memWrite
    by_cases h1 : i < k
    · rw [if_pos h1, memRead_cons]
      by_cases hj : i = j
      · rw [if_pos hj, if_pos hj.symm]
      · rw [if_neg hj, if_neg (Ne.symm hj)]
    · rw [if_neg h1]
      by_cases h2 : i = k
      · rw [if_pos h2, memRead_cons, memRead_cons, h2]
        by_cases hj : k = j
        · rw [if_pos hj, if_pos hj.symm]
        · rw [if_neg hj, if_neg (Ne.symm hj), if_neg hj]
      · rw [if_neg h2, memRead_cons, memRead_cons, ih]
        by_cases hj : k = j
        · rw [if_pos hj, if_pos hj, if_neg (by omega)]
        · rw [if_neg hj, if_neg hj]

theorem memRead_memWrite_self (m : List (Nat × α)) (i : Nat) (x : α) : memRead (memWrite m i x) i = some x := by
  simp [memRead_memWrite]

theorem memRead_memWrite_other (m : List (Nat × α)) (i : Nat) (x : α) (j : Nat) (h : j ≠ i) :
    memRead (memWrite m i x) j = memRead m j := by
  simp [memRead_memWrite, h]

/-- A read after a fill gives the element filled in at each of its `n` indices and the old element elsewhere. -/
theorem memRead_memFill (m : List (Nat × α)) (base : Nat) (x : α) (n j : Nat) :
    memRead (memFill m base x n) j = if base ≤ j ∧ j < base + n then some x else memRead m j := by
  induction n with
  | zero => rw [memFill, if_neg (by omega)]
  | succ n ih =>
    rw [memFill, memRead_memWrite, ih]
    split_ifs <;> first | rfl | omega

theorem memFill_one (m : List (Nat × α)) (base : Nat) (x : α) : memFill m base x 1 = memWrite m base x := rfl

/-! ## Canonical form -/

/-- An index below which the first cell of a list does not lie. -/
def memAbove (b : Nat) (m : List (Nat × α)) : Prop := ∀ k v rest, m = (k, v) :: rest → b < k

theorem memWf_cons (k : Nat) (v : α) (m : List (Nat × α)) :
    memWf ((k, v) :: m) = true ↔ memAbove k m ∧ memWf m = true := by
  cases m with
  | nil => simp [memWf, memAbove]
  | cons c m =>
    obtain ⟨j, y⟩ := c
    simp [memWf, memAbove]

theorem memAbove_memWrite (b : Nat) (m : List (Nat × α)) (i : Nat) (x : α) (h : memAbove b m) (hi : b < i) :
    memAbove b (memWrite m i x) := by
  cases m with
  | nil => intro k v rest e; simp [memWrite] at e; omega
  | cons c m =>
    obtain ⟨j, y⟩ := c
    have hj := h j y m rfl
    intro k v rest e
    simp only [memWrite] at e
    split_ifs at e <;> simp at e <;> omega

/-- A write keeps the canonical form. -/
theorem memWf_memWrite (m : List (Nat × α)) (i : Nat) (x : α) (h : memWf m = true) :
    memWf (memWrite m i x) = true := by
  induction m with
  | nil => rfl
  | cons c m ih =>
    obtain ⟨k, v⟩ := c
    have ⟨ha, hm⟩ := (memWf_cons k v m).1 h
    simp only [memWrite]
    split_ifs with h1 h2
    · exact (memWf_cons i x _).2 ⟨fun j y rest e => by simp at e; omega, h⟩
    · subst h2; exact (memWf_cons i x _).2 ⟨ha, hm⟩
    · exact (memWf_cons k v _).2 ⟨memAbove_memWrite k m i x ha (by omega), ih hm⟩

/-- A fill keeps the canonical form. -/
theorem memWf_memFill (m : List (Nat × α)) (base : Nat) (x : α) (n : Nat) (h : memWf m = true) :
    memWf (memFill m base x n) = true := by
  induction n with
  | zero => exact h
  | succ n ih => exact memWf_memWrite _ _ _ ih

theorem Memory.wf_iff (m : Memory) : m.wf = true ↔
    memWf m.rasterIn = true ∧ memWf m.bytesOut = true ∧ memWf m.bytesIn = true ∧ memWf m.rasterOut = true := by
  simp [Memory.wf, and_assoc]

/-- Reset's streams are canonical: they are empty. -/
theorem Memory.wf_reset : State.reset.mem.wf = true := rfl

/-! ## The elements from an index on -/

/-- Every index of a canonical list lies above what its first one lies above. -/
theorem lt_of_mem_of_memAbove (m : List (Nat × α)) (hm : memWf m = true) (b : Nat) (h : memAbove b m) :
    ∀ cell ∈ m, b < cell.1 := by
  induction m generalizing b with
  | nil => intro cell hc; cases hc
  | cons d m ih =>
    obtain ⟨j, y⟩ := d
    have hj := h j y m rfl
    have ⟨ha, hm'⟩ := (memWf_cons j y m).1 hm
    intro cell hc
    rcases List.mem_cons.1 hc with rfl | hc
    · exact hj
    · exact Nat.lt_trans hj (ih hm' j ha cell hc)

theorem memRead_eq_none_of_above (m : List (Nat × α)) (hm : memWf m = true) (b i : Nat) (h : memAbove b m)
    (hi : i ≤ b) : memRead m i = none := by
  induction m generalizing b with
  | nil => rfl
  | cons d m ih =>
    obtain ⟨k, v⟩ := d
    have hk := h k v m rfl
    have ⟨ha, hm'⟩ := (memWf_cons k v m).1 hm
    rw [memRead_cons, if_neg (by omega)]
    exact ih hm' k ha (by omega)

theorem memFrom_cons (k : Nat) (v : α) (m : List (Nat × α)) (base : Nat) :
    memFrom ((k, v) :: m) base = if base ≤ k then v :: memFrom m base else memFrom m base := by
  unfold memFrom
  by_cases h : base ≤ k <;> simp [h]

theorem memFrom_succ_of_above (m : List (Nat × α)) (hm : memWf m = true) (b : Nat) (h : memAbove b m) :
    memFrom m (b + 1) = memFrom m b := by
  unfold memFrom
  congr 1
  apply List.filter_congr
  intro cell hc
  have := lt_of_mem_of_memAbove m hm b h cell hc
  simp
  omega

/-- A canonical stream whose indices are exactly `a .. b-1` gives, from `base` on, its elements in order. -/
theorem memFrom_of_range (m : List (Nat × α)) (hm : memWf m = true) (a b base : Nat) (hab : a ≤ b)
    (hr : ∀ k, (memRead m k).isSome = decide (a ≤ k ∧ k < b)) (h1 : a ≤ base) (h2 : base ≤ b) :
    (memFrom m base).length = b - base ∧
      ∀ k, k < b - base → (memFrom m base)[k]? = memRead m (base + k) := by
  induction m generalizing a base with
  | nil =>
    have hb : a = b := by
      by_contra hne
      have h := hr a
      simp at h
      omega
    have : b - base = 0 := by omega
    simp [memFrom, this]
  | cons d m ih =>
    obtain ⟨i, v⟩ := d
    have ⟨ha, hm'⟩ := (memWf_cons i v m).1 hm
    have hi : a ≤ i ∧ i < b := by
      have h := hr i
      rw [memRead_cons, if_pos rfl] at h
      simpa using h.symm
    have hia : i = a := by
      by_contra hne
      have h := hr a
      rw [memRead_cons, if_neg hne, memRead_eq_none_of_above m hm' i a ha hi.1] at h
      simp at h
      omega
    subst hia
    have hr' : ∀ k, (memRead m k).isSome = decide (i + 1 ≤ k ∧ k < b) := by
      intro k
      by_cases hk : i = k
      · subst hk
        rw [memRead_eq_none_of_above m hm' i i ha (le_refl i)]
        simp
      · have h := hr k
        rw [memRead_cons, if_neg hk] at h
        rw [h]
        congr 1
        simp only [eq_iff_iff]
        omega
    rw [memFrom_cons]
    by_cases hb : base ≤ i
    · have hbi : base = i := by omega
      subst hbi
      have ih' := ih hm' (base + 1) (base + 1) (by omega) hr' (le_refl _) (by omega)
      rw [memFrom_succ_of_above m hm' base ha] at ih'
      rw [if_pos (le_refl base)]
      refine ⟨by rw [List.length_cons, ih'.1]; omega, fun k hk => ?_⟩
      cases k with
      | zero => simp [memRead_cons]
      | succ k =>
        rw [List.getElem?_cons_succ, ih'.2 k (by omega), memRead_cons, if_neg (by omega)]
        congr 1
        omega
    · rw [if_neg hb]
      have ih' := ih hm' (i + 1) base (by omega) hr' (by omega) h2
      refine ⟨ih'.1, fun k hk => ?_⟩
      rw [ih'.2 k hk, memRead_cons, if_neg (by omega)]

end Sys2Proof.Machine
end

