-- ==== Sys2Proof/Laws/State.lean ====
section
/-! SUPPORT. One lemma per field for each operation that updates the state record, so that no proof unfolds an
update again; and what each shared operation leaves alone. -/

namespace Sys2Proof.Machine

/-! ### Error entry of ENC (R182) -/

@[simp] theorem raise_enc_enc_state (c : Cause) (s : State) : (raise .enc c s).enc.state = .error := rfl
@[simp] theorem raise_enc_enc_width (c : Cause) (s : State) : (raise .enc c s).enc.width = s.enc.width := rfl
@[simp] theorem raise_enc_enc_height (c : Cause) (s : State) : (raise .enc c s).enc.height = s.enc.height := rfl
@[simp] theorem raise_enc_enc_npix (c : Cause) (s : State) : (raise .enc c s).enc.npix = s.enc.npix := rfl
@[simp] theorem raise_enc_enc_pxPos (c : Cause) (s : State) : (raise .enc c s).enc.pxPos = s.enc.pxPos := rfl
@[simp] theorem raise_enc_enc_outCount (c : Cause) (s : State) : (raise .enc c s).enc.outCount = s.enc.outCount := rfl
@[simp] theorem raise_enc_enc_prev (c : Cause) (s : State) : (raise .enc c s).enc.prev = s.enc.prev := rfl
@[simp] theorem raise_enc_enc_run (c : Cause) (s : State) : (raise .enc c s).enc.run = s.enc.run := rfl
@[simp] theorem raise_enc_enc_cache (c : Cause) (s : State) : (raise .enc c s).enc.cache = s.enc.cache := rfl
@[simp] theorem raise_enc_enc_errCause (c : Cause) (s : State) : (raise .enc c s).enc.errCause = c := rfl
@[simp] theorem raise_enc_dec (c : Cause) (s : State) : (raise .enc c s).dec = s.dec := rfl
@[simp] theorem raise_enc_mem (c : Cause) (s : State) : (raise .enc c s).mem = s.mem := rfl
@[simp] theorem raise_enc_ports (c : Cause) (s : State) : (raise .enc c s).ports = s.ports := rfl
@[simp] theorem raise_enc_encTaken (c : Cause) (s : State) : (raise .enc c s).encTaken = s.encTaken := rfl
@[simp] theorem raise_enc_decTaken (c : Cause) (s : State) : (raise .enc c s).decTaken = s.decTaken := rfl
@[simp] theorem raise_enc_byteSink (c : Cause) (s : State) : (raise .enc c s).byteSink = s.byteSink := rfl
@[simp] theorem raise_enc_pixelSink (c : Cause) (s : State) : (raise .enc c s).pixelSink = s.pixelSink := rfl
@[simp] theorem raise_enc_agenda (c : Cause) (s : State) : (raise .enc c s).agenda = s.agenda := rfl
@[simp] theorem raise_enc_turn (c : Cause) (s : State) : (raise .enc c s).turn = s.turn := rfl
@[simp] theorem raise_enc_draws (c : Cause) (s : State) : (raise .enc c s).draws = s.draws := rfl

/-! ### Error entry of DEC (R182) -/

@[simp] theorem raise_dec_enc (c : Cause) (s : State) : (raise .dec c s).enc = s.enc := rfl
@[simp] theorem raise_dec_dec_state (c : Cause) (s : State) : (raise .dec c s).dec.state = .error := rfl
@[simp] theorem raise_dec_dec_inLen (c : Cause) (s : State) : (raise .dec c s).dec.inLen = s.dec.inLen := rfl
@[simp] theorem raise_dec_dec_inPos (c : Cause) (s : State) : (raise .dec c s).dec.inPos = s.dec.inPos := rfl
@[simp] theorem raise_dec_dec_hdr (c : Cause) (s : State) : (raise .dec c s).dec.hdr = s.dec.hdr := rfl
@[simp] theorem raise_dec_dec_width (c : Cause) (s : State) : (raise .dec c s).dec.width = s.dec.width := rfl
@[simp] theorem raise_dec_dec_height (c : Cause) (s : State) : (raise .dec c s).dec.height = s.dec.height := rfl
@[simp] theorem raise_dec_dec_channels (c : Cause) (s : State) : (raise .dec c s).dec.channels = s.dec.channels := rfl
@[simp] theorem raise_dec_dec_colorspace (c : Cause) (s : State) : (raise .dec c s).dec.colorspace = s.dec.colorspace := rfl
@[simp] theorem raise_dec_dec_npix (c : Cause) (s : State) : (raise .dec c s).dec.npix = s.dec.npix := rfl
@[simp] theorem raise_dec_dec_outCount (c : Cause) (s : State) : (raise .dec c s).dec.outCount = s.dec.outCount := rfl
@[simp] theorem raise_dec_dec_op (c : Cause) (s : State) : (raise .dec c s).dec.op = s.dec.op := rfl
@[simp] theorem raise_dec_dec_opByte (c : Cause) (s : State) : (raise .dec c s).dec.opByte = s.dec.opByte := rfl
@[simp] theorem raise_dec_dec_argc (c : Cause) (s : State) : (raise .dec c s).dec.argc = s.dec.argc := rfl
@[simp] theorem raise_dec_dec_arg (c : Cause) (s : State) : (raise .dec c s).dec.arg = s.dec.arg := rfl
@[simp] theorem raise_dec_dec_prev (c : Cause) (s : State) : (raise .dec c s).dec.prev = s.dec.prev := rfl
@[simp] theorem raise_dec_dec_cache (c : Cause) (s : State) : (raise .dec c s).dec.cache = s.dec.cache := rfl
@[simp] theorem raise_dec_dec_errCause (c : Cause) (s : State) : (raise .dec c s).dec.errCause = c := rfl
@[simp] theorem raise_dec_mem (c : Cause) (s : State) : (raise .dec c s).mem = s.mem := rfl
@[simp] theorem raise_dec_ports (c : Cause) (s : State) : (raise .dec c s).ports = s.ports := rfl
@[simp] theorem raise_dec_encTaken (c : Cause) (s : State) : (raise .dec c s).encTaken = s.encTaken := rfl
@[simp] theorem raise_dec_decTaken (c : Cause) (s : State) : (raise .dec c s).decTaken = s.decTaken := rfl
@[simp] theorem raise_dec_byteSink (c : Cause) (s : State) : (raise .dec c s).byteSink = s.byteSink := rfl
@[simp] theorem raise_dec_pixelSink (c : Cause) (s : State) : (raise .dec c s).pixelSink = s.pixelSink := rfl
@[simp] theorem raise_dec_agenda (c : Cause) (s : State) : (raise .dec c s).agenda = s.agenda := rfl
@[simp] theorem raise_dec_turn (c : Cause) (s : State) : (raise .dec c s).turn = s.turn := rfl
@[simp] theorem raise_dec_draws (c : Cause) (s : State) : (raise .dec c s).draws = s.draws := rfl

/-! ### EmitByte (R13) -/

@[simp] theorem emitByte_enc_state (v : Byte) (s : State) : (emitByte v s).enc.state = s.enc.state := rfl
@[simp] theorem emitByte_enc_width (v : Byte) (s : State) : (emitByte v s).enc.width = s.enc.width := rfl
@[simp] theorem emitByte_enc_height (v : Byte) (s : State) : (emitByte v s).enc.height = s.enc.height := rfl
@[simp] theorem emitByte_enc_npix (v : Byte) (s : State) : (emitByte v s).enc.npix = s.enc.npix := rfl
@[simp] theorem emitByte_enc_pxPos (v : Byte) (s : State) : (emitByte v s).enc.pxPos = s.enc.pxPos := rfl
@[simp] theorem emitByte_enc_outCount (v : Byte) (s : State) : (emitByte v s).enc.outCount = s.enc.outCount + 1 := rfl
@[simp] theorem emitByte_enc_prev (v : Byte) (s : State) : (emitByte v s).enc.prev = s.enc.prev := rfl
@[simp] theorem emitByte_enc_run (v : Byte) (s : State) : (emitByte v s).enc.run = s.enc.run := rfl
@[simp] theorem emitByte_enc_cache (v : Byte) (s : State) : (emitByte v s).enc.cache = s.enc.cache := rfl
@[simp] theorem emitByte_enc_errCause (v : Byte) (s : State) : (emitByte v s).enc.errCause = s.enc.errCause := rfl
@[simp] theorem emitByte_dec (v : Byte) (s : State) : (emitByte v s).dec = s.dec := rfl
@[simp] theorem emitByte_mem_rasterIn (v : Byte) (s : State) : (emitByte v s).mem.rasterIn = s.mem.rasterIn := rfl
@[simp] theorem emitByte_mem_bytesOut (v : Byte) (s : State) : (emitByte v s).mem.bytesOut = memWrite s.mem.bytesOut s.enc.outCount.toNat v := rfl
@[simp] theorem emitByte_mem_bytesIn (v : Byte) (s : State) : (emitByte v s).mem.bytesIn = s.mem.bytesIn := rfl
@[simp] theorem emitByte_mem_rasterOut (v : Byte) (s : State) : (emitByte v s).mem.rasterOut = s.mem.rasterOut := rfl
@[simp] theorem emitByte_ports (v : Byte) (s : State) : (emitByte v s).ports = s.ports := rfl
@[simp] theorem emitByte_encTaken (v : Byte) (s : State) : (emitByte v s).encTaken = s.encTaken := rfl
@[simp] theorem emitByte_decTaken (v : Byte) (s : State) : (emitByte v s).decTaken = s.decTaken := rfl
@[simp] theorem emitByte_byteSink (v : Byte) (s : State) : (emitByte v s).byteSink = s.byteSink := rfl
@[simp] theorem emitByte_pixelSink (v : Byte) (s : State) : (emitByte v s).pixelSink = s.pixelSink := rfl
@[simp] theorem emitByte_agenda (v : Byte) (s : State) : (emitByte v s).agenda = s.agenda := rfl
@[simp] theorem emitByte_turn (v : Byte) (s : State) : (emitByte v s).turn = s.turn := rfl
@[simp] theorem emitByte_draws (v : Byte) (s : State) : (emitByte v s).draws = s.draws := rfl

/-! ### EmitPixel (R13, R148) -/

@[simp] theorem emitPixels_enc (n : Nat) (p : Pixel) (s : State) : (emitPixels n p s).enc = s.enc := rfl
@[simp] theorem emitPixels_dec (n : Nat) (p : Pixel) (s : State) : (emitPixels n p s).dec = s.dec := rfl
@[simp] theorem emitPixels_mem_rasterIn (n : Nat) (p : Pixel) (s : State) : (emitPixels n p s).mem.rasterIn = s.mem.rasterIn := rfl
@[simp] theorem emitPixels_mem_bytesOut (n : Nat) (p : Pixel) (s : State) : (emitPixels n p s).mem.bytesOut = s.mem.bytesOut := rfl
@[simp] theorem emitPixels_mem_bytesIn (n : Nat) (p : Pixel) (s : State) : (emitPixels n p s).mem.bytesIn = s.mem.bytesIn := rfl
@[simp] theorem emitPixels_mem_rasterOut (n : Nat) (p : Pixel) (s : State) : (emitPixels n p s).mem.rasterOut = memFill s.mem.rasterOut s.dec.outCount.toNat p n := rfl
@[simp] theorem emitPixels_ports (n : Nat) (p : Pixel) (s : State) : (emitPixels n p s).ports = s.ports := rfl
@[simp] theorem emitPixels_encTaken (n : Nat) (p : Pixel) (s : State) : (emitPixels n p s).encTaken = s.encTaken := rfl
@[simp] theorem emitPixels_decTaken (n : Nat) (p : Pixel) (s : State) : (emitPixels n p s).decTaken = s.decTaken := rfl
@[simp] theorem emitPixels_byteSink (n : Nat) (p : Pixel) (s : State) : (emitPixels n p s).byteSink = s.byteSink := rfl
@[simp] theorem emitPixels_pixelSink (n : Nat) (p : Pixel) (s : State) : (emitPixels n p s).pixelSink = s.pixelSink := rfl
@[simp] theorem emitPixels_agenda (n : Nat) (p : Pixel) (s : State) : (emitPixels n p s).agenda = s.agenda := rfl
@[simp] theorem emitPixels_turn (n : Nat) (p : Pixel) (s : State) : (emitPixels n p s).turn = s.turn := rfl
@[simp] theorem emitPixels_draws (n : Nat) (p : Pixel) (s : State) : (emitPixels n p s).draws = s.draws := rfl

/-! ### NextByte, the byte consumed (R141) -/

@[simp] theorem consumeByte_enc (s : State) : (consumeByte s).enc = s.enc := rfl
@[simp] theorem consumeByte_dec_state (s : State) : (consumeByte s).dec.state = s.dec.state := rfl
@[simp] theorem consumeByte_dec_inLen (s : State) : (consumeByte s).dec.inLen = s.dec.inLen := rfl
@[simp] theorem consumeByte_dec_inPos (s : State) : (consumeByte s).dec.inPos = s.dec.inPos + 1 := rfl
@[simp] theorem consumeByte_dec_hdr (s : State) : (consumeByte s).dec.hdr = s.dec.hdr := rfl
@[simp] theorem consumeByte_dec_width (s : State) : (consumeByte s).dec.width = s.dec.width := rfl
@[simp] theorem consumeByte_dec_height (s : State) : (consumeByte s).dec.height = s.dec.height := rfl
@[simp] theorem consumeByte_dec_channels (s : State) : (consumeByte s).dec.channels = s.dec.channels := rfl
@[simp] theorem consumeByte_dec_colorspace (s : State) : (consumeByte s).dec.colorspace = s.dec.colorspace := rfl
@[simp] theorem consumeByte_dec_npix (s : State) : (consumeByte s).dec.npix = s.dec.npix := rfl
@[simp] theorem consumeByte_dec_outCount (s : State) : (consumeByte s).dec.outCount = s.dec.outCount := rfl
@[simp] theorem consumeByte_dec_op (s : State) : (consumeByte s).dec.op = s.dec.op := rfl
@[simp] theorem consumeByte_dec_opByte (s : State) : (consumeByte s).dec.opByte = s.dec.opByte := rfl
@[simp] theorem consumeByte_dec_argc (s : State) : (consumeByte s).dec.argc = s.dec.argc := rfl
@[simp] theorem consumeByte_dec_arg (s : State) : (consumeByte s).dec.arg = s.dec.arg := rfl
@[simp] theorem consumeByte_dec_prev (s : State) : (consumeByte s).dec.prev = s.dec.prev := rfl
@[simp] theorem consumeByte_dec_cache (s : State) : (consumeByte s).dec.cache = s.dec.cache := rfl
@[simp] theorem consumeByte_dec_errCause (s : State) : (consumeByte s).dec.errCause = s.dec.errCause := rfl
@[simp] theorem consumeByte_mem (s : State) : (consumeByte s).mem = s.mem := rfl
@[simp] theorem consumeByte_ports (s : State) : (consumeByte s).ports = s.ports := rfl
@[simp] theorem consumeByte_encTaken (s : State) : (consumeByte s).encTaken = s.encTaken := rfl
@[simp] theorem consumeByte_decTaken (s : State) : (consumeByte s).decTaken = s.decTaken := rfl
@[simp] theorem consumeByte_byteSink (s : State) : (consumeByte s).byteSink = s.byteSink := rfl
@[simp] theorem consumeByte_pixelSink (s : State) : (consumeByte s).pixelSink = s.pixelSink := rfl
@[simp] theorem consumeByte_agenda (s : State) : (consumeByte s).agenda = s.agenda := rfl
@[simp] theorem consumeByte_turn (s : State) : (consumeByte s).turn = s.turn := rfl
@[simp] theorem consumeByte_draws (s : State) : (consumeByte s).draws = s.draws := rfl

/-! ### An opcode with operands opened (R145) -/

@[simp] theorem openOpcode_enc (v : Byte) (s : State) : (openOpcode v s).enc = s.enc := rfl
@[simp] theorem openOpcode_dec_state (v : Byte) (s : State) : (openOpcode v s).dec.state = .arg := rfl
@[simp] theorem openOpcode_dec_inLen (v : Byte) (s : State) : (openOpcode v s).dec.inLen = s.dec.inLen := rfl
@[simp] theorem openOpcode_dec_inPos (v : Byte) (s : State) : (openOpcode v s).dec.inPos = s.dec.inPos := rfl
@[simp] theorem openOpcode_dec_hdr (v : Byte) (s : State) : (openOpcode v s).dec.hdr = s.dec.hdr := rfl
@[simp] theorem openOpcode_dec_width (v : Byte) (s : State) : (openOpcode v s).dec.width = s.dec.width := rfl
@[simp] theorem openOpcode_dec_height (v : Byte) (s : State) : (openOpcode v s).dec.height = s.dec.height := rfl
@[simp] theorem openOpcode_dec_channels (v : Byte) (s : State) : (openOpcode v s).dec.channels = s.dec.channels := rfl
@[simp] theorem openOpcode_dec_colorspace (v : Byte) (s : State) : (openOpcode v s).dec.colorspace = s.dec.colorspace := rfl
@[simp] theorem openOpcode_dec_npix (v : Byte) (s : State) : (openOpcode v s).dec.npix = s.dec.npix := rfl
@[simp] theorem openOpcode_dec_outCount (v : Byte) (s : State) : (openOpcode v s).dec.outCount = s.dec.outCount := rfl
@[simp] theorem openOpcode_dec_op (v : Byte) (s : State) : (openOpcode v s).dec.op = pendingOf v := rfl
@[simp] theorem openOpcode_dec_opByte (v : Byte) (s : State) : (openOpcode v s).dec.opByte = v := rfl
@[simp] theorem openOpcode_dec_argc (v : Byte) (s : State) : (openOpcode v s).dec.argc = 0 := rfl
@[simp] theorem openOpcode_dec_arg (v : Byte) (s : State) : (openOpcode v s).dec.arg = s.dec.arg := rfl
@[simp] theorem openOpcode_dec_prev (v : Byte) (s : State) : (openOpcode v s).dec.prev = s.dec.prev := rfl
@[simp] theorem openOpcode_dec_cache (v : Byte) (s : State) : (openOpcode v s).dec.cache = s.dec.cache := rfl
@[simp] theorem openOpcode_dec_errCause (v : Byte) (s : State) : (openOpcode v s).dec.errCause = s.dec.errCause := rfl
@[simp] theorem openOpcode_mem (v : Byte) (s : State) : (openOpcode v s).mem = s.mem := rfl
@[simp] theorem openOpcode_ports (v : Byte) (s : State) : (openOpcode v s).ports = s.ports := rfl
@[simp] theorem openOpcode_encTaken (v : Byte) (s : State) : (openOpcode v s).encTaken = s.encTaken := rfl
@[simp] theorem openOpcode_decTaken (v : Byte) (s : State) : (openOpcode v s).decTaken = s.decTaken := rfl
@[simp] theorem openOpcode_byteSink (v : Byte) (s : State) : (openOpcode v s).byteSink = s.byteSink := rfl
@[simp] theorem openOpcode_pixelSink (v : Byte) (s : State) : (openOpcode v s).pixelSink = s.pixelSink := rfl
@[simp] theorem openOpcode_agenda (v : Byte) (s : State) : (openOpcode v s).agenda = s.agenda := rfl
@[simp] theorem openOpcode_turn (v : Byte) (s : State) : (openOpcode v s).turn = s.turn := rfl
@[simp] theorem openOpcode_draws (v : Byte) (s : State) : (openOpcode v s).draws = s.draws := rfl

/-! ### An operand byte kept (R152) -/

@[simp] theorem takeOperand_enc (v : Byte) (s : State) : (takeOperand v s).enc = s.enc := rfl
@[simp] theorem takeOperand_dec_state (v : Byte) (s : State) : (takeOperand v s).dec.state = s.dec.state := rfl
@[simp] theorem takeOperand_dec_inLen (v : Byte) (s : State) : (takeOperand v s).dec.inLen = s.dec.inLen := rfl
@[simp] theorem takeOperand_dec_inPos (v : Byte) (s : State) : (takeOperand v s).dec.inPos = s.dec.inPos := rfl
@[simp] theorem takeOperand_dec_hdr (v : Byte) (s : State) : (takeOperand v s).dec.hdr = s.dec.hdr := rfl
@[simp] theorem takeOperand_dec_width (v : Byte) (s : State) : (takeOperand v s).dec.width = s.dec.width := rfl
@[simp] theorem takeOperand_dec_height (v : Byte) (s : State) : (takeOperand v s).dec.height = s.dec.height := rfl
@[simp] theorem takeOperand_dec_channels (v : Byte) (s : State) : (takeOperand v s).dec.channels = s.dec.channels := rfl
@[simp] theorem takeOperand_dec_colorspace (v : Byte) (s : State) : (takeOperand v s).dec.colorspace = s.dec.colorspace := rfl
@[simp] theorem takeOperand_dec_npix (v : Byte) (s : State) : (takeOperand v s).dec.npix = s.dec.npix := rfl
@[simp] theorem takeOperand_dec_outCount (v : Byte) (s : State) : (takeOperand v s).dec.outCount = s.dec.outCount := rfl
@[simp] theorem takeOperand_dec_op (v : Byte) (s : State) : (takeOperand v s).dec.op = s.dec.op := rfl
@[simp] theorem takeOperand_dec_opByte (v : Byte) (s : State) : (takeOperand v s).dec.opByte = s.dec.opByte := rfl
@[simp] theorem takeOperand_dec_argc (v : Byte) (s : State) : (takeOperand v s).dec.argc = s.dec.argc + 1 := rfl
@[simp] theorem takeOperand_dec_arg (v : Byte) (s : State) : (takeOperand v s).dec.arg = s.dec.arg.setIfInBounds s.dec.argc.toNat v := rfl
@[simp] theorem takeOperand_dec_prev (v : Byte) (s : State) : (takeOperand v s).dec.prev = s.dec.prev := rfl
@[simp] theorem takeOperand_dec_cache (v : Byte) (s : State) : (takeOperand v s).dec.cache = s.dec.cache := rfl
@[simp] theorem takeOperand_dec_errCause (v : Byte) (s : State) : (takeOperand v s).dec.errCause = s.dec.errCause := rfl
@[simp] theorem takeOperand_mem (v : Byte) (s : State) : (takeOperand v s).mem = s.mem := rfl
@[simp] theorem takeOperand_ports (v : Byte) (s : State) : (takeOperand v s).ports = s.ports := rfl
@[simp] theorem takeOperand_encTaken (v : Byte) (s : State) : (takeOperand v s).encTaken = s.encTaken := rfl
@[simp] theorem takeOperand_decTaken (v : Byte) (s : State) : (takeOperand v s).decTaken = s.decTaken := rfl
@[simp] theorem takeOperand_byteSink (v : Byte) (s : State) : (takeOperand v s).byteSink = s.byteSink := rfl
@[simp] theorem takeOperand_pixelSink (v : Byte) (s : State) : (takeOperand v s).pixelSink = s.pixelSink := rfl
@[simp] theorem takeOperand_agenda (v : Byte) (s : State) : (takeOperand v s).agenda = s.agenda := rfl
@[simp] theorem takeOperand_turn (v : Byte) (s : State) : (takeOperand v s).turn = s.turn := rfl
@[simp] theorem takeOperand_draws (v : Byte) (s : State) : (takeOperand v s).draws = s.draws := rfl

/-! ### A header byte kept (R142) -/

@[simp] theorem keepHeaderByte_enc (v : Byte) (s : State) : (keepHeaderByte v s).enc = s.enc := rfl
@[simp] theorem keepHeaderByte_dec_state (v : Byte) (s : State) : (keepHeaderByte v s).dec.state = s.dec.state := rfl
@[simp] theorem keepHeaderByte_dec_inLen (v : Byte) (s : State) : (keepHeaderByte v s).dec.inLen = s.dec.inLen := rfl
@[simp] theorem keepHeaderByte_dec_inPos (v : Byte) (s : State) : (keepHeaderByte v s).dec.inPos = s.dec.inPos + 1 := rfl
@[simp] theorem keepHeaderByte_dec_hdr (v : Byte) (s : State) : (keepHeaderByte v s).dec.hdr = s.dec.hdr.setIfInBounds s.dec.inPos.toNat v := rfl
@[simp] theorem keepHeaderByte_dec_width (v : Byte) (s : State) : (keepHeaderByte v s).dec.width = s.dec.width := rfl
@[simp] theorem keepHeaderByte_dec_height (v : Byte) (s : State) : (keepHeaderByte v s).dec.height = s.dec.height := rfl
@[simp] theorem keepHeaderByte_dec_channels (v : Byte) (s : State) : (keepHeaderByte v s).dec.channels = s.dec.channels := rfl
@[simp] theorem keepHeaderByte_dec_colorspace (v : Byte) (s : State) : (keepHeaderByte v s).dec.colorspace = s.dec.colorspace := rfl
@[simp] theorem keepHeaderByte_dec_npix (v : Byte) (s : State) : (keepHeaderByte v s).dec.npix = s.dec.npix := rfl
@[simp] theorem keepHeaderByte_dec_outCount (v : Byte) (s : State) : (keepHeaderByte v s).dec.outCount = s.dec.outCount := rfl
@[simp] theorem keepHeaderByte_dec_op (v : Byte) (s : State) : (keepHeaderByte v s).dec.op = s.dec.op := rfl
@[simp] theorem keepHeaderByte_dec_opByte (v : Byte) (s : State) : (keepHeaderByte v s).dec.opByte = s.dec.opByte := rfl
@[simp] theorem keepHeaderByte_dec_argc (v : Byte) (s : State) : (keepHeaderByte v s).dec.argc = s.dec.argc := rfl
@[simp] theorem keepHeaderByte_dec_arg (v : Byte) (s : State) : (keepHeaderByte v s).dec.arg = s.dec.arg := rfl
@[simp] theorem keepHeaderByte_dec_prev (v : Byte) (s : State) : (keepHeaderByte v s).dec.prev = s.dec.prev := rfl
@[simp] theorem keepHeaderByte_dec_cache (v : Byte) (s : State) : (keepHeaderByte v s).dec.cache = s.dec.cache := rfl
@[simp] theorem keepHeaderByte_dec_errCause (v : Byte) (s : State) : (keepHeaderByte v s).dec.errCause = s.dec.errCause := rfl
@[simp] theorem keepHeaderByte_mem (v : Byte) (s : State) : (keepHeaderByte v s).mem = s.mem := rfl
@[simp] theorem keepHeaderByte_ports (v : Byte) (s : State) : (keepHeaderByte v s).ports = s.ports := rfl
@[simp] theorem keepHeaderByte_encTaken (v : Byte) (s : State) : (keepHeaderByte v s).encTaken = s.encTaken := rfl
@[simp] theorem keepHeaderByte_decTaken (v : Byte) (s : State) : (keepHeaderByte v s).decTaken = s.decTaken := rfl
@[simp] theorem keepHeaderByte_byteSink (v : Byte) (s : State) : (keepHeaderByte v s).byteSink = s.byteSink := rfl
@[simp] theorem keepHeaderByte_pixelSink (v : Byte) (s : State) : (keepHeaderByte v s).pixelSink = s.pixelSink := rfl
@[simp] theorem keepHeaderByte_agenda (v : Byte) (s : State) : (keepHeaderByte v s).agenda = s.agenda := rfl
@[simp] theorem keepHeaderByte_turn (v : Byte) (s : State) : (keepHeaderByte v s).turn = s.turn := rfl
@[simp] theorem keepHeaderByte_draws (v : Byte) (s : State) : (keepHeaderByte v s).draws = s.draws := rfl

/-! ### What belongs to one agent only (R20) -/

theorem OnlyDecoder.refl (s : State) : OnlyDecoder s s := by constructor <;> rfl

theorem OnlyDecoder.trans {s t u : State} (h : OnlyDecoder s t) (k : OnlyDecoder t u) : OnlyDecoder s u :=
  ⟨k.enc.trans h.enc, k.rasterIn.trans h.rasterIn, k.bytesOut.trans h.bytesOut, k.bytesIn.trans h.bytesIn,
   k.ports.trans h.ports, k.encTaken.trans h.encTaken, k.decTaken.trans h.decTaken, k.byteSink.trans h.byteSink,
   k.pixelSink.trans h.pixelSink, k.agenda.trans h.agenda, k.turn.trans h.turn, k.draws.trans h.draws⟩

theorem OnlyEncoder.refl (s : State) : OnlyEncoder s s := by constructor <;> rfl

theorem OnlyEncoder.trans {s t u : State} (h : OnlyEncoder s t) (k : OnlyEncoder t u) : OnlyEncoder s u :=
  ⟨k.dec.trans h.dec, k.rasterIn.trans h.rasterIn, k.bytesIn.trans h.bytesIn, k.rasterOut.trans h.rasterOut,
   k.ports.trans h.ports, k.encTaken.trans h.encTaken, k.decTaken.trans h.decTaken, k.byteSink.trans h.byteSink,
   k.pixelSink.trans h.pixelSink, k.agenda.trans h.agenda, k.turn.trans h.turn, k.draws.trans h.draws⟩

theorem onlyDecoder_raise (c : Cause) (s : State) : OnlyDecoder s (raise .dec c s) := by constructor <;> rfl

theorem onlyDecoder_emitPixels (n : Nat) (p : Pixel) (s : State) : OnlyDecoder s (emitPixels n p s) := by
  constructor <;> rfl

theorem onlyDecoder_consumeByte (s : State) : OnlyDecoder s (consumeByte s) := by constructor <;> rfl

theorem onlyDecoder_openOpcode (v : Byte) (s : State) : OnlyDecoder s (openOpcode v s) := by constructor <;> rfl

theorem onlyDecoder_takeOperand (v : Byte) (s : State) : OnlyDecoder s (takeOperand v s) := by constructor <;> rfl

theorem onlyEncoder_raise (c : Cause) (s : State) : OnlyEncoder s (raise .enc c s) := by constructor <;> rfl

theorem onlyEncoder_emitByte (v : Byte) (s : State) : OnlyEncoder s (emitByte v s) := by constructor <;> rfl

end Sys2Proof.Machine
end

