-- ==== Sys2Proof/Laws/Encoder.lean ====
section
/-! SUPPORT. What the encoder's operations do, said once: the bytes a pixel step emits and the registers it leaves, each
as one function of the registers before it (spec/41_encoder.md R112 to R123). -/

namespace Sys2Proof.Machine

/-! ## Emitting bytes -/

/-- BYTES_OUT with bytes added from a position on. -/
def bytesAppended (m : List Host.Cell) (pos : Word) : List Byte → List Host.Cell
  | [] => m
  | v :: rest => bytesAppended (memWrite m pos.toNat v) (pos + 1) rest

/-- R13: emitting bytes adds them at `out_count`, which moves on by their number, and changes nothing else. -/
theorem emitBytes_eq (bs : List Byte) (s : State) : emitBytes bs s =
    { s with
      mem := { s.mem with bytesOut := bytesAppended s.mem.bytesOut s.enc.outCount bs }
      enc := { s.enc with outCount := s.enc.outCount + BitVec.ofNat 32 bs.length } } := by
  induction bs generalizing s with
  | nil => simp [emitBytes, bytesAppended]
  | cons v rest ih =>
    have hc : s.enc.outCount + BitVec.ofNat 32 (v :: rest).length =
        s.enc.outCount + 1 + BitVec.ofNat 32 rest.length := by
      rw [List.length_cons, BitVec.add_assoc]
      congr 1
      rw [Nat.add_comm, BitVec.ofNat_add]
      rfl
    rw [emitBytes, ih, hc]
    rfl

theorem memRead_bytesAppended (m : List Host.Cell) (pos : Word) (bs : List Byte) (a : Nat)
    (h : pos.toNat + bs.length ≤ 2 ^ 32) :
    memRead (bytesAppended m pos bs) a =
      if pos.toNat ≤ a ∧ a < pos.toNat + bs.length then bs[a - pos.toNat]? else memRead m a := by
  induction bs generalizing m pos with
  | nil => rw [bytesAppended, if_neg (by rw [List.length_nil]; omega)]
  | cons v rest ih =>
    rw [List.length_cons] at h
    cases rest with
    | nil =>
      simp only [bytesAppended, memRead_memWrite, List.length_cons, List.length_nil]
      by_cases ha : a = pos.toNat
      · subst ha; simp
      · rw [if_neg ha, if_neg (by omega)]
    | cons w rest =>
      rw [List.length_cons] at h
      have hp : (pos + 1).toNat = pos.toNat + 1 := by
        rw [BitVec.toNat_add]
        simp
        omega
      rw [bytesAppended, ih _ _ (by rw [hp, List.length_cons]; omega), hp, memRead_memWrite]
      simp only [List.length_cons]
      by_cases ha : a = pos.toNat
      · subst ha
        rw [if_neg (by omega), if_pos rfl, if_pos (by omega)]
        simp
      · by_cases hb : pos.toNat ≤ a ∧ a < pos.toNat + (rest.length + 1 + 1)
        · rw [if_pos (by omega), if_pos hb]
          have : a - pos.toNat = (a - (pos.toNat + 1)) + 1 := by omega
          rw [this, List.getElem?_cons_succ]
        · rw [if_neg (by omega), if_neg ha, if_neg hb]

theorem memWf_bytesAppended (m : List Host.Cell) (pos : Word) (bs : List Byte) (h : memWf m = true) :
    memWf (bytesAppended m pos bs) = true := by
  induction bs generalizing m pos with
  | nil => exact h
  | cons v rest ih => exact ih _ _ (memWf_memWrite _ _ _ h)

theorem onlyEncoder_emitBytes (bs : List Byte) (s : State) : OnlyEncoder s (emitBytes bs s) := by
  rw [emitBytes_eq]; constructor <;> rfl

/-- A state whose BYTES_OUT and `out_count` are those after emitting `bs` has emitted exactly `bs`. -/
theorem emitsBytes_of_appended (bs : List Byte) (s t : State) (hlen : s.enc.outCount.toNat + bs.length ≤ 2 ^ 32)
    (hm : t.mem.bytesOut = bytesAppended s.mem.bytesOut s.enc.outCount bs)
    (hc : t.enc.outCount = s.enc.outCount + BitVec.ofNat 32 bs.length) : EmitsBytes bs s t where
  count := hc
  emitted k hk := by
    rw [hm, memRead_bytesAppended _ _ _ _ hlen, if_pos (by omega)]
    congr 1
    omega
  others a ha := by rw [hm, memRead_bytesAppended _ _ _ _ hlen, if_neg (by omega)]

theorem EmitsBytes.nil (s : State) : EmitsBytes [] s s := ⟨by simp, by simp, fun _ _ => rfl⟩

/-- Emissions one after the other are the emission of both lists, as long as `out_count` does not wrap (R8). -/
theorem EmitsBytes.append {bs cs : List Byte} {s t u : State} (h1 : EmitsBytes bs s t) (h2 : EmitsBytes cs t u)
    (hw : s.enc.outCount.toNat + bs.length < 2 ^ 32) : EmitsBytes (bs ++ cs) s u := by
  have ht : t.enc.outCount.toNat = s.enc.outCount.toNat + bs.length := by
    rw [h1.count, BitVec.toNat_add, BitVec.toNat_ofNat]
    omega
  refine ⟨?_, fun k hk => ?_, fun a ha => ?_⟩
  · rw [h2.count, h1.count, List.length_append, BitVec.ofNat_add, BitVec.add_assoc]
  · rw [List.length_append] at hk
    by_cases hb : k < bs.length
    · rw [h2.others _ (.inl (by omega)), h1.emitted k hb, List.getElem?_append_left hb]
    · rw [List.getElem?_append_right (by omega), ← h2.emitted (k - bs.length) (by omega), ht]
      congr 1
      omega
  · rw [List.length_append] at ha
    rw [h2.others a (by omega), h1.others a (by omega)]

/-! ## One pixel step -/

/-- R112: the index of the last pixel of the pass has been reached. -/
def lastPixel (e : Enc) : Bool := decide (e.pxPos = e.npix - 1)

/-- R113: the run a pixel equal to `prev` makes is written out in that pixel's step. -/
def runCloses (e : Enc) : Bool := decide (e.run + 1 = Config.runMax) || lastPixel e

/-- R112: the bytes a pixel step emits. -/
def pixelBytes (px : Pixel) (e : Enc) : List Byte :=
  if px = e.prev then
    if runCloses e then runByte (e.run + 1) else []
  else
    (if e.run ≠ 0 then runByte e.run else []) ++
      (if lookup e.cache (pixelHash px) = px then encode (.index (pixelHash px)) else encode (missOpcode px e.prev))

/-- R112: the registers a pixel step leaves. -/
def pixelRegs (px : Pixel) (e : Enc) : Enc :=
  { e with
    outCount := e.outCount + BitVec.ofNat 32 (pixelBytes px e).length
    pxPos := e.pxPos + 1
    state := if e.pxPos + 1 = e.npix then .done else e.state
    prev := px
    run := if px = e.prev then (if runCloses e then 0 else e.run + 1) else 0
    cache :=
      if px = e.prev then e.cache
      else if lookup e.cache (pixelHash px) = px then e.cache
      else store e.cache (pixelHash px) px }

theorem advancePixel_eq (s : State) : advancePixel s =
    { s with enc := { s.enc with
        pxPos := s.enc.pxPos + 1
        state := if s.enc.pxPos + 1 = s.enc.npix then .done else s.enc.state } } := by
  by_cases h : s.enc.pxPos + 1 = s.enc.npix
  · rw [if_pos h]; exact if_pos h
  · rw [if_neg h]; exact if_neg h

theorem extendRun_eq (s : State) : extendRun (lastPixel s.enc) s =
    if runCloses s.enc then
      { emitBytes (runByte (s.enc.run + 1)) s with
        enc := { (emitBytes (runByte (s.enc.run + 1)) s).enc with run := 0 } }
    else { s with enc := { s.enc with run := s.enc.run + 1 } } := by
  have hc : (s.enc.run + 1 = Config.runMax ∨ lastPixel s.enc = true) ↔ runCloses s.enc = true := by
    simp [runCloses]
  by_cases h : runCloses s.enc = true
  · rw [if_pos h]
    refine (if_pos (hc.2 h)).trans ?_
    simp only [flushRun, emitBytes_eq]
  · rw [if_neg h]
    exact if_neg (fun h' => h (hc.1 h'))

theorem flushIfOpen_eq (s : State) : (if s.enc.run ≠ 0 then flushRun s else s) =
    { emitBytes (if s.enc.run ≠ 0 then runByte s.enc.run else []) s with
      enc := { (emitBytes (if s.enc.run ≠ 0 then runByte s.enc.run else []) s).enc with run := 0 } } := by
  by_cases h : s.enc.run = 0
  · have h' : ¬ s.enc.run ≠ 0 := fun hn => hn h
    rw [if_neg h', if_neg h']
    simp only [emitBytes]
    obtain ⟨⟨⟩⟩ := s
    simp only at h
    subst h
    rfl
  · rw [if_pos h, if_pos h]
    rfl

theorem bytesAppended_append (m : List Host.Cell) (pos : Word) (bs cs : List Byte) :
    bytesAppended m pos (bs ++ cs) =
      bytesAppended (bytesAppended m pos bs) (pos + BitVec.ofNat 32 bs.length) cs := by
  induction bs generalizing m pos with
  | nil => simp [bytesAppended]
  | cons v rest ih =>
    rw [List.cons_append, bytesAppended, ih, bytesAppended]
    congr 1
    rw [List.length_cons, BitVec.add_assoc]
    congr 1
    rw [Nat.add_comm, BitVec.ofNat_add]
    rfl

/-- R112: a pixel step emits `pixelBytes`, leaves `pixelRegs`, and changes nothing else. -/
theorem encPixel_eq (px : Pixel) (s : State) : encPixel px s =
    { s with
      mem := { s.mem with bytesOut := bytesAppended s.mem.bytesOut s.enc.outCount (pixelBytes px s.enc) }
      enc := pixelRegs px s.enc } := by
  have hstart : encPixel px s = advancePixel
      (if px = s.enc.prev then extendRun (lastPixel s.enc) s
        else codePixel px (if s.enc.run ≠ 0 then flushRun s else s)) := rfl
  rw [hstart, advancePixel_eq]
  by_cases hp : px = s.enc.prev
  · rw [if_pos hp, extendRun_eq]
    by_cases hc : runCloses s.enc = true
    · rw [if_pos hc]
      simp only [emitBytes_eq, pixelRegs, pixelBytes, if_pos hp, if_pos hc]
      rw [hp]
    · rw [if_neg hc]
      simp only [pixelRegs, pixelBytes, if_pos hp, if_neg hc, bytesAppended, List.length_nil]
      rw [hp]
      simp
  · rw [if_neg hp, flushIfOpen_eq]
    generalize hf : (if s.enc.run ≠ 0 then runByte s.enc.run else []) = f
    unfold codePixel
    by_cases hl : lookup s.enc.cache (pixelHash px) = px
    · simp only [emitBytes_eq, pixelRegs, pixelBytes, if_neg hp, hf, if_pos hl, bytesAppended_append,
        List.length_append, BitVec.ofNat_add, BitVec.add_assoc]
    · simp only [emitBytes_eq, pixelRegs, pixelBytes, if_neg hp, hf, if_neg hl, bytesAppended_append,
        List.length_append, BitVec.ofNat_add, BitVec.add_assoc]

theorem onlyEncoder_encPixel (px : Pixel) (s : State) : OnlyEncoder s (encPixel px s) := by
  rw [encPixel_eq]; constructor <;> rfl

/-- R13, R112: what a pixel step appends to BYTES_OUT. -/
theorem emitsBytes_encPixel (px : Pixel) (s : State)
    (h : s.enc.outCount.toNat + (pixelBytes px s.enc).length ≤ 2 ^ 32) :
    EmitsBytes (pixelBytes px s.enc) s (encPixel px s) :=
  emitsBytes_of_appended _ s _ h (by rw [encPixel_eq]) (by rw [encPixel_eq]; rfl)

/-! ## The start step -/

/-- R110: a start that fails changes the registers it latched or cleared, and enters `ERROR`. -/
def startedRegs (s : State) : Enc :=
  { s.enc with
    width := s.ports.encWidth
    height := s.ports.encHeight
    pxPos := 0
    outCount := 0
    npix := 0
    errCause := .none }

/-- R110: the dimensions pass. -/
def startAccepted (p : Ports) : Prop :=
  p.encWidth ≠ 0 ∧ p.encHeight ≠ 0 ∧ p.encWidth.toNat * p.encHeight.toNat ≤ Config.maxPixels

/-- R110, R111: a start that passes. -/
theorem encStart_accepted (s : State) (h : startAccepted s.ports) : encStart s =
    { s with
      mem := { s.mem with bytesOut := bytesAppended [] 0 (headerBytes s.ports.encWidth s.ports.encHeight) }
      encTaken := 0
      enc := { state := .active
               width := s.ports.encWidth
               height := s.ports.encHeight
               npix := BitVec.ofNat 32 (s.ports.encWidth.toNat * s.ports.encHeight.toNat)
               pxPos := 0
               outCount := 14
               prev := .black
               run := 0
               cache := cacheReset
               errCause := .none } } := by
  obtain ⟨hw, hh, hn⟩ := h
  have h1 : ¬ (s.ports.encWidth = 0 ∨ s.ports.encHeight = 0) := not_or.2 ⟨hw, hh⟩
  have h2 : ¬ (s.ports.encWidth.toNat * s.ports.encHeight.toNat > Config.maxPixels) := by omega
  unfold encStart
  refine (if_neg h1).trans ((if_neg h2).trans ?_)
  simp only [emitBytes_eq]
  rfl

/-- R110: a start that fails. -/
theorem encStart_rejected (s : State) (h : ¬ startAccepted s.ports) :
    ∃ cause, (s.ports.encWidth = 0 ∨ s.ports.encHeight = 0 → cause = .preZeroDim) ∧
      (¬ (s.ports.encWidth = 0 ∨ s.ports.encHeight = 0) → cause = .preTooManyPixels) ∧
      encStart s = raise .enc cause { s with
        enc := startedRegs s
        mem := { s.mem with bytesOut := [] }
        encTaken := 0 } := by
  by_cases h1 : s.ports.encWidth = 0 ∨ s.ports.encHeight = 0
  · exact ⟨.preZeroDim, fun _ => rfl, fun hn => absurd h1 hn, if_pos h1⟩
  · have h2 : s.ports.encWidth.toNat * s.ports.encHeight.toNat > Config.maxPixels := by
      by_contra hn
      exact h ⟨fun e => h1 (.inl e), fun e => h1 (.inr e), by omega⟩
    exact ⟨.preTooManyPixels, fun h => absurd h h1, fun _ => rfl, (if_neg h1).trans (if_pos h2)⟩

theorem encStart_frame (s : State) :
    (encStart s).dec = s.dec ∧ (encStart s).ports = s.ports ∧ (encStart s).mem.rasterIn = s.mem.rasterIn ∧
    (encStart s).mem.bytesIn = s.mem.bytesIn ∧ (encStart s).mem.rasterOut = s.mem.rasterOut ∧
    (encStart s).decTaken = s.decTaken ∧ (encStart s).byteSink = s.byteSink ∧
    (encStart s).pixelSink = s.pixelSink ∧ (encStart s).agenda = s.agenda ∧ (encStart s).turn = s.turn ∧
    (encStart s).draws = s.draws := by
  by_cases h : startAccepted s.ports
  · rw [encStart_accepted s h]; simp
  · obtain ⟨c, -, -, hc⟩ := encStart_rejected s h
    rw [hc]; simp

end Sys2Proof.Machine
end

