-- ==== Sys2Proof/Laws/Exec.lean ====
section
/-! SUPPORT. What the decoder's shared tails do, said once: CheckComplete (R154), FinishPixel (R153), and the
RUN opcode (R148). -/

namespace Sys2Proof.Machine

/-! ## CheckComplete -/

/-- R154: CheckComplete writes DEC's state, and the cause where bytes are left over, and nothing else. -/
theorem checkComplete_cases (s : State) :
    (s.dec.outCount ≠ s.dec.npix ∧ checkComplete s = s) ∨
    (s.dec.outCount = s.dec.npix ∧ s.dec.inPos = s.dec.inLen ∧
      checkComplete s = { s with dec.state := .done }) ∨
    (s.dec.outCount = s.dec.npix ∧ s.dec.inPos ≠ s.dec.inLen ∧
      checkComplete s = raise .dec .fmtTrailingBytes s) := by
  unfold checkComplete
  by_cases h1 : s.dec.outCount = s.dec.npix
  · by_cases h2 : s.dec.inPos = s.dec.inLen
    · exact .inr (.inl ⟨h1, h2, by rw [if_pos h1, if_pos h2]⟩)
    · exact .inr (.inr ⟨h1, h2, by rw [if_pos h1, if_neg h2]⟩)
  · exact .inl ⟨h1, by rw [if_neg h1]⟩

/-- CheckComplete changes no register but `state` and `err_cause`. -/
theorem checkComplete_eq (s : State) : ∃ st c,
    checkComplete s = { s with dec.state := st, dec.errCause := c } := by
  rcases checkComplete_cases s with ⟨-, h⟩ | ⟨-, -, h⟩ | ⟨-, -, h⟩
  · exact ⟨s.dec.state, s.dec.errCause, h⟩
  · exact ⟨.done, s.dec.errCause, h⟩
  · exact ⟨.error, .fmtTrailingBytes, h⟩

theorem onlyDecoder_checkComplete (s : State) : OnlyDecoder s (checkComplete s) := by
  obtain ⟨st, c, h⟩ := checkComplete_eq s
  rw [h]; constructor <;> rfl

@[simp] theorem checkComplete_mem (s : State) : (checkComplete s).mem = s.mem := by
  obtain ⟨st, c, h⟩ := checkComplete_eq s; rw [h]

@[simp] theorem checkComplete_dec_outCount (s : State) : (checkComplete s).dec.outCount = s.dec.outCount := by
  obtain ⟨st, c, h⟩ := checkComplete_eq s; rw [h]

@[simp] theorem checkComplete_dec_prev (s : State) : (checkComplete s).dec.prev = s.dec.prev := by
  obtain ⟨st, c, h⟩ := checkComplete_eq s; rw [h]

@[simp] theorem checkComplete_dec_cache (s : State) : (checkComplete s).dec.cache = s.dec.cache := by
  obtain ⟨st, c, h⟩ := checkComplete_eq s; rw [h]

@[simp] theorem checkComplete_dec_op (s : State) : (checkComplete s).dec.op = s.dec.op := by
  obtain ⟨st, c, h⟩ := checkComplete_eq s; rw [h]

@[simp] theorem checkComplete_dec_argc (s : State) : (checkComplete s).dec.argc = s.dec.argc := by
  obtain ⟨st, c, h⟩ := checkComplete_eq s; rw [h]

@[simp] theorem checkComplete_dec_inPos (s : State) : (checkComplete s).dec.inPos = s.dec.inPos := by
  obtain ⟨st, c, h⟩ := checkComplete_eq s; rw [h]

@[simp] theorem checkComplete_dec_inLen (s : State) : (checkComplete s).dec.inLen = s.dec.inLen := by
  obtain ⟨st, c, h⟩ := checkComplete_eq s; rw [h]

@[simp] theorem checkComplete_dec_npix (s : State) : (checkComplete s).dec.npix = s.dec.npix := by
  obtain ⟨st, c, h⟩ := checkComplete_eq s; rw [h]

theorem opcodeKeeps_checkComplete (s : State) : OpcodeKeeps s.dec (checkComplete s).dec := by
  obtain ⟨st, c, h⟩ := checkComplete_eq s
  rw [h]; constructor <;> rfl

/-! ## FinishPixel -/

/-- R153: FinishPixel up to its call of CheckComplete. -/
def pixelFinished (px : Pixel) (s : State) : State :=
  { emitPixels 1 px s with
    dec := { s.dec with
      cache := store s.dec.cache (pixelHash px) px
      prev := px
      outCount := s.dec.outCount + 1
      op := .none
      argc := 0
      state := .op } }

theorem finishPixel_eq (px : Pixel) (s : State) : finishPixel px s = checkComplete (pixelFinished px s) := rfl

theorem onlyDecoder_finishPixel (px : Pixel) (s : State) : OnlyDecoder s (finishPixel px s) := by
  have h : OnlyDecoder s (pixelFinished px s) := by constructor <;> rfl
  exact h.trans (onlyDecoder_checkComplete _)

@[simp] theorem finishPixel_mem (px : Pixel) (s : State) : (finishPixel px s).mem =
    { s.mem with rasterOut := memWrite s.mem.rasterOut s.dec.outCount.toNat px } := by
  rw [finishPixel_eq, checkComplete_mem]; rfl

@[simp] theorem finishPixel_dec_prev (px : Pixel) (s : State) : (finishPixel px s).dec.prev = px := by
  rw [finishPixel_eq, checkComplete_dec_prev]; rfl

@[simp] theorem finishPixel_dec_cache (px : Pixel) (s : State) :
    (finishPixel px s).dec.cache = store s.dec.cache (pixelHash px) px := by
  rw [finishPixel_eq, checkComplete_dec_cache]; rfl

@[simp] theorem finishPixel_dec_outCount (px : Pixel) (s : State) :
    (finishPixel px s).dec.outCount = s.dec.outCount + 1 := by
  rw [finishPixel_eq, checkComplete_dec_outCount]; rfl

@[simp] theorem finishPixel_dec_op (px : Pixel) (s : State) : (finishPixel px s).dec.op = .none := by
  rw [finishPixel_eq, checkComplete_dec_op]; rfl

@[simp] theorem finishPixel_dec_argc (px : Pixel) (s : State) : (finishPixel px s).dec.argc = 0 := by
  rw [finishPixel_eq, checkComplete_dec_argc]; rfl

@[simp] theorem finishPixel_dec_inPos (px : Pixel) (s : State) : (finishPixel px s).dec.inPos = s.dec.inPos := by
  rw [finishPixel_eq, checkComplete_dec_inPos]; rfl

@[simp] theorem finishPixel_dec_inLen (px : Pixel) (s : State) : (finishPixel px s).dec.inLen = s.dec.inLen := by
  rw [finishPixel_eq, checkComplete_dec_inLen]; rfl

@[simp] theorem finishPixel_dec_npix (px : Pixel) (s : State) : (finishPixel px s).dec.npix = s.dec.npix := by
  rw [finishPixel_eq, checkComplete_dec_npix]; rfl

theorem opcodeKeeps_finishPixel (px : Pixel) (s : State) : OpcodeKeeps s.dec (finishPixel px s).dec := by
  have h := opcodeKeeps_checkComplete (pixelFinished px s)
  exact ⟨h.inLen, h.inPos, h.hdr, h.width, h.height, h.channels, h.colorspace, h.npix, h.opByte, h.arg⟩

/-- R154: the three ways FinishPixel leaves DEC's state and cause. -/
theorem finishPixel_ending (px : Pixel) (s : State) :
    (s.dec.outCount + 1 ≠ s.dec.npix ∧ (finishPixel px s).dec.state = .op ∧
      (finishPixel px s).dec.errCause = s.dec.errCause) ∨
    (s.dec.outCount + 1 = s.dec.npix ∧ s.dec.inPos = s.dec.inLen ∧ (finishPixel px s).dec.state = .done ∧
      (finishPixel px s).dec.errCause = s.dec.errCause) ∨
    (s.dec.outCount + 1 = s.dec.npix ∧ s.dec.inPos ≠ s.dec.inLen ∧ (finishPixel px s).dec.state = .error ∧
      (finishPixel px s).dec.errCause = .fmtTrailingBytes) := by
  rw [finishPixel_eq]
  rcases checkComplete_cases (pixelFinished px s) with ⟨h1, h⟩ | ⟨h1, h2, h⟩ | ⟨h1, h2, h⟩
  · exact .inl ⟨h1, by rw [h]; exact ⟨rfl, rfl⟩⟩
  · exact .inr (.inl ⟨h1, h2, by rw [h]; exact ⟨rfl, rfl⟩⟩)
  · exact .inr (.inr ⟨h1, h2, by rw [h]; exact ⟨rfl, rfl⟩⟩)

/-! ## The meanings -/

/-- Every opcode but RUN is FinishPixel of its pixel. -/
theorem exec_pixelOpcode (i : Instr) (s : State) (h : ∀ l, i ≠ .run l) :
    exec i s = .next (finishPixel (opcodePixel i s.dec) s) := by
  cases i with
  | run l => exact absurd rfl (h l)
  | index => rfl
  | diff => rfl
  | luma => rfl
  | rgb => rfl
  | rgba => rfl

/-- R148: a RUN that fits, up to its call of CheckComplete. -/
def runEmitted (n : Nat) (s : State) : State :=
  { emitPixels n s.dec.prev s with dec := { s.dec with outCount := s.dec.outCount + BitVec.ofNat 32 n } }

/-- R148: RUN raises, or emits its pixels and checks for the end. -/
theorem exec_run_cases (l : BitVec 6) (s : State) :
    (s.dec.npix.toNat < s.dec.outCount.toNat + (l.toNat + 1) ∧
      exec (.run l) s = .next (raise .dec .fmtRunOverrun s)) ∨
    (s.dec.outCount.toNat + (l.toNat + 1) ≤ s.dec.npix.toNat ∧
      exec (.run l) s = .next (checkComplete (runEmitted (l.toNat + 1) s))) := by
  by_cases h : s.dec.outCount.toNat + runLength l > s.dec.npix.toNat
  · exact .inl ⟨h, if_pos h⟩
  · exact .inr ⟨Nat.le_of_not_lt h, if_neg h⟩

/-- No opcode stops the machine, and every one is DEC's business alone. -/
theorem exec_next (i : Instr) (s : State) : ∃ t, exec i s = .next t ∧ OnlyDecoder s t ∧ OpcodeKeeps s.dec t.dec := by
  by_cases h : ∃ l, i = .run l
  · obtain ⟨l, rfl⟩ := h
    rcases exec_run_cases l s with ⟨-, h⟩ | ⟨-, h⟩
    · exact ⟨_, h, onlyDecoder_raise _ s, by constructor <;> rfl⟩
    · refine ⟨_, h, ?_, ?_⟩
      · have h1 : OnlyDecoder s (runEmitted (l.toNat + 1) s) := by constructor <;> rfl
        exact h1.trans (onlyDecoder_checkComplete _)
      · have h1 := opcodeKeeps_checkComplete (runEmitted (l.toNat + 1) s)
        exact ⟨h1.inLen, h1.inPos, h1.hdr, h1.width, h1.height, h1.channels, h1.colorspace, h1.npix, h1.opByte, h1.arg⟩
  · exact ⟨_, exec_pixelOpcode i s (fun l e => h ⟨l, e⟩), onlyDecoder_finishPixel _ s, opcodeKeeps_finishPixel _ s⟩

end Sys2Proof.Machine
end

