-- ==== Sys2Proof/Laws/LockStep.lean ====
section
/-! SUPPORT. What DEC adds to a channel is what ENC took off it (spec/41_encoder.md R117, spec/42_decoder.md R150,
R151): the opcode ENC chooses on a miss gives its own pixel back. -/

namespace Sys2Proof.Machine

/-- R11: the signed view of a byte is its two's complement value. -/
theorem s8_eq_toInt : ∀ d : Byte, s8 d = d.toInt := by decide

/-- R11: the signed view, taken modulo 256 again, is the byte. -/
theorem ofInt_s8 : ∀ d : Byte, BitVec.ofInt 8 (s8 d) = d := by decide

/-- R84, R92: a delta in -2..1 survives its DIFF field. -/
theorem diffDelta_s8 : ∀ d : Byte, -2 ≤ s8 d → s8 d ≤ 1 → diffDelta (BitVec.ofInt 2 (s8 d + 2)) = s8 d := by decide

/-- R85, R92: a delta in -32..31 survives the LUMA green field. -/
theorem lumaGreen_s8 : ∀ d : Byte, -32 ≤ s8 d → s8 d ≤ 31 → lumaGreen (BitVec.ofInt 6 (s8 d + 32)) = s8 d := by
  decide

/-- R85, R92: a delta in -8..7 survives its LUMA nibble. -/
theorem lumaNibble_s8 : ∀ d : Byte, -8 ≤ s8 d → s8 d ≤ 7 → lumaNibble (BitVec.ofInt 4 (s8 d + 8)) = s8 d := by
  decide

/-- R11: adding back the difference of two channels. -/
theorem addDelta_s8 (x y : Byte) : addDelta y (s8 (sub8 x y)) = x := by
  unfold addDelta
  rw [ofInt_s8]
  unfold add8 sub8
  simp

/-- R117, R151: adding back a green-based difference and the green difference. -/
theorem addDelta_s8_green (x y g : Byte) :
    addDelta y (s8 (sub8 (sub8 x y) g) + s8 g) = x := by
  unfold addDelta
  rw [BitVec.ofInt_add, ofInt_s8, ofInt_s8]
  unfold add8 sub8
  simp

theorem inRange_iff (lo hi x : Int) : inRange lo hi x = true ↔ lo ≤ x ∧ x ≤ hi := by
  simp [inRange]

/-- R117 to R121, R146, R147, R150, R151: the opcode of a miss, run where `prev` is the pixel it was chosen against,
gives the pixel it was chosen for. -/
theorem opcodePixel_missOpcode (px : Pixel) (d : Dec) : opcodePixel (missOpcode px d.prev) d = px := by
  obtain ⟨r, g, b, a⟩ := px
  unfold missOpcode
  dsimp only
  split_ifs with ha h1 h2
  · simp only [Deltas.fitsDiff, deltas, Bool.and_eq_true, inRange_iff] at h1
    obtain ⟨⟨hr, hg⟩, hb⟩ := h1
    simp only [opcodePixel, diffPixel, deltas]
    rw [diffDelta_s8 _ hr.1 hr.2, diffDelta_s8 _ hg.1 hg.2, diffDelta_s8 _ hb.1 hb.2, addDelta_s8, addDelta_s8,
      addDelta_s8, ha]
  · simp only [Deltas.fitsLuma, deltas, Bool.and_eq_true, inRange_iff, ofInt_s8] at h2
    obtain ⟨⟨hg, hr⟩, hb⟩ := h2
    simp only [opcodePixel, lumaPixel, deltas, ofInt_s8]
    rw [lumaGreen_s8 _ hg.1 hg.2, lumaNibble_s8 _ hr.1 hr.2, lumaNibble_s8 _ hb.1 hb.2, addDelta_s8_green,
      addDelta_s8, addDelta_s8_green, ha]
  · simp only [opcodePixel]
    rw [ha]
  · rfl

end Sys2Proof.Machine
end

