-- ==== Sys2Proof/Laws/PerInstr.lean ====
section
/-! SUPPORT. Statements about every instruction as syntax, one lemma per constructor. -/

namespace Sys2Proof.Laws.EncodeLength

/-- R81, R96: the first byte of a well-formed opcode tells how many bytes the opcode has. -/
def Statement (i : Instr) : Prop :=
  i.wellFormed = true → ∃ v rest, encode i = v :: rest ∧ opcodeLength v = (encode i).length

/-- R82: a first byte that is neither RGB nor RGBA has its length from its tag. -/
theorem opcodeLength_tagged (t : BitVec 2) (x : BitVec 6) (h : tagged t x ≠ 0xFF ∧ tagged t x ≠ 0xFE) :
    opcodeLength (tagged t x) = if t = 0b10 then 2 else 1 := by
  unfold opcodeLength
  rw [if_neg h.1, if_neg h.2, tagOf_tagged]

theorem index (i : BitVec 6) : Statement (.index i) := fun _ =>
  ⟨_, _, rfl, (opcodeLength_tagged 0b00 i (tagged_ne_rgb 0b00 i (by decide))).trans rfl⟩

theorem diff (rr gg bb : BitVec 2) : Statement (.diff rr gg bb) := fun _ =>
  ⟨_, _, rfl, (opcodeLength_tagged 0b01 _ (tagged_ne_rgb 0b01 (rr ++ gg ++ bb) (by decide))).trans rfl⟩

theorem luma (g : BitVec 6) (rrrr bbbb : BitVec 4) : Statement (.luma g rrrr bbbb) := fun _ =>
  ⟨_, _, rfl, (opcodeLength_tagged 0b10 g (tagged_ne_rgb 0b10 g (by decide))).trans rfl⟩

theorem run (l : BitVec 6) : Statement (.run l) := fun h =>
  ⟨_, _, rfl, (opcodeLength_tagged 0b11 l (tagged_run_ne_rgb l (of_decide_eq_true h))).trans rfl⟩

theorem rgb (r g b : Byte) : Statement (.rgb r g b) := fun _ => ⟨_, _, rfl, rfl⟩

theorem rgba (r g b a : Byte) : Statement (.rgba r g b a) := fun _ => ⟨_, _, rfl, rfl⟩

end Sys2Proof.Laws.EncodeLength
end

