-- ==== Sys2Proof/Laws/Step.lean ====
section
/-! SUPPORT. What a step, a turn and the transfer of output do, said once. -/

namespace Sys2Proof.Machine

/-! ## Moves -/

/-- R209: with moves on the agenda, the first one happens. -/
theorem step_cons (s : State) (m : Move) (moves : List Move) (h : s.agenda = m :: moves) :
    step s = doMove m { s with agenda := moves } := by
  unfold step advance
  rw [h]

theorem step_nil (s : State) (h : s.agenda = []) :
    step s = agentTurn s.turn { s with turn := s.turn.other } := by
  unfold step advance
  rw [h]

theorem core_run_succ (M : Host.Core) (s t : M.State) (n : Nat) (h : M.step s = .next t) :
    M.run (n + 1) s = M.run n t := by
  simp only [Host.Core.run, h]

/-- A step that answers a next state is the first of a run. -/
theorem run_cons (s t : State) (n : Nat) (h : step s = .next t) :
    Host.Core.run Sys2Proof.core (n + 1) s = Host.Core.run Sys2Proof.core n t :=
  core_run_succ Sys2Proof.core s t n h

theorem run_zero (s : State) : Host.Core.run Sys2Proof.core 0 s = .next s := rfl

@[simp] theorem mapNext_next (f : State → State) (t : State) : mapNext f (.next t) = .next (f t) := rfl

/-! ## Output transfer (R43) -/

theorem drainPixels_of_not_valid (s : State) (h : decPxValid s = false) : drainPixels s = s := by
  unfold drainPixels; simp [h]

theorem drainBytes_of_not_valid (s : State) (h : encOutValid s = false) : drainBytes s = s := by
  unfold drainBytes; simp [h]

theorem drainPixels_of_not_ready (s : State) (h : s.ports.decPxReady = false) : drainPixels s = s := by
  unfold drainPixels; simp [h]

theorem drainBytes_of_not_ready (s : State) (h : s.ports.encOutReady = false) : drainBytes s = s := by
  unfold drainBytes; simp [h]

/-- R43: draining touches the sink and the count of items taken, and nothing else. -/
theorem drainPixels_eq (s : State) : ∃ sink taken,
    drainPixels s = { s with pixelSink := sink, decTaken := taken } := by
  unfold drainPixels
  split
  · exact ⟨_, _, rfl⟩
  · exact ⟨s.pixelSink, s.decTaken, rfl⟩

/-- R43: draining touches the sink and the count of items taken, and nothing else. -/
theorem drainBytes_eq (s : State) : ∃ sink taken,
    drainBytes s = { s with byteSink := sink, encTaken := taken } := by
  unfold drainBytes
  split
  · exact ⟨_, _, rfl⟩
  · exact ⟨s.byteSink, s.encTaken, rfl⟩

theorem drainPixels_dec (s : State) : (drainPixels s).dec = s.dec := by
  obtain ⟨a, b, h⟩ := drainPixels_eq s; rw [h]

theorem drainPixels_enc (s : State) : (drainPixels s).enc = s.enc := by
  obtain ⟨a, b, h⟩ := drainPixels_eq s; rw [h]

theorem drainPixels_mem (s : State) : (drainPixels s).mem = s.mem := by
  obtain ⟨a, b, h⟩ := drainPixels_eq s; rw [h]

theorem drainPixels_ports (s : State) : (drainPixels s).ports = s.ports := by
  obtain ⟨a, b, h⟩ := drainPixels_eq s; rw [h]

theorem drainPixels_agenda (s : State) : (drainPixels s).agenda = s.agenda := by
  obtain ⟨a, b, h⟩ := drainPixels_eq s; rw [h]

theorem drainBytes_dec (s : State) : (drainBytes s).dec = s.dec := by
  obtain ⟨a, b, h⟩ := drainBytes_eq s; rw [h]

theorem drainBytes_enc (s : State) : (drainBytes s).enc = s.enc := by
  obtain ⟨a, b, h⟩ := drainBytes_eq s; rw [h]

theorem drainBytes_mem (s : State) : (drainBytes s).mem = s.mem := by
  obtain ⟨a, b, h⟩ := drainBytes_eq s; rw [h]

theorem drainBytes_ports (s : State) : (drainBytes s).ports = s.ports := by
  obtain ⟨a, b, h⟩ := drainBytes_eq s; rw [h]

theorem drainBytes_agenda (s : State) : (drainBytes s).agenda = s.agenda := by
  obtain ⟨a, b, h⟩ := drainBytes_eq s; rw [h]

/-- R43: a sink that is ready leaves nothing behind. -/
theorem decPxValid_drainPixels (s : State) (h : s.ports.decPxReady = true) :
    decPxValid (drainPixels s) = false := by
  cases hv : decPxValid s with
  | false => rw [drainPixels_of_not_valid s hv, hv]
  | true =>
    have hd : drainPixels s = { s with
        pixelSink := s.pixelSink ++ memFrom s.mem.rasterOut s.decTaken.toNat
        decTaken := s.dec.outCount } := if_pos (by rw [h, hv]; rfl)
    rw [hd]
    simp [decPxValid]

/-- R43: a sink that is ready leaves nothing behind. -/
theorem encOutValid_drainBytes (s : State) (h : s.ports.encOutReady = true) :
    encOutValid (drainBytes s) = false := by
  cases hv : encOutValid s with
  | false => rw [drainBytes_of_not_valid s hv, hv]
  | true =>
    have hd : drainBytes s = { s with
        byteSink := s.byteSink ++ memFrom s.mem.bytesOut s.encTaken.toNat
        encTaken := s.enc.outCount } := if_pos (by rw [h, hv]; rfl)
    rw [hd]
    simp [encOutValid]

/-- R43: a take move touches the sink and the count of items taken, and nothing else. -/
theorem takeByte_eq (s : State) : ∃ sink taken,
    takeByte s = { s with byteSink := sink, encTaken := taken } := by
  unfold takeByte
  split
  · split
    · exact ⟨_, _, rfl⟩
    · exact ⟨s.byteSink, s.encTaken, rfl⟩
  · exact ⟨s.byteSink, s.encTaken, rfl⟩

/-- R43: a take move touches the sink and the count of items taken, and nothing else. -/
theorem takePixel_eq (s : State) : ∃ sink taken,
    takePixel s = { s with pixelSink := sink, decTaken := taken } := by
  unfold takePixel
  split
  · split
    · exact ⟨_, _, rfl⟩
    · exact ⟨s.pixelSink, s.decTaken, rfl⟩
  · exact ⟨s.pixelSink, s.decTaken, rfl⟩

theorem takeByte_of_not_ready (s : State) (h : s.ports.encOutReady = false) : takeByte s = s := by
  unfold takeByte; simp [h]

theorem takePixel_of_not_ready (s : State) (h : s.ports.decPxReady = false) : takePixel s = s := by
  unfold takePixel; simp [h]

/-! ## Turns -/

/-- R43: with nothing left to take, DEC's turn is its step. -/
theorem decTurn_of_not_valid (s : State) (h : decPxValid s = false) :
    decTurn s = mapNext drainPixels (decStep s) := by
  unfold decTurn
  simp [drainPixels_of_not_valid s h, h]

/-- R43: with nothing left to take, ENC's turn is its step. -/
theorem encTurn_of_not_valid (s : State) (h : encOutValid s = false) :
    encTurn s = drainBytes (encStep s) := by
  unfold encTurn
  simp [drainBytes_of_not_valid s h, h]

/-- What DEC may do when it may take a step (R140, R141, R204, R208). -/
theorem decStep_cases (s : State) :
    (s.dec.state.busy = true ∧ s.dec.inPos = s.dec.inLen ∧ decStep s = .next (raise .dec .fmtTruncated s)) ∨
    (∃ v, s.dec.state.busy = true ∧ s.dec.inPos.toNat < s.dec.inLen.toNat ∧ offeredByte s = some v ∧
      decStep s = decByte v s) ∨
    (s.dec.state.busy = false ∧ s.ports.decStart = true ∧ decStep s = .next (decStart s)) ∨
    decStep s = .next s := by
  unfold decStep
  by_cases hb : s.dec.state.busy = true
  · rw [if_pos hb]
    by_cases hp : s.dec.inPos = s.dec.inLen
    · rw [if_pos hp]; exact .inl ⟨hb, hp, rfl⟩
    · rw [if_neg hp]
      by_cases hr : decInReady s = true
      · rw [if_pos hr]
        have hlt : s.dec.inPos.toNat < s.dec.inLen.toNat := by
          simp [decInReady] at hr; exact hr.1.2
        cases ho : offeredByte s with
        | none => exact .inr (.inr (.inr rfl))
        | some v => exact .inr (.inl ⟨v, hb, hlt, rfl, rfl⟩)
      · rw [if_neg hr]; exact .inr (.inr (.inr rfl))
  · rw [if_neg hb]
    by_cases hs : s.ports.decStart = true
    · rw [if_pos hs]; exact .inr (.inr (.inl ⟨by simpa using hb, hs, rfl⟩))
    · rw [if_neg hs]; exact .inr (.inr (.inr rfl))

/-- R141, R43: a busy DEC with nothing left to take reads the byte offered. -/
theorem decStep_reads (s : State) (v : Byte) (hb : s.dec.state.busy = true)
    (hp : s.dec.inPos.toNat < s.dec.inLen.toNat) (hv : decPxValid s = false) (ho : offeredByte s = some v) :
    decStep s = decByte v s := by
  have hne : s.dec.inPos ≠ s.dec.inLen := by
    intro e; rw [e] at hp; omega
  have hr : decInReady s = true := by simp [decInReady, hb, hp, hv]
  unfold decStep
  rw [if_pos hb, if_neg hne, if_pos hr, ho]

/-- What ENC may do when it may take a step (R110, R112, R204, R208). -/
theorem encStep_cases (s : State) :
    (∃ px, s.enc.state = .active ∧ offeredPixel s = some px ∧ encStep s = encPixel px s) ∨
    (s.enc.state ≠ .active ∧ s.ports.encStart = true ∧ encStep s = encStart s) ∨
    encStep s = s := by
  unfold encStep
  by_cases hb : s.enc.state.busy = true
  · rw [if_pos hb]
    have ha : s.enc.state = .active := by
      cases h : s.enc.state <;> simp [h, EncState.busy] at hb ⊢
    by_cases hr : encPxReady s = true
    · rw [if_pos hr]
      cases ho : offeredPixel s with
      | none => exact .inr (.inr rfl)
      | some px => exact .inl ⟨px, ha, rfl, rfl⟩
    · rw [if_neg hr]; exact .inr (.inr rfl)
  · rw [if_neg hb]
    have ha : s.enc.state ≠ .active := by
      intro e; rw [e] at hb; simp [EncState.busy] at hb
    by_cases hs : s.ports.encStart = true
    · rw [if_pos hs]; exact .inr (.inl ⟨ha, hs, rfl⟩)
    · rw [if_neg hs]; exact .inr (.inr rfl)

/-! ## DEC's byte steps are DEC's alone -/

theorem onlyDecoder_checkMagic (s : State) : OnlyDecoder s (checkMagic s) := by
  unfold checkMagic
  split
  · exact onlyDecoder_raise _ s
  · exact OnlyDecoder.refl s

/-- R144: ParseHeader records the four fields, then rejects or opens the opcode stream. -/
theorem parseHeader_eq (s : State) : ∃ n st c, parseHeader s =
    { s with dec := { s.dec with
        width := bigEndian32 s.dec.hdr[4] s.dec.hdr[5] s.dec.hdr[6] s.dec.hdr[7]
        height := bigEndian32 s.dec.hdr[8] s.dec.hdr[9] s.dec.hdr[10] s.dec.hdr[11]
        channels := s.dec.hdr[12]
        colorspace := s.dec.hdr[13]
        npix := n
        state := st
        errCause := c } } := by
  unfold parseHeader
  dsimp only
  split
  · exact ⟨s.dec.npix, .error, .fmtBadDims, rfl⟩
  · exact ⟨_, .op, s.dec.errCause, rfl⟩

theorem onlyDecoder_parseHeader (s : State) : OnlyDecoder s (parseHeader s) := by
  obtain ⟨n, st, c, h⟩ := parseHeader_eq s
  rw [h]; constructor <;> rfl

theorem onlyDecoder_decHeader (v : Byte) (s : State) : OnlyDecoder s (decHeader v s) := by
  have h1 : OnlyDecoder s (keepHeaderByte v s) := by constructor <;> rfl
  unfold decHeader
  split
  · exact h1.trans (onlyDecoder_checkMagic _)
  · split
    · exact h1.trans (onlyDecoder_parseHeader _)
    · exact h1

/-- R145: the step that reads a first byte answers a next state, and it is DEC's alone. -/
theorem decOp_next (v : Byte) (s : State) : ∃ t, decOp v s = .next t ∧ OnlyDecoder s t := by
  unfold decOp
  dsimp only
  cases hd : decode [v] with
  | error e =>
    exact ⟨_, rfl, (onlyDecoder_consumeByte s).trans (onlyDecoder_openOpcode v _)⟩
  | ok r =>
    obtain ⟨i, rest⟩ := r
    obtain ⟨t, ht, ho, -⟩ := exec_next i (consumeByte s)
    exact ⟨t, ht, (onlyDecoder_consumeByte s).trans ho⟩

/-- R152: the step that reads an operand byte answers a next state, and it is DEC's alone. -/
theorem decArg_next (v : Byte) (s : State) : ∃ t, decArg v s = .next t ∧ OnlyDecoder s t := by
  have h1 : OnlyDecoder s (takeOperand v (consumeByte s)) :=
    (onlyDecoder_consumeByte s).trans (onlyDecoder_takeOperand v _)
  unfold decArg
  dsimp only
  split
  · cases hd : decode (collectedBytes (takeOperand v (consumeByte s)).dec) with
    | error e => exact ⟨_, rfl, h1⟩
    | ok r =>
      obtain ⟨i, rest⟩ := r
      obtain ⟨t, ht, ho, -⟩ := exec_next i (takeOperand v (consumeByte s))
      exact ⟨t, ht, h1.trans ho⟩
  · exact ⟨_, rfl, h1⟩

theorem decByte_next (v : Byte) (s : State) : ∃ t, decByte v s = .next t ∧ OnlyDecoder s t := by
  unfold decByte
  cases s.dec.state with
  | hdr => exact ⟨_, rfl, onlyDecoder_decHeader v s⟩
  | op => exact decOp_next v s
  | arg => exact decArg_next v s
  | idle => exact ⟨s, rfl, OnlyDecoder.refl s⟩
  | done => exact ⟨s, rfl, OnlyDecoder.refl s⟩
  | error => exact ⟨s, rfl, OnlyDecoder.refl s⟩

end Sys2Proof.Machine
end

