-- ==== Sys2Proof/Laws/Streams.lean ====
section
/-! SUPPORT. The operations that write a stream keep the four streams canonical (spec/20_memory.md R60). -/

namespace Sys2Proof.Machine

/-- R13: emitting bytes keeps the streams canonical. -/
theorem wf_emitBytes (bs : List Byte) (s : State) (h : s.mem.wf = true) : (emitBytes bs s).mem.wf = true := by
  have ⟨h1, h2, h3, h4⟩ := (Memory.wf_iff s.mem).1 h
  rw [emitBytes_eq]
  exact (Memory.wf_iff _).2 ⟨h1, memWf_bytesAppended _ _ _ h2, h3, h4⟩

/-- R13, R148: emitting pixels keeps the streams canonical. -/
theorem wf_emitPixels (n : Nat) (p : Pixel) (s : State) (h : s.mem.wf = true) :
    (emitPixels n p s).mem.wf = true := by
  have ⟨h1, h2, h3, h4⟩ := (Memory.wf_iff s.mem).1 h
  exact (Memory.wf_iff _).2 ⟨h1, h2, h3, memWf_memFill _ _ _ _ h4⟩

/-- R72: what the host puts into an input buffer keeps the streams canonical. -/
theorem wf_put (m : Memory) (i : Nat) (p : Pixel) (v : Byte) (h : m.wf = true) :
    Memory.wf { m with rasterIn := memWrite m.rasterIn i p } = true ∧
      Memory.wf { m with bytesIn := memWrite m.bytesIn i v } = true := by
  have ⟨h1, h2, h3, h4⟩ := (Memory.wf_iff m).1 h
  exact ⟨(Memory.wf_iff _).2 ⟨memWf_memWrite _ _ _ h1, h2, h3, h4⟩,
    (Memory.wf_iff _).2 ⟨h1, h2, memWf_memWrite _ _ _ h3, h4⟩⟩

end Sys2Proof.Machine
end

