-- ==== Sys2Proof/Laws/Turns.lean ====
section
/-! SUPPORT. What a turn of one agent leaves alone (spec/10_state.md R20): the other agent, the host's input buffers
and the input ports. -/

namespace Sys2Proof.Machine

/-- R20, R74: DEC's step leaves ENC, its output, the input buffers and the ports alone. -/
theorem decStep_frame (s t : State) (h : decStep s = .next t) :
    t.enc = s.enc ∧ t.mem.bytesOut = s.mem.bytesOut ∧ t.encTaken = s.encTaken ∧ t.byteSink = s.byteSink ∧
      t.mem.rasterIn = s.mem.rasterIn ∧ t.mem.bytesIn = s.mem.bytesIn ∧ t.ports = s.ports ∧ t.agenda = s.agenda := by
  rcases decStep_cases s with ⟨-, -, hs⟩ | ⟨v, -, -, -, hs⟩ | ⟨-, -, hs⟩ | hs <;> rw [hs] at h
  · cases h; simp
  · obtain ⟨u, hu, ho⟩ := decByte_next v s
    rw [hu] at h
    cases h
    exact ⟨ho.enc, ho.bytesOut, ho.encTaken, ho.byteSink, ho.rasterIn, ho.bytesIn, ho.ports, ho.agenda⟩
  · cases h; simp [decStart]
  · cases h; simp

/-- R20, R43, R74: the same of DEC's turn. -/
theorem decTurn_frame (s t : State) (h : decTurn s = .next t) :
    t.enc = s.enc ∧ t.mem.bytesOut = s.mem.bytesOut ∧ t.encTaken = s.encTaken ∧ t.byteSink = s.byteSink ∧
      t.mem.rasterIn = s.mem.rasterIn ∧ t.mem.bytesIn = s.mem.bytesIn ∧ t.ports = s.ports ∧ t.agenda = s.agenda := by
  unfold decTurn at h
  dsimp only at h
  obtain ⟨sink, taken, hd⟩ := drainPixels_eq s
  split at h
  · cases h; rw [hd]; simp
  · cases hs : decStep (drainPixels s) with
    | next u =>
      rw [hs] at h
      cases h
      obtain ⟨sink', taken', hd'⟩ := drainPixels_eq u
      have hf := decStep_frame _ _ hs
      rw [hd] at hf
      rw [hd']
      exact hf
    | fault r => cases r
    | refused r => rw [hs] at h; cases h

/-- R20, R43: ENC's turn leaves DEC, its output, the input buffers and the ports alone. -/
theorem encTurn_frame (s : State) :
    (encTurn s).dec = s.dec ∧ (encTurn s).mem.rasterOut = s.mem.rasterOut ∧ (encTurn s).decTaken = s.decTaken ∧
      (encTurn s).pixelSink = s.pixelSink ∧ (encTurn s).mem.rasterIn = s.mem.rasterIn ∧
      (encTurn s).mem.bytesIn = s.mem.bytesIn ∧ (encTurn s).ports = s.ports := by
  unfold encTurn
  dsimp only
  obtain ⟨sink, taken, hd⟩ := drainBytes_eq s
  split
  · rw [hd]; simp
  · obtain ⟨sink', taken', hd'⟩ := drainBytes_eq (encStep (drainBytes s))
    rw [hd']
    rcases encStep_cases (drainBytes s) with ⟨px, -, -, hs⟩ | ⟨-, -, hs⟩ | hs <;> rw [hs]
    · have ho := onlyEncoder_encPixel px (drainBytes s)
      exact ⟨ho.dec.trans (by rw [hd]), ho.rasterOut.trans (by rw [hd]), ho.decTaken.trans (by rw [hd]),
        ho.pixelSink.trans (by rw [hd]), ho.rasterIn.trans (by rw [hd]), ho.bytesIn.trans (by rw [hd]),
        ho.ports.trans (by rw [hd])⟩
    · obtain ⟨p1, p2, p3, p4, p5, p6, -, p8, -⟩ := encStart_frame (drainBytes s)
      exact ⟨p1.trans (by rw [hd]), p5.trans (by rw [hd]), p6.trans (by rw [hd]), p8.trans (by rw [hd]),
        p3.trans (by rw [hd]), p4.trans (by rw [hd]), p2.trans (by rw [hd])⟩
    · rw [hd]; simp

end Sys2Proof.Machine
end

