-- ==== Sys2Proof/Tests/Slice0.lean ====
section
/-! SUPPORT. Tests whose expected values are the spec's own (spec/95_test_vectors.md, or the examples of the rule
named), each about one step; and for each statement with hypotheses a state that meets them together. -/

namespace Sys2Proof.Tests

open Sys2Proof Sys2Proof.Machine

/-! ## WellFormed: each check refuses an ill-formed term (R86) -/

theorem test_wf_refuses_run_62 : (Instr.run 62).wellFormed = false := by decide

theorem test_wf_refuses_run_63 : (Instr.run 63).wellFormed = false := by decide

theorem test_wf_accepts_run_61 : (Instr.run 61).wellFormed = true := by decide

/-! ## Decoding: words written out from the formats R83 to R88 -/

theorem test_decode_index : decode [0b00001011, 0x77] = .ok (.index 0b001011, [0x77]) := by decide

theorem test_decode_diff : decode [0b01111001] = .ok (.diff 0b11 0b10 0b01, []) := by decide

theorem test_decode_luma : decode [0b10100101, 0b01010100] = .ok (.luma 0b100101 0b0101 0b0100, []) := by decide

theorem test_decode_run : decode [0b11111101] = .ok (.run 0b111101, []) := by decide

theorem test_decode_rgb : decode [0b11111110, 0x0A, 0x14, 0x1E] = .ok (.rgb 0x0A 0x14 0x1E, []) := by decide

theorem test_decode_rgba : decode [0b11111111, 1, 2, 3, 4, 0x35] = .ok (.rgba 1 2 3 4, [0x35]) := by decide

theorem test_decode_refuses_short : decode [0xFE, 1, 2] = .error .truncated ∧ decode [] = .error .empty := by decide

/-- Words numbered as spec/opcode_table.json numbers them: the first byte is the low one. -/
theorem test_decodeTableWord :
    decodeTableWord 8 0x0B = some (.index 11) ∧ decodeTableWord 8 0x79 = some (.diff 3 2 1) ∧
      decodeTableWord 16 0x54A5 = some (.luma 37 5 4) ∧ decodeTableWord 8 0xC1 = some (.run 1) ∧
      decodeTableWord 32 0x1E140AFE = some (.rgb 10 20 30) ∧
      decodeTableWord 40 0x04030201FF = some (.rgba 1 2 3 4) ∧
      decodeTableWord 8 0xFF = some (.rgba 0 0 0 0) := by
  decide

/-! ## Assembling (R94) -/

theorem test_assemble_luma : assemble (.luma 5 (-3) (-4)) = some [0xA5, 0x54] := by decide

theorem test_assemble_refuses : assemble (.diff 2 0 0) = none ∧ assemble (.run 63) = none := by decide

/-! ## One step of DEC on each opcode -/

/-- A decode pass of `n` pixels in a column, its header read, `len` bytes long. -/
def decPass (n len : Word) : State :=
  { State.reset with
    dec := { Dec.atReset cacheReset with
      state := .op, inLen := len, inPos := 14, width := 1, height := n, channels := 4, npix := n }
    ports := { Ports.atReset with decInValid := true, decPxReady := true } }

/-- The state of an outcome that has one. -/
def outcomeState (o : Host.Outcome State Fault Refusal) : Option State :=
  match o with
  | .next t => some t
  | .fault _ => none
  | .refused _ => none

/-- The bytes of an opcode placed at `in_pos` and the last one read in the next step. -/
def runTable (s : State) (nbits w : Nat) : Option State := outcomeState (step (s.withFetchWord nbits w))

/-- What DEC shows after a step: the pixels taken, `in_pos`, the state and the cause. -/
def seen (o : Option State) : Option (List Pixel × Word × DecState × Cause) :=
  o.map fun t => (t.pixelSink, t.dec.inPos, t.dec.state, t.dec.errCause)

/-- 2.5: `35` from the pass start gives `BLACK`. 2.6: `35 35` for one pixel emits it and then raises
FMT_TRAILING_BYTES. -/
theorem test_index :
    seen (runTable (decPass 1 15) 8 0x35) = some ([.black], 15, .done, .none) ∧
    seen (runTable (decPass 1 16) 8 0x35) = some ([.black], 15, .error, .fmtTrailingBytes) := by
  decide

/-- 2.5: `40` gives (254,254,254,255). -/
theorem test_diff : seen (runTable (decPass 1 15) 8 0x40) = some ([⟨254, 254, 254, 255⟩], 15, .done, .none) := by
  decide

/-- 2.5: `80 00` gives (216,224,216,255), and `BF FF` gives (38,31,38,255). -/
theorem test_luma :
    seen (runTable (decPass 1 16) 16 0x0080) = some ([⟨216, 224, 216, 255⟩], 16, .done, .none) ∧
    seen (runTable (decPass 1 16) 16 0xFFBF) = some ([⟨38, 31, 38, 255⟩], 16, .done, .none) := by
  decide

/-- 2.5: `C1` gives two of `BLACK`. 2.6: `C2` for two pixels raises FMT_RUN_OVERRUN with nothing emitted. -/
theorem test_run :
    seen (runTable (decPass 3 16) 8 0xC1) = some ([.black, .black], 15, .op, .none) ∧
    seen (runTable (decPass 2 15) 8 0xC2) = some ([], 15, .error, .fmtRunOverrun) := by
  decide

/-- 2.5: `FE 0A 14 1E` gives (10,20,30,255). -/
theorem test_rgb : seen (runTable (decPass 1 18) 32 0x1E140AFE) = some ([⟨10, 20, 30, 255⟩], 18, .done, .none) := by
  decide

/-- 2.5: `FF 01 02 03 04` gives (1,2,3,4), stored in slot 14 (R146). -/
theorem test_rgba : (runTable (decPass 2 23) 40 0x04030201FF).map
    (fun t => (t.pixelSink, t.dec.state, lookup t.dec.cache 14, lookup t.dec.cache 13)) =
      some ([⟨1, 2, 3, 4⟩], .op, ⟨1, 2, 3, 4⟩, .black) := by
  decide

/-- The six rows of the opcode table run as the first instruction after reset. -/
theorem test_first_after_reset :
    (seen (runTable .reset 8 0x00) = some ([.black], 15, .op, .none)) ∧
    (seen (runTable .reset 8 0x79) = some ([⟨1, 0, 255, 255⟩], 15, .op, .none)) ∧
    (seen (runTable .reset 8 0xC0) = some ([.black], 15, .op, .none)) := by
  decide

theorem test_first_after_reset_long :
    (seen (runTable .reset 16 0x88AA) = some ([⟨10, 10, 10, 255⟩], 16, .op, .none)) ∧
    (seen (runTable .reset 32 0x1E140AFE) = some ([⟨10, 20, 30, 255⟩], 18, .op, .none)) ∧
    (seen (runTable .reset 40 0x04030201FF) = some ([⟨1, 2, 3, 4⟩], 19, .op, .none)) := by
  decide

/-! ## One step of ENC for each opcode (2.3, 2.4) -/

/-- An encode pass of `n` pixels in a column, its header written. -/
def encPass (n : Word) : State :=
  { State.reset with
    enc := { Enc.atReset cacheReset with state := .active, width := 1, height := n, npix := n, outCount := 14 } }

/-- The bytes a pixel step adds. -/
def coded (px : Pixel) (s : State) : List Byte := (encPixel px s).mem.bytesOut.map Prod.snd

theorem test_enc_run_flushed_at_last : coded .black (encPass 1) = [0xC0] ∧ coded .black (encPass 2) = [] := by decide

/-- 2.4: `BLACK` after (1,0,0,255) is `35`; W2: after an open run of 1 it is `C0 35`. -/
theorem test_enc_index :
    coded .black { encPass 2 with enc.prev := ⟨1, 0, 0, 255⟩ } = [0x35] ∧
    coded .black { encPass 3 with enc.prev := ⟨10, 10, 10, 255⟩, enc.run := 1 } = [0xC0, 0x35] := by
  decide

theorem test_enc_diff :
    coded ⟨255, 255, 255, 255⟩ (encPass 1) = [0x55] ∧ coded ⟨1, 0, 255, 255⟩ (encPass 1) = [0x79] := by
  decide

theorem test_enc_luma :
    coded ⟨7, 0, 7, 255⟩ (encPass 1) = [0xA0, 0xFF] ∧ coded ⟨248, 0, 0, 255⟩ (encPass 1) = [0xA0, 0x08] := by
  decide

theorem test_enc_rgb : coded ⟨128, 31, 0, 255⟩ (encPass 1) = [0xFE, 0x80, 0x1F, 0x00] := by decide

theorem test_enc_rgba : coded ⟨0, 0, 0, 254⟩ (encPass 1) = [0xFF, 0, 0, 0, 0xFE] := by decide

/-! ## Hash (R100's table), reset and errors -/

theorem test_hash : pixelHash .black = 53 ∧ pixelHash ⟨255, 255, 255, 255⟩ = 38 ∧ pixelHash ⟨12, 22, 32, 128⟩ = 50 ∧
    pixelHash ⟨64, 0, 0, 0⟩ = 0 := by
  decide

/-- 2.2: a zero dimension, and the exact product of 65536 and 65537. -/
theorem test_enc_start_errors :
    (encStart { State.reset with ports.encWidth := 0, ports.encHeight := 5 }).enc.errCause = .preZeroDim ∧
    (encStart { State.reset with ports.encWidth := 65536, ports.encHeight := 65537 }).enc.errCause =
      .preTooManyPixels := by
  decide

theorem test_error_kinds : errKind .fmtTrailingBytes = 1 ∧ errKind .preZeroDim = 2 := by decide

/-- R43: a take move with a byte offered takes it with ready at 1 and not with ready at 0. -/
theorem test_take_needs_ready :
    (takeByte { encPass 1 with mem.bytesOut := [(0, 0x71), (1, 0x6F)], ports.encOutReady := true }).byteSink = [0x71] ∧
    (takeByte { encPass 1 with mem.bytesOut := [(0, 0x71), (1, 0x6F)] }).byteSink = [] := by
  decide

/-- R62: byte 4i+3 of a raster is the alpha of pixel i. -/
theorem test_raster_bytes : rasterByteAt [(0, ⟨1, 2, 3, 4⟩), (1, ⟨5, 6, 7, 8⟩)] 7 = some 8 := by decide

/-- R42: red is in the high byte of a packed pixel. -/
theorem test_pack : packPixel ⟨0x01, 0x02, 0x03, 0x04⟩ = 0x01020304 := by decide

/-! ## Witnesses: states and operands that meet a statement's hypotheses, at the edges of each clause -/

theorem witness_EncodeThenDecodeGivesOpcode : ∃ i : Instr, i.wellFormed = true ∧ i = .run 61 := ⟨_, by decide, rfl⟩

theorem witness_DecodeThenEncodeGivesBytes : decode [0xFD] = .ok (.run 61, []) := by decide

theorem witness_DecodeRefusesOnlyShortInput :
    [1, 2, 3].length + 1 < opcodeLength 0xFF ∧ opcodeLength 0xFF ≤ [1, 2, 3, 4].length + 1 := by
  decide

theorem witness_StoredPixelStaysUntilItsSlotIsStoredAgain :
    (∀ e ∈ [((1 : BitVec 6), Pixel.black)], e.1 ≠ 0) ∧ (2 : BitVec 6) ≠ 0 ∧
      (∀ e ∈ [((1 : BitVec 6), Pixel.black)], e.1 ≠ 2) := by
  decide

theorem witness_WrappedDeltaFitsExactlyWhenUnwrappedDoes :
    (deltas ⟨128, 31, 0, 255⟩ .black).dg = 31 ∧ (deltas ⟨0, 224, 0, 255⟩ .black).dg = -32 := by
  decide

/-- The three endings of R154 after one pixel: the pass goes on, it ends, it ends with a byte left over. -/
theorem witness_pixelOpcodeEndings :
    (stateAfter 1 .op (decPass 2 15).dec = .op ∧ causeAfter 1 (decPass 2 15).dec = .none) ∧
    (stateAfter 1 .op (decPass 1 14).dec = .done ∧ causeAfter 1 (decPass 1 14).dec = .none) ∧
    (stateAfter 1 .op (decPass 1 15).dec = .error ∧ causeAfter 1 (decPass 1 15).dec = .fmtTrailingBytes) := by
  decide

/-- The longest run: it ends the pass, ends it with a byte left over, or leaves one pixel to come. -/
theorem witness_RunRepeatsPreviousPixel :
    ((decPass 62 14).dec.outCount.toNat + ((61 : BitVec 6).toNat + 1) ≤ (decPass 62 14).dec.npix.toNat ∧
      stateAfter 62 .op (decPass 62 14).dec = .done) ∧
    ((decPass 62 15).dec.outCount.toNat + ((61 : BitVec 6).toNat + 1) ≤ (decPass 62 15).dec.npix.toNat ∧
      stateAfter 62 .op (decPass 62 15).dec = .error) ∧
    ((decPass 63 15).dec.outCount.toNat + ((61 : BitVec 6).toNat + 1) ≤ (decPass 63 15).dec.npix.toNat ∧
      stateAfter 62 .op (decPass 63 15).dec = .op) := by
  decide

theorem witness_RunOverrunRaisesBeforeEmitting :
    (decPass 61 15).dec.npix.toNat < (decPass 61 15).dec.outCount.toNat + ((61 : BitVec 6).toNat + 1) := by
  decide

/-- One pixel by RGBA, and three by RUN, with a byte left over. -/
theorem witness_TrailingBytesRaiseAfterLastPixel :
    (decPass 1 15).dec.outCount.toNat + 1 = (decPass 1 15).dec.npix.toNat ∧
    (decPass 3 15).dec.outCount.toNat + ((2 : BitVec 6).toNat + 1) = (decPass 3 15).dec.npix.toNat ∧
    (decPass 1 15).dec.inPos ≠ (decPass 1 15).dec.inLen ∧ (decPass 3 15).dec.inPos ≠ (decPass 3 15).dec.inLen := by
  decide

theorem witness_PixelOpcodesFrame :
    (∀ l, Instr.index 0 ≠ .run l) ∧ ∃ t, exec (.index 0) (decPass 2 15) = .next t :=
  ⟨fun _ => by simp, _, rfl⟩

theorem witness_RunOpcodeFrame :
    (∃ t, exec (.run 61) (decPass 62 14) = .next t) ∧ ∃ t, exec (.run 61) (decPass 61 14) = .next t :=
  ⟨⟨_, rfl⟩, _, rfl⟩

/-- The byte `v` offered to DEC, one byte before the end of its input, and DEC's turn. -/
def offered (v : Byte) (s : State) : State :=
  { s with
    dec.inLen := s.dec.inPos + 1
    mem.bytesIn := [(s.dec.inPos.toNat, v)]
    ports.decInValid := true
    agenda := [.turn .dec] }

/-- A pass that has read the first byte of LUMA, or of RGB. -/
def decOperand (o : PendingOp) (v : Byte) : State :=
  { decPass 2 16 with dec := { (decPass 2 16).dec with state := .arg, inPos := 15, op := o, opByte := v } }

theorem witness_StepRunsTheDecodedOpcode :
    (∀ v o, (offered v (decOperand o 0xA0)).agenda = .turn .dec :: [] ∧
      decPxValid (offered v (decOperand o 0xA0)) = false) ∧
    (offered 0x35 (decPass 2 15)).dec.inPos.toNat < (offered 0x35 (decPass 2 15)).dec.inLen.toNat ∧
    offeredByte (offered 0x35 (decPass 2 15)) = some 0x35 ∧ decode [0x35] = .ok (.index 53, []) ∧
    offeredByte (offered 0xA0 (decPass 2 15)) = some 0xA0 ∧ decode [0xA0] = .error .truncated ∧
    offeredByte (offered 0x88 (decOperand .luma 0xA0)) = some 0x88 ∧
    operandsComplete (takeOperand 0x88 (consumeByte (offered 0x88 (decOperand .luma 0xA0)))).dec = true ∧
    decode (collectedBytes (takeOperand 0x88 (consumeByte (offered 0x88 (decOperand .luma 0xA0)))).dec) =
      .ok (.luma 32 8 8, []) ∧
    offeredByte (offered 9 (decOperand .rgb 0xFE)) = some 9 ∧
    operandsComplete (takeOperand 9 (consumeByte (offered 9 (decOperand .rgb 0xFE)))).dec = false := by
  refine ⟨fun _ _ => ⟨rfl, rfl⟩, ?_⟩
  decide

theorem witness_OpcodeRunsOverItsLength :
    ∃ s : State, s = { decPass 2 16 with mem.bytesIn := [(14, 0xA0), (15, 0x88)], agenda := [.turn .dec, .turn .dec] } ∧
      (Instr.luma 32 8 8).wellFormed = true ∧ s.dec.state = .op ∧
      s.agenda = List.replicate (encode (.luma 32 8 8)).length (.turn .dec) ++ [] ∧
      decPxValid s = false ∧ s.ports.decInValid = true ∧
      s.dec.inPos.toNat + (encode (.luma 32 8 8)).length ≤ s.dec.inLen.toNat ∧
      ∀ k, k < (encode (.luma 32 8 8)).length →
        memRead s.mem.bytesIn (s.dec.inPos.toNat + k) = (encode (.luma 32 8 8))[k]? := by
  refine ⟨_, rfl, ?_⟩
  decide

/-- DEC with a start request and its turn. -/
def decAsked (st : DecState) : State :=
  { State.reset with dec.state := st, ports.decStart := true, ports.decInLen := 15, agenda := [.turn .dec] }

theorem witness_DecodeStartSetsThePass :
    ∀ st : DecState, st = .idle ∨ st = .done ∨ st = .error →
      (decAsked st).agenda = .turn .dec :: [] ∧ (decAsked st).ports.decStart = true ∧
        (decAsked st).dec.state.busy = false ∧ decPxValid (decAsked st) = false := by
  intro st
  cases st <;> decide

/-- A header in BYTES_IN and fourteen turns of DEC, which has just started. -/
def headerOffered (w h : Word) (chans space : Byte) : State :=
  putBytes 0 (be32 Config.magic ++ be32 w ++ be32 h ++ [chans, space])
    { State.reset with
      dec := { Dec.atReset cacheReset with state := .hdr, inLen := 14 }
      ports.decInValid := true
      agenda := List.replicate 14 (.turn .dec) ++ [] }

theorem witness_HeaderIsReadInFourteenSteps (w h : Word) (chans space : Byte) :
    ∃ s, s = headerOffered w h chans space ∧ s.dec.state = .hdr ∧ s.dec.inPos = 0 ∧ 14 ≤ s.dec.inLen.toNat ∧
      s.agenda = List.replicate 14 (.turn .dec) ++ [] ∧ decPxValid s = false ∧ s.ports.decInValid = true ∧
      ∀ k, k < 14 → memRead s.mem.bytesIn k =
        (be32 Config.magic ++ be32 w ++ be32 h ++ [chans, space])[k]? := by
  refine ⟨_, rfl, rfl, rfl, Nat.le_refl 14, rfl, rfl, rfl, fun k hk => ?_⟩
  interval_cases k <;> rfl

/-- The largest raster passes the header's test, one more row does not, and a zero width does not. -/
theorem witness_HeaderIsReadInFourteenSteps_cases :
    ¬ ((20000 : Word) = 0 ∨ (20000 : Word) = 0 ∨ 400000000 < (20000 : Word).toNat * (20000 : Word).toNat) ∧
    ((20000 : Word) = 0 ∨ (20001 : Word) = 0 ∨ 400000000 < (20000 : Word).toNat * (20001 : Word).toNat) ∧
    ((0 : Word) = 0 ∨ (1 : Word) = 0 ∨ 400000000 < (0 : Word).toNat * (1 : Word).toNat) := by
  decide

theorem witness_WrongMagicIsRejectedAtByteThree : ∃ (s : State) (v : Byte),
    s.agenda = .turn .dec :: [] ∧ s.dec.state = .hdr ∧ s.dec.inPos = 3 ∧ 3 < s.dec.inLen.toNat ∧
    decPxValid s = false ∧ offeredByte s = some v ∧
    bigEndian32 s.dec.hdr[0] s.dec.hdr[1] s.dec.hdr[2] v ≠ Config.magic := by
  have key : ∀ v : Byte, ∃ s : State, s.agenda = .turn .dec :: [] ∧ s.dec.state = .hdr ∧ s.dec.inPos = 3 ∧
      3 < s.dec.inLen.toNat ∧ decPxValid s = false ∧ offeredByte s = some v ∧
      bigEndian32 s.dec.hdr[0] s.dec.hdr[1] s.dec.hdr[2] v = bigEndian32 0 0 0 v := fun v =>
    ⟨offered v { State.reset with dec.state := .hdr, dec.inPos := 3 }, rfl, rfl, rfl, Nat.lt_succ_self 3, rfl, rfl,
      rfl⟩
  by_cases h : bigEndian32 0 0 0 0 = Config.magic
  · obtain ⟨s, h1, h2, h3, h4, h5, h6, h7⟩ := key 1
    exact ⟨s, 1, h1, h2, h3, h4, h5, h6, by rw [h7, ← h]; decide⟩
  · obtain ⟨s, h1, h2, h3, h4, h5, h6, h7⟩ := key 0
    exact ⟨s, 0, h1, h2, h3, h4, h5, h6, by rw [h7]; exact h⟩

/-- In each busy state, from an empty buffer on, and with no byte offered. -/
theorem witness_TruncationIsRaisedBeforeAnyByteCheck : ∀ st : DecState, st.busy = true →
    ∃ s : State, s.agenda = .turn .dec :: [] ∧ s.dec.state = st ∧ s.dec.inPos = s.dec.inLen ∧
      decPxValid s = false ∧ offeredByte s = none := by
  intro st _
  exact ⟨{ State.reset with dec.state := st, agenda := [.turn .dec] }, rfl, rfl, rfl, rfl, rfl⟩

theorem witness_AgentsWaitForInput :
    (∃ s : State, s.agenda = .turn .dec :: [] ∧ s.dec.state.busy = true ∧ s.dec.inPos ≠ s.dec.inLen ∧
      decPxValid s = false ∧ offeredByte s = none) ∧
    (∃ s : State, s.agenda = .turn .enc :: [] ∧ s.enc.state = .active ∧ encOutValid s = false ∧
      offeredPixel s = none) :=
  ⟨⟨{ decPass 1 15 with agenda := [.turn .dec] }, by decide⟩,
    ⟨{ encPass 1 with agenda := [.turn .enc], encTaken := 14 }, by decide⟩⟩

theorem witness_AgentsHoldUnderBackPressure :
    (∃ s : State, s.agenda = .turn .dec :: [] ∧ decPxValid s = true ∧ s.ports.decPxReady = false) ∧
    (∃ s : State, s.agenda = .turn .enc :: [] ∧ encOutValid s = true ∧ s.ports.encOutReady = false) ∧
    (∃ s t : State, step s = .next t ∧ encOutValid s = true ∧ s.agenda = .takeByte :: [] ∧
      s.ports.encOutReady = false) ∧
    (∃ s t : State, step s = .next t ∧ decPxValid s = true ∧ s.agenda = .takePixel :: [] ∧
      s.ports.decPxReady = false) :=
  ⟨⟨{ State.reset with dec.outCount := 1, agenda := [.turn .dec] }, by decide⟩,
    ⟨{ encPass 1 with agenda := [.turn .enc] }, by decide⟩,
    ⟨{ encPass 1 with agenda := [.takeByte] }, _, rfl, rfl, rfl, rfl⟩,
    ⟨{ State.reset with dec.outCount := 1, agenda := [.takePixel] }, _, rfl, rfl, rfl, rfl⟩⟩

theorem witness_StartWhileBusyIsIgnored :
    (decAsked .hdr).dec.state.busy = true ∧ (decAsked .op).dec.state.busy = true ∧
      (decAsked .arg).dec.state.busy = true ∧ (encPass 1).enc.state.busy = true := by
  decide

/-- An encoder in the middle of a pass meets its invariant when its counters do and its cache is in order. -/
theorem encInv_active (e : Enc) (hc : cacheOk e.cache)
    (h : e.state = .active ∧ e.errCause = .none ∧ e.run.toNat ≤ 61 ∧ e.npix.toNat ≤ Config.maxPixels ∧
      e.npix.toNat = e.width.toNat * e.height.toNat ∧ e.pxPos.toNat < e.npix.toNat ∧
      Config.headerLen ≤ e.outCount.toNat ∧
      e.outCount.toNat + 5 * e.run.toNat ≤ Config.headerLen + 5 * e.pxPos.toNat) : EncInv e := by
  obtain ⟨h1, h2, h3, h4, h5, h6, h7, h8⟩ := h
  refine ⟨h3, fun hn => absurd h1 hn, ?_, .inl h2, h4, by omega, fun _ => ⟨h5, by omega⟩, fun _ => h6,
    fun _ => ⟨h7, h8⟩, ?_, fun _ => hc⟩ <;> simp [h1, h2]

/-- The same of a decoder in front of an opcode. -/
theorem decInv_op (d : Dec) (hc : cacheOk d.cache)
    (h : d.state = .op ∧ d.errCause = .none ∧ d.op = .none ∧ d.npix.toNat ≤ Config.maxPixels ∧
      d.npix.toNat = d.width.toNat * d.height.toNat ∧ d.outCount.toNat < d.npix.toNat ∧
      Config.headerLen ≤ d.inPos.toNat ∧ d.inPos.toNat ≤ d.inLen.toNat) : DecInv d := by
  obtain ⟨h1, h2, h3, h4, h5, h6, h7, h8⟩ := h
  refine ⟨h8, by omega, h4, ?_, ?_, ?_, fun _ => ⟨h7, h6, h3⟩, ?_, fun _ => ⟨h5, by omega⟩, ?_, fun _ => hc⟩ <;>
    simp [h1, h2]

theorem witness_DecodePassEnds :
    ∃ s : State, s = { decPass 1 15 with mem.bytesIn := [(14, 0x35)], agenda := List.replicate 2 (.turn .dec) ++ [] } ∧
      DecInv s.dec ∧ s.dec.state.busy = true ∧ s.ports.decInValid = true ∧ s.ports.decPxReady = true ∧
      (∀ k, s.dec.inPos.toNat ≤ k → k < s.dec.inLen.toNat → memRead s.mem.bytesIn k ≠ none) ∧
      s.dec.inLen.toNat - s.dec.inPos.toNat + 1 ≤ 2 ∧ s.ports.decStart = false ∧
      s.agenda = List.replicate 2 (.turn .dec) ++ [] := by
  refine ⟨_, rfl, decInv_op _ cacheOk_cacheReset (by decide), rfl, rfl, rfl, fun k h1 h2 => ?_, by decide, rfl, rfl⟩
  have e : k = 14 := Nat.le_antisymm (Nat.le_of_lt_succ h2) h1
  subst e
  decide

/-- Each way out of `ERROR`, and a start of ENC that fails again for another cause. -/
theorem witness_ErrorIsLeftOnlyByStartOrReset :
    (∃ s t, step s = .next t ∧ s.dec.state = .error ∧ t.dec.state = .hdr) ∧
    (∃ s t, step s = .next t ∧ s.dec.state = .error ∧ t.dec.state = .idle) ∧
    (∃ s t, step s = .next t ∧ s.enc.state = .error ∧ t.enc.state = .active) ∧
    (∃ s t, step s = .next t ∧ s.enc.state = .error ∧ s.enc.errCause = .none ∧ t.enc.errCause = .preZeroDim) ∧
    (∃ s t, step s = .next t ∧ s.enc.state = .error ∧ t.enc.state = .idle) :=
  ⟨⟨decAsked .error, _, rfl, rfl, rfl⟩,
    ⟨{ State.reset with dec.state := .error, agenda := [.rst false true] }, _, rfl, rfl, rfl⟩,
    ⟨{ State.reset with enc.state := .error, ports := ⟨true, 1, 1, false, false, false, 0, false, false⟩,
                        agenda := [.turn .enc] }, _, rfl, rfl, rfl⟩,
    ⟨{ State.reset with enc.state := .error, ports.encStart := true, agenda := [.turn .enc] }, _, rfl, rfl, rfl, rfl⟩,
    ⟨{ State.reset with enc.state := .error, agenda := [.rst true false] }, _, rfl, rfl, rfl⟩⟩

theorem witness_ResetLeavesTheGivenValues : ∃ s, s = State.reset := ⟨_, rfl⟩

theorem witness_HardwareResetAbandonsThePass :
    ∀ e d : Bool, { decPass 1 15 with agenda := [.rst e d] }.agenda = .rst e d :: [] := fun _ _ => rfl

/-- The port values of a start request. -/
def asked (w h : Word) : State := { State.reset with ports.encStart := true, ports.encWidth := w, ports.encHeight := h }

theorem witness_EncodeStartEmitsTheHeader :
    (asked 20000 20000).ports.encWidth ≠ 0 ∧ (asked 20000 20000).ports.encHeight ≠ 0 ∧
      (asked 20000 20000).ports.encWidth.toNat * (asked 20000 20000).ports.encHeight.toNat ≤ 400000000 := by
  decide

theorem witness_EncodeStartRejectsBadDimensions :
    (asked 0 5).ports.encWidth = 0 ∧ (asked 5 0).ports.encHeight = 0 ∧
      (asked 20000 20001).ports.encWidth ≠ 0 ∧ (asked 20000 20001).ports.encHeight ≠ 0 ∧
      400000000 < (asked 20000 20001).ports.encWidth.toNat * (asked 20000 20001).ports.encHeight.toNat := by
  decide

theorem witness_EncoderTurnTakesOneStep :
    (∃ s : State, s.agenda = .turn .enc :: [] ∧ encOutValid s = false ∧ s.enc.state = .active ∧
      offeredPixel s = some .black) ∧
    (∃ s : State, s.agenda = .turn .enc :: [] ∧ encOutValid s = false ∧ s.enc.state ≠ .active ∧
      s.ports.encStart = true) :=
  ⟨⟨{ encPass 1 with agenda := [.turn .enc], encTaken := 14, ports.encPxValid := true,
                     mem.rasterIn := [(0, .black)] }, by decide⟩,
    ⟨{ asked 1 1 with agenda := [.turn .enc] }, by decide⟩⟩

theorem encInv_encPass (n : Word) (h1 : 0 < n.toNat) (h2 : n.toNat ≤ Config.maxPixels) : EncInv (encPass n).enc :=
  encInv_active _ cacheOk_cacheReset ⟨rfl, rfl, Nat.zero_le _, h2, (Nat.one_mul _).symm, h1,
    Nat.le_refl 14, Nat.le_refl 14⟩

/-- Three places of a run: its 62nd pixel, the last pixel of the pass, and neither. -/
theorem witness_EncoderExtendsRun :
    (∃ e, EncInv e ∧ e.state = .active ∧ e.run.toNat = 61) ∧
    (∃ e, EncInv e ∧ e.state = .active ∧ e.run.toNat ≠ 61 ∧ e.pxPos.toNat + 1 = e.npix.toNat) ∧
    (∃ e, EncInv e ∧ e.state = .active ∧ ¬ (e.run.toNat = 61 ∨ e.pxPos.toNat + 1 = e.npix.toNat)) :=
  ⟨⟨{ (encPass 100).enc with run := 61, pxPos := 61 }, encInv_active _ cacheOk_cacheReset (by decide), rfl, rfl⟩,
    ⟨_, encInv_encPass 1 (by decide) (by decide), rfl, by decide, rfl⟩,
    ⟨_, encInv_encPass 2 (by decide) (by decide), rfl, by decide⟩⟩

/-- A pass of which one pixel, (1,0,0,255), has been coded, and a run of it is open. -/
def encSecond : State :=
  { encPass 3 with
    enc := { (encPass 3).enc with
      pxPos := 2, outCount := 15, run := 1, prev := ⟨1, 0, 0, 255⟩
      cache := store cacheReset (pixelHash ⟨1, 0, 0, 255⟩) ⟨1, 0, 0, 255⟩ } }

theorem encInv_encSecond : EncInv encSecond.enc :=
  encInv_active _ (cacheOk_store _ _ cacheOk_cacheReset) (by decide)

theorem witness_EncoderCodesCacheHitAsIndex :
    EncInv encSecond.enc ∧ encSecond.enc.state = .active ∧ Pixel.black ≠ encSecond.enc.prev ∧
      lookup encSecond.enc.cache (pixelHash .black) = .black :=
  ⟨encInv_encSecond, by decide⟩

theorem witness_EncoderStoresOnMiss :
    (⟨64, 0, 0, 0⟩ : Pixel) ≠ encSecond.enc.prev ∧
      lookup encSecond.enc.cache (pixelHash ⟨64, 0, 0, 0⟩) ≠ ⟨64, 0, 0, 0⟩ := by
  decide

/-- What the four statements about a miss ask of a pixel coded from the pass start. -/
def missesFromStart (px : Pixel) : Prop :=
  EncInv (encPass 1).enc ∧ (encPass 1).enc.state = .active ∧ px ≠ (encPass 1).enc.prev ∧
    lookup (encPass 1).enc.cache (pixelHash px) ≠ px

theorem witness_EncoderCodesSmallDeltasAsDiff :
    missesFromStart ⟨1, 254, 255, 255⟩ ∧
      ((1 : Byte) - 0).toInt = 1 ∧ ((254 : Byte) - 0).toInt = -2 ∧ ((255 : Byte) - 0).toInt = -1 :=
  ⟨⟨encInv_encPass 1 (by decide) (by decide), by decide⟩, by decide⟩

/-- `dg = 31`, `drg = -8`, `dbg = 7`. -/
theorem witness_EncoderCodesGreenBasedDeltasAsLuma :
    missesFromStart ⟨23, 31, 38, 255⟩ ∧ ((31 : Byte) - 0).toInt = 31 ∧
      (((23 : Byte) - 0) - ((31 : Byte) - 0)).toInt = -8 ∧ (((38 : Byte) - 0) - ((31 : Byte) - 0)).toInt = 7 :=
  ⟨⟨encInv_encPass 1 (by decide) (by decide), by decide⟩, by decide⟩

/-- `dg = 32`, and `dg` in range with `drg = 8`. -/
theorem witness_EncoderFallsBackToRgb :
    missesFromStart ⟨32, 32, 32, 255⟩ ∧ missesFromStart ⟨8, 0, 0, 255⟩ ∧
      ((32 : Byte) - 0).toInt = 32 ∧ (((8 : Byte) - 0) - ((0 : Byte) - 0)).toInt = 8 :=
  ⟨⟨encInv_encPass 1 (by decide) (by decide), by decide⟩, ⟨encInv_encPass 1 (by decide) (by decide), by decide⟩,
    by decide⟩

theorem witness_EncoderCodesAlphaChangeAsRgba :
    missesFromStart ⟨0, 0, 0, 254⟩ ∧ (254 : Byte) ≠ (encPass 1).enc.prev.a :=
  ⟨⟨encInv_encPass 1 (by decide) (by decide), by decide⟩, by decide⟩

theorem witness_PixelStepEmitsAtMostSixBytes : EncInv encSecond.enc ∧ encSecond.enc.state = .active :=
  ⟨encInv_encSecond, rfl⟩

/-- The same ports, other registers. -/
theorem witness_StartForgetsEarlierPasses :
    (asked 1 1).ports = { encSecond with ports := (asked 1 1).ports }.ports ∧ (asked 1 1).ports.encWidth ≠ 0 ∧
      (asked 1 1).ports.encHeight ≠ 0 ∧
      (asked 1 1).ports.encWidth.toNat * (asked 1 1).ports.encHeight.toNat ≤ 400000000 := by
  refine ⟨rfl, ?_⟩
  decide

theorem witness_DecoderKeepsLockStepWithEncoder : ∃ s : State, ∃ px : Pixel,
    px ≠ s.enc.prev ∧ s.enc.run = 0 ∧ s.enc.outCount.toNat + 5 < 2 ^ 32 ∧ s.dec.cache = s.enc.cache ∧
      s.dec.prev = s.enc.prev :=
  ⟨{ encPass 2 with dec := (decPass 2 16).dec }, ⟨10, 10, 10, 255⟩, by decide, rfl, by decide, rfl, rfl⟩

/-- A raster of one pixel, ENC after its pass, and DEC ready to read what left ENC. -/
theorem witness_DecodeOfEncodeIsTheRaster : ∃ (s e d : State) (pixels : List Pixel) (moves : List Move),
    s.ports.encWidth ≠ 0 ∧ s.ports.encHeight ≠ 0 ∧
    s.ports.encWidth.toNat * s.ports.encHeight.toNat ≤ 400000000 ∧
    pixels.length = s.ports.encWidth.toNat * s.ports.encHeight.toNat ∧
    e = pixels.foldl (fun u p => encPixel p u) (encStart s) ∧
    d.mem.bytesIn = e.mem.bytesOut ∧ d.dec.state.busy = false ∧ decPxValid d = false ∧
    d.ports.decStart = true ∧ d.ports.decInLen = e.enc.outCount ∧ d.ports.decInValid = true ∧
    d.ports.decPxReady = true ∧
    d.agenda = List.replicate (e.enc.outCount.toNat + 1) (.turn .dec) ++ moves := by
  let e := encPixel ⟨1, 2, 3, 4⟩ (encStart (asked 1 1))
  exact ⟨asked 1 1, e,
    { State.reset with
      mem.bytesIn := e.mem.bytesOut
      ports := ⟨false, 0, 0, false, false, true, e.enc.outCount, true, true⟩
      agenda := List.replicate (e.enc.outCount.toNat + 1) (.turn .dec) ++ [] },
    [⟨1, 2, 3, 4⟩], [], by decide, by decide, by decide, by decide, rfl, rfl, rfl, rfl, rfl, rfl, rfl, rfl, rfl⟩

/-- Runs of 62 and of 63 that end a pass. -/
theorem witness_RunBoundary :
    (EncInv (encPass 62).enc ∧ (encPass 62).enc.run = 0 ∧ (encPass 62).enc.pxPos.toNat + 62 = (encPass 62).enc.npix.toNat) ∧
    (EncInv (encPass 63).enc ∧ (encPass 63).enc.run = 0 ∧ (encPass 63).enc.pxPos.toNat + 63 = (encPass 63).enc.npix.toNat) :=
  ⟨⟨encInv_encPass 62 (by decide) (by decide), rfl, by decide⟩,
    ⟨encInv_encPass 63 (by decide) (by decide), rfl, by decide⟩⟩

/-- Runs of 62 and of 63 that white, the last pixel, ends. -/
theorem witness_RunBoundary_endedByPixel : (⟨255, 255, 255, 255⟩ : Pixel) ≠ (encPass 63).enc.prev ∧
    (encPass 63).enc.pxPos.toNat + 62 < (encPass 63).enc.npix.toNat ∧ EncInv (encPass 63).enc ∧
    (⟨255, 255, 255, 255⟩ : Pixel) ≠ (encPass 64).enc.prev ∧
    (encPass 64).enc.pxPos.toNat + 63 < (encPass 64).enc.npix.toNat ∧ EncInv (encPass 64).enc :=
  ⟨by decide, by decide, encInv_encPass 63 (by decide) (by decide), by decide, by decide,
    encInv_encPass 64 (by decide) (by decide)⟩

/-- One black pixel after an open run of another, and 64 white pixels from the start (W3). -/
theorem witness_RunBoundary_firstDiffers : Pixel.black ≠ encSecond.enc.prev ∧
    encSecond.enc.pxPos.toNat + 1 = encSecond.enc.npix.toNat ∧ EncInv encSecond.enc ∧ encSecond.enc.run ≠ 0 ∧
    (⟨255, 255, 255, 255⟩ : Pixel) ≠ (encPass 64).enc.prev ∧
    (encPass 64).enc.pxPos.toNat + 64 = (encPass 64).enc.npix.toNat ∧ EncInv (encPass 64).enc :=
  ⟨by decide, by decide, encInv_encSecond, by decide, by decide, by decide, encInv_encPass 64 (by decide) (by decide)⟩

/-- Machines that agree on one side and differ on the other, and whose turn of the agreeing side does something. -/
theorem witness_AgentTurnDependsOnItsOwnSideOnly :
    (SameEncSide (asked 1 1) { decPass 2 16 with ports := (asked 1 1).ports } ∧
      (asked 1 1).dec ≠ (decPass 2 16).dec ∧ (encTurn (asked 1 1)).enc ≠ (asked 1 1).enc) ∧
    (SameDecSide (decAsked .idle) { encSecond with ports := (decAsked .idle).ports } ∧
      (decAsked .idle).enc ≠ encSecond.enc ∧
      ∃ t, decTurn (decAsked .idle) = .next t ∧ t.dec ≠ (decAsked .idle).dec) := by
  refine ⟨⟨?_, by decide, by decide⟩, ⟨?_, by decide, _, rfl, by decide⟩⟩ <;> constructor <;> rfl

theorem witness_StepWritesOneAgentsSideOnly :
    (∃ t, step (decAsked .idle) = .next t ∧ t.dec ≠ (decAsked .idle).dec) ∧
      ∀ e d, (decAsked .idle).agenda.head? ≠ some (.rst e d) :=
  ⟨⟨_, rfl, by decide⟩, by decide⟩

theorem witness_AgentsNeverWriteTheirInput :
    (∃ t, agentTurn .enc (encPass 1) = .next t) ∧ ∃ t, agentTurn .dec (decAsked .idle) = .next t :=
  ⟨⟨_, rfl⟩, _, rfl⟩

theorem witness_StepKeepsEncoderInvariant :
    EncInv encSecond.enc ∧ ∃ t, step { encSecond with agenda := [.turn .enc] } = .next t :=
  ⟨encInv_encSecond, _, rfl⟩

theorem witness_StepKeepsDecoderInvariant :
    DecInv (decPass 2 16).dec ∧ ∃ t, step (offered 0x35 (decPass 2 16)) = .next t :=
  ⟨decInv_op _ cacheOk_cacheReset (by decide), _, rfl⟩

/-- A start request to an ENC in reset: the whole invariant holds, and the step emits a header. -/
theorem witness_StepKeepsStreamsAndSinks :
    Inv { asked 1 1 with agenda := [.turn .enc] } ∧ ∃ t, step { asked 1 1 with agenda := [.turn .enc] } = .next t := by
  refine ⟨⟨?_, ?_, ⟨rfl, fun _ => rfl, fun _ => rfl, by decide, by decide⟩, ⟨0, rfl, ?_⟩, ⟨0, rfl, ?_⟩⟩, _, rfl⟩
  · constructor <;> simp [asked, State.reset, Enc.atReset, Config.maxPixels, Config.headerLen]
  · constructor <;> simp [asked, State.reset, Dec.atReset, Config.maxPixels, DecState.busy]
  · intro k hk; cases hk
  · intro k hk; cases hk

end Sys2Proof.Tests
end

section
/-! PROOFS. The word of four bytes and the four bytes of a word (spec/00_scope.md R14). -/

namespace Sys2Proof

theorem toNat_append_byte {n : Nat} (x : BitVec n) (b : Byte) : (x ++ b).toNat = x.toNat * 2 ^ 8 + b.toNat := by
  rw [BitVec.toNat_append, ← Nat.shiftLeft_add_eq_or_of_lt b.isLt, Nat.shiftLeft_eq]

theorem bigEndian32_toNat (b0 b1 b2 b3 : Byte) : (bigEndian32 b0 b1 b2 b3).toNat =
    b0.toNat * 2 ^ 24 + b1.toNat * 2 ^ 16 + b2.toNat * 2 ^ 8 + b3.toNat := by
  unfold bigEndian32
  rw [toNat_append_byte, toNat_append_byte, toNat_append_byte]
  omega

/-- The byte of a word that starts at bit `i`, as a number. -/
theorem extractLsb'_byte_toNat (v : Word) (i : Nat) : (v.extractLsb' i 8).toNat = v.toNat / 2 ^ i % 2 ^ 8 := by
  rw [BitVec.extractLsb'_toNat, Nat.shiftRight_eq_div_pow]

theorem be32_bigEndian32 (b0 b1 b2 b3 : Byte) : be32 (bigEndian32 b0 b1 b2 b3) = [b0, b1, b2, b3] := by
  simp only [be32, List.cons.injEq, and_true]
  refine ⟨?_, ?_, ?_, ?_⟩ <;>
    (apply BitVec.eq_of_toNat_eq; rw [extractLsb'_byte_toNat, bigEndian32_toNat]; omega)

theorem bigEndian32_extractLsb' (v : Word) :
    bigEndian32 (v.extractLsb' 24 8) (v.extractLsb' 16 8) (v.extractLsb' 8 8) (v.extractLsb' 0 8) = v := by
  apply BitVec.eq_of_toNat_eq
  simp only [bigEndian32_toNat, extractLsb'_byte_toNat]
  omega

/-- Settles O6: both round trips follow from the value of `BE32` as a sum of its bytes. -/
theorem bigEndianBytesRoundTrip : Obligations.BigEndianBytesRoundTrip :=
  ⟨fun b0 b1 b2 b3 => ⟨bigEndian32_toNat b0 b1 b2 b3, be32_bigEndian32 b0 b1 b2 b3⟩,
    fun v => ⟨_, _, _, _, rfl, bigEndian32_extractLsb' v⟩⟩

end Sys2Proof
end

section
/-! PROOFS. A start of ENC that is rejected (spec/41_encoder.md R110). -/

namespace Sys2Proof.Machine

theorem not_startAccepted_iff (p : Ports) : ¬ startAccepted p ↔
    (p.encWidth = 0 ∨ p.encHeight = 0) ∨ Config.maxPixels < p.encWidth.toNat * p.encHeight.toNat := by
  unfold startAccepted
  rw [← not_le, ← or_assoc.symm, not_and_or, not_and_or, not_not, not_not]

/-- Settles O37: in each case the dimensions do not pass, and `encStart_rejected` says what such a start leaves. -/
theorem encodeStartRejectsBadDimensions : Obligations.EncodeStartRejectsBadDimensions := by
  intro s
  refine ⟨fun hz => ?_, fun hw hh hn => ?_, fun h => ?_⟩
  · obtain ⟨c, hc, -, he⟩ := encStart_rejected s ((not_startAccepted_iff _).2 (.inl hz))
    rw [he, raise_enc_enc_errCause, hc hz]
  · obtain ⟨c, -, hc, he⟩ := encStart_rejected s ((not_startAccepted_iff _).2 (.inr hn))
    rw [he, raise_enc_enc_errCause, hc (not_or.2 ⟨hw, hh⟩)]
  · obtain ⟨c, -, -, he⟩ := encStart_rejected s ((not_startAccepted_iff _).2 h)
    rw [he]
    exact ⟨rfl, rfl, rfl, rfl, rfl, rfl, rfl, rfl, rfl⟩

end Sys2Proof.Machine
end

section
/-! PROOFS. Every step keeps the streams canonical and as long as counted, and the sinks in order (spec/10_state.md
R43, spec/20_memory.md R60, spec/70_reset_and_hazards.md R207). -/

namespace Sys2Proof.Machine

/-! ## One output stream, its counters and its sink (R43, R60)

Both agents emit into a stream, count what they emitted and what was taken, and hand the items to a sink.
`OutputOk` is what the invariant says of one such stream, for bytes and pixels alike. -/

/-- A canonical stream `m` of `count` items, whose first `taken` items are the last ones that `sink` holds. -/
structure OutputOk {α : Type} (m : List (Nat × α)) (count taken : Word) (sink : List α) : Prop where
  /-- The canonical form -/
  wf : memWf m = true
  /-- R60: the indices are 0 .. count-1 -/
  range : ∀ k : Nat, (memRead m k).isSome = decide (k < count.toNat)
  /-- R43 -/
  taken_le : taken.toNat ≤ count.toNat
  /-- R43, R207: what was taken is what was emitted, in order -/
  sunk : ∃ n, sink.length = n + taken.toNat ∧ ∀ k, k < taken.toNat → sink[n + k]? = memRead m k

/-- A count that does not wrap (R8). -/
theorem toNat_add_ofNat_of_lt (c : Word) (n : Nat) (h : c.toNat + n < 2 ^ 32) :
    (c + BitVec.ofNat 32 n).toNat = c.toNat + n := by
  rw [BitVec.toNat_add, BitVec.toNat_ofNat]
  omega

section Output
variable {α : Type} {m : List (Nat × α)} {count taken : Word} {sink : List α}

/-- A pass starts with nothing emitted and nothing taken, whatever the sink holds. -/
theorem OutputOk.empty (sink : List α) : OutputOk [] 0 0 sink :=
  ⟨rfl, fun k => by simp, le_refl _, sink.length, rfl, fun k hk => absurd hk (Nat.not_lt_zero k)⟩

/-- A longer stream with the same items at its start is still in order. -/
theorem OutputOk.extend (h : OutputOk m count taken sink) {m' : List (Nat × α)} {count' : Word}
    (hwf : memWf m' = true) (hle : count.toNat ≤ count'.toNat)
    (hrange : ∀ k : Nat, (memRead m' k).isSome = decide (k < count'.toNat))
    (hsame : ∀ k, k < count.toNat → memRead m' k = memRead m k) : OutputOk m' count' taken sink := by
  obtain ⟨n, hlen, hitems⟩ := h.sunk
  refine ⟨hwf, hrange, h.taken_le.trans hle, n, hlen, fun k hk => ?_⟩
  rw [hitems k hk, hsame k (lt_of_lt_of_le hk h.taken_le)]

/-- R13, R148: emitting `n` equal items. -/
theorem OutputOk.fill (h : OutputOk m count taken sink) (x : α) (n : Nat) (hn : count.toNat + n < 2 ^ 32) :
    OutputOk (memFill m count.toNat x n) (count + BitVec.ofNat 32 n) taken sink := by
  have hc := toNat_add_ofNat_of_lt count n hn
  refine h.extend (memWf_memFill _ _ _ _ h.wf) (by omega) (fun k => ?_) (fun k hk => ?_)
  · rw [memRead_memFill, hc]
    split_ifs with hk
    · simp [hk.2]
    · rw [h.range k]
      simp only [decide_eq_decide]
      omega
  · rw [memRead_memFill, if_neg (by omega)]

/-- R43: the sink takes everything offered. -/
theorem OutputOk.drain (h : OutputOk m count taken sink) :
    OutputOk m count count (sink ++ memFrom m taken.toNat) := by
  obtain ⟨n, hlen, hitems⟩ := h.sunk
  obtain ⟨hflen, hfitems⟩ := memFrom_of_range m h.wf 0 count.toNat taken.toNat (Nat.zero_le _)
    (fun k => by rw [h.range k]; simp) (Nat.zero_le _) h.taken_le
  have hle := h.taken_le
  refine ⟨h.wf, h.range, le_refl _, n, by rw [List.length_append]; omega, fun k hk => ?_⟩
  by_cases ht : k < taken.toNat
  · rw [List.getElem?_append_left (by omega), hitems k ht]
  · rw [List.getElem?_append_right (by omega), hfitems _ (by omega)]
    congr 1
    omega

/-- R43: the sink takes the item offered. -/
theorem OutputOk.take (h : OutputOk m count taken sink) {v : α} (hv : memRead m taken.toNat = some v) :
    OutputOk m count (taken + 1) (sink ++ [v]) := by
  have hlt : taken.toNat < count.toNat := by
    have := h.range taken.toNat
    rwa [hv, Option.isSome_some, eq_comm, decide_eq_true_iff] at this
  have ht : (taken + 1).toNat = taken.toNat + 1 := toNat_add_ofNat_of_lt taken 1 (by omega)
  obtain ⟨n, hlen, hitems⟩ := h.sunk
  refine ⟨h.wf, h.range, by omega, n, by rw [List.length_append, ht, hlen]; rfl, fun k hk => ?_⟩
  by_cases hk' : k < taken.toNat
  · rw [List.getElem?_append_left (by omega), hitems k hk']
  · obtain rfl : k = taken.toNat := by omega
    rw [← hlen, List.getElem?_concat_length, hv]

end Output

/-- R13: emitting bytes one after the other. -/
theorem OutputOk.append {m : List Host.Cell} {count taken : Word} {sink : List Byte}
    (h : OutputOk m count taken sink) (bs : List Byte) (hn : count.toNat + bs.length < 2 ^ 32) :
    OutputOk (bytesAppended m count bs) (count + BitVec.ofNat 32 bs.length) taken sink := by
  have hc := toNat_add_ofNat_of_lt count bs.length hn
  have hread := memRead_bytesAppended m count bs (h := hn.le)
  refine h.extend (memWf_bytesAppended _ _ _ h.wf) (by omega) (fun k => ?_) (fun k hk => ?_)
  · rw [hread, hc]
    split_ifs with hk
    · rw [List.getElem?_eq_getElem (by omega)]
      simp [hk.2]
    · rw [h.range k]
      simp only [decide_eq_decide]
      omega
  · rw [hread, if_neg (by omega)]

/-! ## ENC's output -/

/-- BYTES_OUT, its counters and the byte sink are in order. -/
def EncOutputOk (s : State) : Prop := OutputOk s.mem.bytesOut s.enc.outCount s.encTaken s.byteSink

theorem encOutputOk_drainBytes (s : State) (h : EncOutputOk s) : EncOutputOk (drainBytes s) := by
  unfold drainBytes
  split
  · exact h.drain
  · exact h

theorem encOutputOk_takeByte (s : State) (h : EncOutputOk s) : EncOutputOk (takeByte s) := by
  unfold takeByte
  split
  · split
    next v hv => exact h.take hv
    next => exact h
  · exact h

theorem length_encode_le (i : Instr) : (encode i).length ≤ 5 := by
  cases i <;> simp [encode]

/-- R127: the byte of an open run and one opcode, at most. -/
theorem length_pixelBytes_le (px : Pixel) (e : Enc) : (pixelBytes px e).length ≤ 6 := by
  unfold pixelBytes
  by_cases hp : px = e.prev
  · rw [if_pos hp]
    split <;> simp [runByte, encode]
  · have hflush : (if e.run ≠ 0 then runByte e.run else []).length ≤ 1 := by
      split <;> simp [runByte, encode]
    rw [if_neg hp, List.length_append, ← apply_ite encode]
    exact Nat.add_le_add hflush (length_encode_le _)

/-- R129: in a pass `out_count` is far from wrapping. -/
theorem EncInv.outCount_lt {e : Enc} (h : EncInv e) (ha : e.state = .active) : e.outCount.toNat + 6 < 2 ^ 32 := by
  have hpace := (h.out_pace ha).2
  have hpos := h.pos_lt ha
  have hpix := h.npix_le
  simp only [Config.headerLen, Config.maxPixels] at hpace hpix
  omega

theorem encOutputOk_encPixel (px : Pixel) (s : State) (he : EncInv s.enc) (ha : s.enc.state = .active)
    (h : EncOutputOk s) : EncOutputOk (encPixel px s) := by
  have hlen := length_pixelBytes_le px s.enc
  have hlt := he.outCount_lt ha
  rw [encPixel_eq]
  exact h.append _ (by omega)

theorem length_headerBytes (w h : Word) : (headerBytes w h).length = 14 := rfl

/-- R110, R111: the new pass's stream is empty, or holds the header. -/
theorem encOutputOk_encStart (s : State) : EncOutputOk (encStart s) := by
  by_cases h : startAccepted s.ports
  · rw [encStart_accepted s h]
    exact (OutputOk.empty s.byteSink).append _ (by rw [length_headerBytes]; decide)
  · obtain ⟨c, -, -, he⟩ := encStart_rejected s h
    rw [he]
    exact OutputOk.empty s.byteSink

theorem encOutputOk_encStep (s : State) (he : EncInv s.enc) (h : EncOutputOk s) : EncOutputOk (encStep s) := by
  rcases encStep_cases s with ⟨px, ha, -, hs⟩ | ⟨-, -, hs⟩ | hs <;> rw [hs]
  · exact encOutputOk_encPixel px s he ha h
  · exact encOutputOk_encStart s
  · exact h

theorem encOutputOk_encTurn (s : State) (he : EncInv s.enc) (h : EncOutputOk s) : EncOutputOk (encTurn s) := by
  have hd := encOutputOk_drainBytes s h
  unfold encTurn
  dsimp only
  split
  · exact hd
  · exact encOutputOk_drainBytes _ (encOutputOk_encStep _ (by rwa [drainBytes_enc]) hd)

/-! ## DEC's output -/

/-- RASTER_OUT, its counters and the pixel sink are in order. -/
def DecOutputOk (s : State) : Prop := OutputOk s.mem.rasterOut s.dec.outCount s.decTaken s.pixelSink

theorem decOutputOk_drainPixels (s : State) (h : DecOutputOk s) : DecOutputOk (drainPixels s) := by
  unfold drainPixels
  split
  · exact h.drain
  · exact h

theorem decOutputOk_takePixel (s : State) (h : DecOutputOk s) : DecOutputOk (takePixel s) := by
  unfold takePixel
  split
  · split
    next p hp => exact h.take hp
    next => exact h
  · exact h

/-- CheckComplete touches neither the output nor its counters. -/
theorem decOutputOk_checkComplete (s : State) (h : DecOutputOk s) : DecOutputOk (checkComplete s) := by
  obtain ⟨st, c, he⟩ := checkComplete_eq s
  rw [he]
  exact h

/-- R148, R153: an opcode emits one pixel, or a run that fits, or nothing. -/
theorem decOutputOk_exec (i : Instr) (s t : State) (hlt : s.dec.outCount.toNat < s.dec.npix.toNat)
    (h : DecOutputOk s) (hx : exec i s = .next t) : DecOutputOk t := by
  have hnpix := s.dec.npix.isLt
  by_cases hr : ∃ l, i = .run l
  · obtain ⟨l, rfl⟩ := hr
    rcases exec_run_cases l s with ⟨-, he⟩ | ⟨hfit, he⟩ <;> rw [he] at hx <;> cases hx
    · exact h
    · exact decOutputOk_checkComplete _ (h.fill s.dec.prev (l.toNat + 1) (by omega))
  · rw [exec_pixelOpcode i s (fun l e => hr ⟨l, e⟩)] at hx
    cases hx
    exact decOutputOk_checkComplete _ (h.fill (opcodePixel i s.dec) 1 (by omega))

/-- R142: the header emits nothing. -/
theorem decOutputOk_decHeader (v : Byte) (s : State) (h : DecOutputOk s) : DecOutputOk (decHeader v s) := by
  unfold decHeader checkMagic
  split_ifs
  · exact h
  · exact h
  · obtain ⟨n, st, c, he⟩ := parseHeader_eq (keepHeaderByte v s)
    rw [he]
    exact h
  · exact h

theorem decOutputOk_decOp (v : Byte) (s t : State) (hlt : s.dec.outCount.toNat < s.dec.npix.toNat)
    (h : DecOutputOk s) (ht : decOp v s = .next t) : DecOutputOk t := by
  unfold decOp at ht
  dsimp only at ht
  split at ht
  next i _ _ => exact decOutputOk_exec i (consumeByte s) t hlt h ht
  next => cases ht; exact h

theorem decOutputOk_decArg (v : Byte) (s t : State) (hlt : s.dec.outCount.toNat < s.dec.npix.toNat)
    (h : DecOutputOk s) (ht : decArg v s = .next t) : DecOutputOk t := by
  unfold decArg at ht
  dsimp only at ht
  split at ht
  · split at ht
    next i _ _ => exact decOutputOk_exec i (takeOperand v (consumeByte s)) t hlt h ht
    next => cases ht; exact h
  · cases ht; exact h

/-- R141: in `OP` and `ARG` a pixel is still to come (`DecInv`), so `out_count` does not wrap. -/
theorem decOutputOk_decByte (v : Byte) (s t : State) (hd : DecInv s.dec) (h : DecOutputOk s)
    (ht : decByte v s = .next t) : DecOutputOk t := by
  unfold decByte at ht
  split at ht
  next => cases ht; exact decOutputOk_decHeader v s h
  next hs => exact decOutputOk_decOp v s t (hd.op_pos hs).2.1 h ht
  next hs => exact decOutputOk_decArg v s t (hd.arg_pos hs).2.1 h ht
  all_goals cases ht; exact h

theorem decOutputOk_decStep (s t : State) (hd : DecInv s.dec) (h : DecOutputOk s) (ht : decStep s = .next t) :
    DecOutputOk t := by
  rcases decStep_cases s with ⟨-, -, hs⟩ | ⟨v, -, -, -, hs⟩ | ⟨-, -, hs⟩ | hs <;> rw [hs] at ht
  · cases ht; exact h
  · exact decOutputOk_decByte v s t hd h ht
  · cases ht; exact OutputOk.empty s.pixelSink
  · cases ht; exact h

theorem decOutputOk_decTurn (s t : State) (hd : DecInv s.dec) (h : DecOutputOk s) (ht : decTurn s = .next t) :
    DecOutputOk t := by
  have hdrain := decOutputOk_drainPixels s h
  unfold decTurn at ht
  dsimp only at ht
  split at ht
  · cases ht; exact hdrain
  · cases hs : decStep (drainPixels s) with
    | next u =>
      rw [hs] at ht
      cases ht
      exact decOutputOk_drainPixels u (decOutputOk_decStep _ u (by rwa [drainPixels_dec]) hdrain hs)
    | fault r => cases r
    | refused r => rw [hs] at ht; cases ht

/-! ## Both agents and the input buffers -/

/-- The streams and the sinks, one stream at a time. -/
structure OutputsOk (s : State) : Prop where
  rasterIn : memWf s.mem.rasterIn = true
  bytesIn : memWf s.mem.bytesIn = true
  bytes : EncOutputOk s
  pixels : DecOutputOk s

theorem outputsOk_iff (s : State) : OutputsOk s ↔ StreamInv s ∧ SinkInv s := by
  constructor
  · intro ⟨hrin, hbin, hb, hp⟩
    exact ⟨⟨(Memory.wf_iff _).2 ⟨hrin, hb.wf, hbin, hp.wf⟩, hb.range, hp.range, hb.taken_le, hp.taken_le⟩,
      hb.sunk, hp.sunk⟩
  · intro ⟨hs, hk⟩
    obtain ⟨hrin, hbout, hbin, hrout⟩ := (Memory.wf_iff _).1 hs.wf
    exact ⟨hrin, hbin, ⟨hbout, hs.bytes_range, hs.encTaken_le, hk.bytes⟩,
      ⟨hrout, hs.pixels_range, hs.decTaken_le, hk.pixels⟩⟩

theorem outputsOk_agentTurn (a : Agent) (s t : State) (he : EncInv s.enc) (hd : DecInv s.dec) (h : OutputsOk s)
    (ht : agentTurn a s = .next t) : OutputsOk t := by
  cases a with
  | enc =>
    cases ht
    obtain ⟨hdec, hrout, htaken, hsink, hrin, hbin, -⟩ := encTurn_frame s
    refine ⟨by rw [hrin]; exact h.rasterIn, by rw [hbin]; exact h.bytesIn, encOutputOk_encTurn s he h.bytes, ?_⟩
    unfold DecOutputOk
    rw [hdec, hrout, htaken, hsink]
    exact h.pixels
  | dec =>
    obtain ⟨henc, hbout, htaken, hsink, hrin, hbin, -⟩ := decTurn_frame s t ht
    refine ⟨by rw [hrin]; exact h.rasterIn, by rw [hbin]; exact h.bytesIn, ?_,
      decOutputOk_decTurn s t hd h.pixels ht⟩
    unfold EncOutputOk
    rw [henc, hbout, htaken, hsink]
    exact h.bytes

/-- R200: a reset empties the output stream of each agent it names. -/
theorem outputsOk_hardwareReset (enc dec : Bool) (s : State) (h : OutputsOk s) :
    OutputsOk (hardwareReset enc dec s) := by
  have hb := OutputOk.empty s.byteSink
  have hp := OutputOk.empty s.pixelSink
  cases enc <;> cases dec
  · exact h
  · exact ⟨h.rasterIn, h.bytesIn, h.bytes, hp⟩
  · exact ⟨h.rasterIn, h.bytesIn, hb, h.pixels⟩
  · exact ⟨h.rasterIn, h.bytesIn, hb, hp⟩

theorem outputsOk_takeByte (s : State) (h : OutputsOk s) : OutputsOk (takeByte s) := by
  have hb := encOutputOk_takeByte s h.bytes
  obtain ⟨sink, taken, ht⟩ := takeByte_eq s
  rw [ht] at hb ⊢
  exact ⟨h.rasterIn, h.bytesIn, hb, h.pixels⟩

theorem outputsOk_takePixel (s : State) (h : OutputsOk s) : OutputsOk (takePixel s) := by
  have hp := decOutputOk_takePixel s h.pixels
  obtain ⟨sink, taken, ht⟩ := takePixel_eq s
  rw [ht] at hp ⊢
  exact ⟨h.rasterIn, h.bytesIn, h.bytes, hp⟩

theorem outputsOk_doMove (m : Move) (s t : State) (he : EncInv s.enc) (hd : DecInv s.dec) (h : OutputsOk s)
    (ht : doMove m s = .next t) : OutputsOk t := by
  have hports : ∀ p : Ports, OutputsOk { s with ports := p } :=
    fun _ => ⟨h.rasterIn, h.bytesIn, h.bytes, h.pixels⟩
  cases m with
  | turn a => exact outputsOk_agentTurn a s t he hd h ht
  | rst enc dec => cases ht; exact outputsOk_hardwareReset enc dec s h
  | takeByte => cases ht; exact outputsOk_takeByte s h
  | takePixel => cases ht; exact outputsOk_takePixel s h
  | putPixel i p => cases ht; exact ⟨memWf_memWrite _ _ _ h.rasterIn, h.bytesIn, h.bytes, h.pixels⟩
  | putByte i v => cases ht; exact ⟨h.rasterIn, memWf_memWrite _ _ _ h.bytesIn, h.bytes, h.pixels⟩
  | driveEncStart | driveEncPxValid | driveEncOutReady | driveDecStart | driveDecInValid | driveDecPxReady =>
    cases ht; exact hports _

/-- The agenda and the turn are no part of the streams and the sinks. -/
theorem outputsOk_step (s t : State) (he : EncInv s.enc) (hd : DecInv s.dec) (h : OutputsOk s)
    (ht : step s = .next t) : OutputsOk t := by
  cases ha : s.agenda with
  | nil =>
    rw [step_nil s ha] at ht
    exact outputsOk_agentTurn _ { s with turn := s.turn.other } t he hd
      ⟨h.rasterIn, h.bytesIn, h.bytes, h.pixels⟩ ht
  | cons m moves =>
    rw [step_cons s m moves ha] at ht
    exact outputsOk_doMove m { s with agenda := moves } t he hd
      ⟨h.rasterIn, h.bytesIn, h.bytes, h.pixels⟩ ht

/-- Settles O60: the invariant of each output stream is kept by every operation that emits into it or takes from it,
and neither count wraps, by the bounds of `EncInv` and `DecInv`. -/
theorem stepKeepsStreamsAndSinks : Obligations.StepKeepsStreamsAndSinks := fun s t hi ht =>
  (outputsOk_iff t).1 (outputsOk_step s t hi.enc hi.dec ((outputsOk_iff s).2 ⟨hi.streams, hi.sinks⟩) ht)

end Sys2Proof.Machine
end

section
/-! PROOFS. What a step can do, said once (spec/00_scope.md R5, spec/10_state.md R40, R43, R200). -/

namespace Sys2Proof.Machine

theorem step_encTurn (s : State) (moves : List Move) (ha : s.agenda = .turn .enc :: moves) :
    step s = .next (encTurn { s with agenda := moves }) :=
  step_cons s _ moves ha

theorem step_decTurn (s : State) (moves : List Move) (ha : s.agenda = .turn .dec :: moves) :
    step s = decTurn { s with agenda := moves } :=
  step_cons s _ moves ha

theorem run_one (s : State) : Host.Core.run Sys2Proof.core 1 s = step s := by
  cases h : step s with
  | next t => exact run_cons s t 0 h
  | fault r => cases r
  | refused r => simp [Host.Core.run, Sys2Proof.core, h]

/-- R141: DEC's step answers a next state. -/
theorem decStep_next (s : State) : ∃ t, decStep s = .next t := by
  rcases decStep_cases s with ⟨-, -, hs⟩ | ⟨v, -, -, -, hs⟩ | ⟨-, -, hs⟩ | hs <;> rw [hs]
  · exact ⟨_, rfl⟩
  · obtain ⟨t, ht, -⟩ := decByte_next v s
    exact ⟨t, ht⟩
  · exact ⟨_, rfl⟩
  · exact ⟨_, rfl⟩

/-- R141, R43: DEC's turn answers a next state. -/
theorem decTurn_next (s : State) : ∃ t, decTurn s = .next t := by
  unfold decTurn
  dsimp only
  split
  · exact ⟨_, rfl⟩
  · obtain ⟨t, ht⟩ := decStep_next (drainPixels s)
    rw [ht]
    exact ⟨_, rfl⟩

/-- R209: the model's own bookkeeping of whose move comes next, which no agent reads. -/
def scheduled (moves : List Move) (a : Agent) (s : State) : State := { s with agenda := moves, turn := a }

/-- R40, R41, R72: the host acts on its own ports and input buffers. -/
def hostDrives (p : Ports) (rasterIn : List (Nat × Pixel)) (bytesIn : List Host.Cell) (s : State) : State :=
  { s with ports := p, mem.rasterIn := rasterIn, mem.bytesIn := bytesIn }

theorem agentTurn_cases (a : Agent) (s t : State) (h : agentTurn a s = .next t) :
    t = encTurn s ∨ decTurn s = .next t := by
  cases a with
  | enc => cases h; exact .inl rfl
  | dec => exact .inr h

theorem doMove_cases (m : Move) (s t : State) (h : doMove m s = .next t) :
    t = encTurn s ∨ decTurn s = .next t ∨ (∃ e d, m = .rst e d ∧ t = hardwareReset e d s) ∨
      t = takeByte s ∨ t = takePixel s ∨ ∃ p rin bin, t = hostDrives p rin bin s := by
  cases m with
  | turn a => exact (agentTurn_cases a s t h).imp_right .inl
  | rst e d => cases h; exact .inr (.inr (.inl ⟨e, d, rfl, rfl⟩))
  | takeByte => cases h; exact .inr (.inr (.inr (.inl rfl)))
  | takePixel => cases h; exact .inr (.inr (.inr (.inr (.inl rfl))))
  | driveEncStart | driveEncPxValid | driveEncOutReady | driveDecStart | driveDecInValid | driveDecPxReady
  | putPixel | putByte =>
    cases h; exact .inr (.inr (.inr (.inr (.inr ⟨_, _, _, rfl⟩))))

/-- R5: a step is a turn of ENC, a turn of DEC, a hardware reset the agenda names, the transfer of one item, or an
action of the host. -/
theorem step_cases (s t : State) (h : step s = .next t) : ∃ r moves a, r = scheduled moves a s ∧
    (t = encTurn r ∨ decTurn r = .next t ∨
      (∃ e d, s.agenda.head? = some (.rst e d) ∧ t = hardwareReset e d r) ∨
      t = takeByte r ∨ t = takePixel r ∨ ∃ p rin bin, t = hostDrives p rin bin r) := by
  cases ha : s.agenda with
  | nil =>
    rw [step_nil s ha] at h
    refine ⟨_, s.agenda, s.turn.other, rfl, ?_⟩
    exact (agentTurn_cases _ _ t h).imp_right .inl
  | cons m moves =>
    rw [step_cons s m moves ha] at h
    refine ⟨_, moves, s.turn, rfl, ?_⟩
    simpa [scheduled] using doMove_cases m _ t h

/-! ## What a step leaves of each agent's registers -/

theorem hardwareReset_enc (e d : Bool) (s : State) :
    (hardwareReset e d s).enc = if e then Enc.atReset (Config.unspecifiedCache s.draws) else s.enc := by
  cases e <;> cases d <;> rfl

theorem hardwareReset_dec (e d : Bool) (s : State) :
    (hardwareReset e d s).dec = s.dec ∨ ∃ c, (hardwareReset e d s).dec = Dec.atReset c := by
  cases e <;> cases d
  · exact .inl rfl
  · exact .inr ⟨_, rfl⟩
  · exact .inl rfl
  · exact .inr ⟨_, rfl⟩

/-- R20, R200: ENC's registers are written by ENC's turn and by a hardware reset only. -/
theorem step_enc_cases (s t : State) (h : step s = .next t) :
    t.enc = s.enc ∨ (∃ c, t.enc = Enc.atReset c) ∨ ∃ moves a, t = encTurn (scheduled moves a s) := by
  obtain ⟨r, moves, a, rfl, h⟩ := step_cases s t h
  rcases h with h | h | ⟨e, d, -, rfl⟩ | rfl | rfl | ⟨p, rin, bin, rfl⟩
  · exact .inr (.inr ⟨moves, a, h⟩)
  · exact .inl (decTurn_frame _ t h).1
  · rw [hardwareReset_enc]
    cases e
    · exact .inl rfl
    · exact .inr (.inl ⟨_, rfl⟩)
  · obtain ⟨sink, taken, ht⟩ := takeByte_eq (scheduled moves a s)
    rw [ht]
    exact .inl rfl
  · obtain ⟨sink, taken, ht⟩ := takePixel_eq (scheduled moves a s)
    rw [ht]
    exact .inl rfl
  · exact .inl rfl

/-- R20, R200: DEC's registers are written by DEC's turn and by a hardware reset only. -/
theorem step_dec_cases (s t : State) (h : step s = .next t) :
    t.dec = s.dec ∨ (∃ c, t.dec = Dec.atReset c) ∨ ∃ moves a, decTurn (scheduled moves a s) = .next t := by
  obtain ⟨r, moves, a, rfl, h⟩ := step_cases s t h
  rcases h with rfl | h | ⟨e, d, -, rfl⟩ | rfl | rfl | ⟨p, rin, bin, rfl⟩
  · exact .inl (encTurn_frame _).1
  · exact .inr (.inr ⟨moves, a, h⟩)
  · exact (hardwareReset_dec e d (scheduled moves a s)).imp_right .inl
  · obtain ⟨sink, taken, ht⟩ := takeByte_eq (scheduled moves a s)
    rw [ht]
    exact .inl rfl
  · obtain ⟨sink, taken, ht⟩ := takePixel_eq (scheduled moves a s)
    rw [ht]
    exact .inl rfl
  · exact .inl rfl

end Sys2Proof.Machine
end

section
/-! PROOFS. Every step keeps ENC's invariant (spec/10_state.md R25, R26, spec/41_encoder.md R110, R123, R129). -/

namespace Sys2Proof.Machine

theorem encInv_atReset (c : Cache) : EncInv (Enc.atReset c) := by
  constructor <;> simp [Enc.atReset]

/-- R112: the last pixel is the one whose step completes the count. -/
theorem lastPixel_iff (e : Enc) : lastPixel e = true ↔ e.pxPos + 1 = e.npix := by
  rw [lastPixel, decide_eq_true_iff, eq_sub_iff_add_eq]

theorem length_encode_pos (i : Instr) : 0 < (encode i).length := by
  cases i <;> simp [encode]

/-- R113, R114, R129: a pixel step closes the run with a byte at least and, beside the run's own byte, an opcode of at
most five; or it lengthens the run by one and emits nothing, which is not at the last pixel. -/
theorem pixelStep_cost (px : Pixel) (e : Enc) (hrun : e.run.toNat ≤ 61) :
    ((pixelRegs px e).run = 0 ∧ 0 < (pixelBytes px e).length ∧ (pixelBytes px e).length ≤ 5 + e.run.toNat) ∨
    ((pixelRegs px e).run.toNat = e.run.toNat + 1 ∧ (pixelRegs px e).run.toNat ≤ 61 ∧
      (pixelBytes px e).length = 0 ∧ lastPixel e = false) := by
  by_cases hp : px = e.prev
  · by_cases hc : runCloses e = true
    · left
      have hone : (runByte (e.run + 1)).length = 1 := rfl
      simp only [pixelRegs, pixelBytes, if_pos hp, if_pos hc, true_and]
      omega
    · right
      have hrun' : (e.run + 1).toNat = e.run.toNat + 1 := by
        rw [BitVec.toNat_add]
        simp
        omega
      obtain ⟨hmax, hlast⟩ : e.run + 1 ≠ Config.runMax ∧ lastPixel e = false := by
        simpa [runCloses] using hc
      have hne : e.run.toNat + 1 ≠ 62 := fun h => hmax (BitVec.eq_of_toNat_eq (hrun'.trans h))
      simp only [pixelRegs, pixelBytes, if_pos hp, if_neg hc, hrun', hlast, List.length_nil, and_true, true_and]
      omega
  · left
    have hflush : (if e.run ≠ 0 then runByte e.run else []).length ≤ e.run.toNat := by
      by_cases h0 : e.run = 0
      · simp [h0]
      · have hpos : e.run.toNat ≠ 0 := fun h => h0 (BitVec.eq_of_toNat_eq h)
        rw [if_pos h0]
        exact Nat.one_le_iff_ne_zero.2 hpos
    simp only [pixelRegs, pixelBytes, if_neg hp, ← apply_ite encode, List.length_append, true_and]
    have hle := length_encode_le
      (if lookup e.cache (pixelHash px) = px then .index (pixelHash px) else missOpcode px e.prev)
    have hpos := length_encode_pos
      (if lookup e.cache (pixelHash px) = px then .index (pixelHash px) else missOpcode px e.prev)
    omega

/-- R106: a pixel step stores nothing, or a pixel in its own slot. -/
theorem cacheOk_pixelRegs (px : Pixel) (e : Enc) (h : cacheOk e.cache) : cacheOk (pixelRegs px e).cache := by
  unfold pixelRegs
  dsimp only
  split_ifs
  · exact h
  · exact h
  · exact cacheOk_store _ _ h

/-- R123, R129: in a pass, the position and the output after a pixel step, which closes the run at the last pixel. -/
theorem pixelStep_bounds (px : Pixel) (e : Enc) (h : EncInv e) (ha : e.state = .active) :
    (pixelRegs px e).pxPos.toNat = e.pxPos.toNat + 1 ∧ (pixelRegs px e).run.toNat ≤ 61 ∧
      14 ≤ (pixelRegs px e).outCount.toNat ∧
      (pixelRegs px e).outCount.toNat + 5 * (pixelRegs px e).run.toNat ≤ 14 + 5 * (pixelRegs px e).pxPos.toNat ∧
      (e.pxPos + 1 = e.npix → (pixelRegs px e).run = 0 ∧ 14 < (pixelRegs px e).outCount.toNat) := by
  have hlt := h.outCount_lt ha
  have hlen := length_pixelBytes_le px e
  obtain ⟨hhdr, hpace⟩ := h.out_pace ha
  have hpx : (pixelRegs px e).pxPos.toNat = e.pxPos.toNat + 1 :=
    toNat_add_ofNat_of_lt _ 1 (lt_of_le_of_lt (h.pos_lt ha) e.npix.isLt)
  have hout : (pixelRegs px e).outCount.toNat = e.outCount.toNat + (pixelBytes px e).length :=
    toNat_add_ofNat_of_lt _ _ (by omega)
  simp only [Config.headerLen] at hhdr hpace
  obtain ⟨hrun, hpos, hle⟩ | ⟨hrun, hmax, hnone, hlast⟩ := pixelStep_cost px e h.run_le
  · have hzero : (pixelRegs px e).run.toNat = 0 := by rw [hrun]; rfl
    exact ⟨hpx, by omega, by omega, by omega, fun _ => ⟨hrun, by omega⟩⟩
  · refine ⟨hpx, hmax, by omega, by omega, fun hl => ?_⟩
    rw [(lastPixel_iff e).2 hl] at hlast
    cases hlast

/-- R182: no cause is held while a pass runs. -/
theorem EncInv.errCause_of_active {e : Enc} (h : EncInv e) (ha : e.state = .active) : e.errCause = .none := by
  by_contra hc
  have he := h.cause_iff.2 hc
  rw [ha] at he
  cases he

theorem encInv_pixelRegs (px : Pixel) (e : Enc) (h : EncInv e) (ha : e.state = .active) :
    EncInv (pixelRegs px e) := by
  obtain ⟨hpx, hrun, hhdr, hpace, hlast⟩ := pixelStep_bounds px e h ha
  have hpos := h.pos_lt ha
  have hcause := h.errCause_of_active ha
  have hstate : (pixelRegs px e).state = if e.pxPos + 1 = e.npix then .done else .active := by
    rw [← ha]
    rfl
  have hends : (pixelRegs px e).state ≠ .active → e.pxPos + 1 = e.npix := fun hn =>
    by_contra fun hl => hn (hstate.trans (if_neg hl))
  have hgoesOn : (pixelRegs px e).state = .active → (pixelRegs px e).pxPos.toNat < e.npix.toNat := fun hs => by
    have hne : (pixelRegs px e).pxPos.toNat ≠ e.npix.toNat := fun he => by
      cases hs.symm.trans (hstate.trans (if_pos (BitVec.eq_of_toNat_eq he)))
    omega
  have hdone : (pixelRegs px e).state = .done → e.pxPos + 1 = e.npix := fun hd => hends (by simp [hd])
  exact
    { run_le := hrun
      run_closed := fun hn => (hlast (hends hn)).1
      cause_iff := iff_of_false (by rw [hstate]; split <;> simp) (not_not.2 hcause)
      cause_kind := .inl hcause
      npix_le := h.npix_le
      out_le := (by omega : (pixelRegs px e).outCount.toNat ≤ 14 + 5 * e.npix.toNat)
      dims := fun _ => h.dims (.inl ha)
      pos_lt := hgoesOn
      out_pace := fun _ => ⟨hhdr, hpace⟩
      done_pos := fun hd => ⟨hdone hd, (hlast (hdone hd)).2⟩
      cache_ok := fun _ => cacheOk_pixelRegs px e (h.cache_ok ha) }

/-- R110, R144: with dimensions that pass, the pixel count fits its register and is not zero. -/
theorem pixelCount_of_goodDims (w h : Word) (hw : w ≠ 0) (hh : h ≠ 0) (hn : w.toNat * h.toNat ≤ Config.maxPixels) :
    (BitVec.ofNat 32 (w.toNat * h.toNat)).toNat = w.toNat * h.toNat ∧ 0 < w.toNat * h.toNat := by
  have hpos : ∀ v : Word, v ≠ 0 → 0 < v.toNat := fun v hv =>
    Nat.pos_of_ne_zero fun h0 => hv (BitVec.eq_of_toNat_eq h0)
  exact ⟨by rw [BitVec.toNat_ofNat, Nat.mod_eq_of_lt (lt_of_le_of_lt hn (by decide))],
    Nat.mul_pos (hpos w hw) (hpos h hh)⟩

/-- R110: a start that passes opens a pass with the header out; one that fails leaves no run open and no output. -/
theorem encInv_encStart (s : State) (h : EncInv s.enc) (ha : s.enc.state ≠ .active) : EncInv (encStart s).enc := by
  by_cases hs : startAccepted s.ports
  · have ⟨hw, hh, hn⟩ := hs
    obtain ⟨hcount, hpos⟩ := pixelCount_of_goodDims _ _ hw hh hn
    rw [encStart_accepted s hs]
    constructor <;> simp [hcount, hpos, hn, cacheOk_cacheReset, Config.headerLen]
  · obtain ⟨c, hzero, hmany, hc⟩ := encStart_rejected s hs
    have hkind : c = .preZeroDim ∨ c = .preTooManyPixels := (em _).imp hzero hmany
    have hne : c ≠ .none := by rintro rfl; simp at hkind
    have hrun := h.run_closed ha
    rw [hc]
    constructor <;> simp [startedRegs, hkind, hne, hrun]

theorem encInv_encTurn (s : State) (h : EncInv s.enc) : EncInv (encTurn s).enc := by
  have hd : EncInv (drainBytes s).enc := by rwa [drainBytes_enc]
  unfold encTurn
  dsimp only
  split
  · exact hd
  · rw [drainBytes_enc]
    rcases encStep_cases (drainBytes s) with ⟨px, ha, -, hs⟩ | ⟨ha, -, hs⟩ | hs <;> rw [hs]
    · rw [encPixel_eq]
      exact encInv_pixelRegs px _ hd ha
    · exact encInv_encStart _ hd ha
    · exact hd

/-- Settles O58: only ENC's turn and a reset write its registers, and of the turn's steps the pixel step is the one
that has to keep a count: each pixel costs at most five bytes, a pixel of the open run none yet. -/
theorem stepKeepsEncoderInvariant : Obligations.StepKeepsEncoderInvariant := by
  intro s t h ht
  obtain he | ⟨c, he⟩ | ⟨moves, a, rfl⟩ := step_enc_cases s t ht
  · rwa [he]
  · rw [he]
    exact encInv_atReset c
  · exact encInv_encTurn (scheduled moves a s) h

end Sys2Proof.Machine
end

section
/-! PROOFS. The bytes of an opcode, read one at a time and decoded (spec/30_encoding.md R81, spec/42_decoder.md R145,
R152). -/

namespace Sys2Proof.Machine

/-- Every well-formed opcode is read back from its bytes, whatever follows. -/
theorem decode_encode (i : Instr) (rest : List Byte) (h : i.wellFormed = true) :
    decode (encode i ++ rest) = .ok (i, rest) := by
  cases i with
  | index i => exact decode_tagged_index i rest
  | diff rr gg bb => exact decode_tagged_diff rr gg bb rest
  | luma g rrrr bbbb =>
    refine (decode_tagged_luma g (rrrr ++ bbbb) rest).trans ?_
    rw [highNibble_append, lowNibble_append]
  | run l => exact decode_tagged_run l (of_decide_eq_true h) rest
  | rgb r g b => exact decode_rgb r g b rest
  | rgba r g b a => exact decode_rgba r g b a rest

/-- R145: a first byte alone is an opcode, or it opens one that takes operands. -/
theorem decode_firstByte (v : Byte) :
    (∃ i, decode [v] = .ok (i, []) ∧ pendingOf v = .none) ∨
      (decode [v] = .error .truncated ∧ pendingOf v ≠ .none) := by
  unfold decode pendingOf
  rcases tag_cases (tagOf v) with ht | ht | ht | ht <;> simp only [ht] <;> split_ifs <;> simp_all

theorem operandCount_le (p : PendingOp) : operandCount p ≤ 4 := by
  cases p <;> decide

theorem operandCount_pos (p : PendingOp) (h : p ≠ .none) : 0 < operandCount p := by
  cases p with
  | none => exact absurd rfl h
  | rgb | rgba | luma => decide

/-- R152: `argc` does not wrap while one of the four operand places is free. -/
theorem argc_succ (c : BitVec 3) (h : c.toNat < 4) : (c + 1).toNat = c.toNat + 1 := by
  have hsum : c.toNat + 1 < 2 ^ 3 := by omega
  rw [BitVec.toNat_add]
  exact Nat.mod_eq_of_lt hsum

/-- R152: an operand byte kept follows the bytes read before it. -/
theorem collectedBytes_takeOperand (v : Byte) (s : State) (h : s.dec.argc.toNat < 4) :
    collectedBytes (takeOperand v s).dec = collectedBytes s.dec ++ [v] := by
  have hfirst : pendingFirstByte (takeOperand v s).dec = pendingFirstByte s.dec := rfl
  unfold collectedBytes
  rw [hfirst, takeOperand_dec_argc, takeOperand_dec_arg, argc_succ _ h, List.cons_append]
  congr 1
  have hlen : s.dec.argc.toNat < s.dec.arg.toList.length := by simpa using h
  rw [Vector.toList_setIfInBounds, List.take_add_one, List.take_set_of_le (le_refl _), List.getElem?_set_self hlen]
  rfl

theorem arg_toList (d : Dec) : ∃ a b c e, d.arg.toList = [a, b, c, e] := by
  match d.arg.toList, d.arg.length_toList with
  | [a, b, c, e], _ => exact ⟨a, b, c, e, rfl⟩

/-- R152: the bytes of a pending opcode, all read, are that opcode, which is never a RUN. -/
theorem decode_collectedBytes (d : Dec) (h : operandsComplete d = true) :
    ∃ i, decode (collectedBytes d) = .ok (i, []) ∧ ∀ l, i ≠ .run l := by
  obtain ⟨hop, hargc⟩ : d.op ≠ .none ∧ d.argc.toNat = operandCount d.op := by
    simpa [operandsComplete] using h
  obtain ⟨a, b, c, e, harg⟩ := arg_toList d
  unfold collectedBytes pendingFirstByte
  rw [hargc, harg]
  cases ho : d.op with
  | none => exact absurd ho hop
  | rgb => exact ⟨_, decode_rgb a b c [], nofun⟩
  | rgba => exact ⟨_, decode_rgba a b c e [], nofun⟩
  | luma => exact ⟨_, decode_tagged_luma _ a [], nofun⟩

end Sys2Proof.Machine
end

section
/-! PROOFS. Every step keeps DEC's invariant (spec/10_state.md R29, spec/42_decoder.md R142 to R154, R156). -/

namespace Sys2Proof.Machine

theorem decInv_atReset (c : Cache) : DecInv (Dec.atReset c) := by
  constructor <;> simp [Dec.atReset, DecState.busy]

/-- R140: a pass starts with nothing read, nothing counted and every slot `BLACK`. -/
theorem decInv_decStart (s : State) : DecInv (decStart s).dec := by
  constructor <;> simp [decStart, Config.headerLen, cacheOk_cacheReset]

/-- R180, R182: entering `ERROR` with a FormatError, whatever the pass had reached within its bounds. -/
theorem decInv_raise (c : Cause) (s : State) (hpos : s.dec.inPos.toNat ≤ s.dec.inLen.toNat)
    (hout : s.dec.outCount.toNat ≤ s.dec.npix.toNat) (hnpix : s.dec.npix.toNat ≤ Config.maxPixels)
    (hc : c ≠ .none ∧ c ≠ .preZeroDim ∧ c ≠ .preTooManyPixels) : DecInv (raise .dec c s).dec := by
  constructor <;> simp [hpos, hout, hnpix, hc, DecState.busy]

/-- What holds of DEC's registers inside a pass with its header read: before, during and after an opcode that has not
been found to end the pass. -/
structure PassOpen (d : Dec) : Prop where
  pos_le : d.inPos.toNat ≤ d.inLen.toNat
  header_read : Config.headerLen ≤ d.inPos.toNat
  out_le : d.outCount.toNat ≤ d.npix.toNat
  npix_le : d.npix.toNat ≤ Config.maxPixels
  cause : d.errCause = .none
  dims : d.npix.toNat = d.width.toNat * d.height.toNat ∧ 0 < d.npix.toNat
  cache_ok : cacheOk d.cache

/-- The invariant inside a pass with its header read, from what each of its three states asks for beside that. -/
theorem PassOpen.decInv {d : Dec} (h : PassOpen d) (hs : d.state = .op ∨ d.state = .arg ∨ d.state = .done)
    (hop : d.state = .op → d.outCount.toNat < d.npix.toNat ∧ d.op = .none)
    (harg : d.state = .arg → Config.headerLen < d.inPos.toNat ∧ d.outCount.toNat < d.npix.toNat ∧ d.op ≠ .none ∧
      d.op = pendingOf d.opByte ∧ d.argc.toNat < operandCount d.op)
    (hdone : d.state = .done → d.outCount = d.npix ∧ d.inPos = d.inLen) : DecInv d where
  pos_le := h.pos_le
  out_le := h.out_le
  npix_le := h.npix_le
  cause_iff := iff_of_false (by rcases hs with hs | hs | hs <;> simp [hs]) (not_not.2 h.cause)
  cause_kind := by simp [h.cause]
  hdr_pos hh := by simp [hh] at hs
  op_pos ho := ⟨h.header_read, hop ho⟩
  arg_pos := harg
  dims _ := h.dims
  done_pos := hdone
  cache_ok _ := h.cache_ok

/-- R154: between two opcodes the check for the end leaves the pass running, complete, or in `ERROR`. -/
theorem decInv_checkComplete (s : State) (h : PassOpen s.dec) (hs : s.dec.state = .op) (hop : s.dec.op = .none) :
    DecInv (checkComplete s).dec := by
  rcases checkComplete_cases s with ⟨hne, hc⟩ | ⟨heq, hend, hc⟩ | ⟨-, -, hc⟩ <;> rw [hc]
  · have hlt : s.dec.outCount.toNat < s.dec.npix.toNat :=
      lt_of_le_of_ne h.out_le fun he => hne (BitVec.eq_of_toNat_eq he)
    exact h.decInv (.inl hs) (fun _ => ⟨hlt, hop⟩) (by simp [hs]) (by simp [hs])
  · have hdone : PassOpen { s.dec with state := .done } := { h with }
    exact hdone.decInv (by simp) (by simp) (by simp) fun _ => ⟨heq, hend⟩
  · exact decInv_raise _ s h.pos_le h.out_le h.npix_le (by decide)

/-- R148, R153: an opcode, all of whose bytes have been read, emits no more pixels than the pass has left. RUN, which
does not write `op` and `state`, runs in `OP` only. -/
theorem decInv_exec (i : Instr) (s t : State) (h : PassOpen s.dec) (hlt : s.dec.outCount.toNat < s.dec.npix.toNat)
    (hrun : (∀ l, i ≠ .run l) ∨ s.dec.state = .op ∧ s.dec.op = .none) (ht : exec i s = .next t) : DecInv t.dec := by
  have hnpix := s.dec.npix.isLt
  by_cases hi : ∃ l, i = .run l
  · obtain ⟨l, rfl⟩ := hi
    obtain ⟨hs, hop⟩ := hrun.resolve_left fun hn => hn l rfl
    rcases exec_run_cases l s with ⟨-, he⟩ | ⟨hfit, he⟩ <;> rw [he] at ht <;> cases ht
    · exact decInv_raise _ s h.pos_le h.out_le h.npix_le (by decide)
    · have hcount := toNat_add_ofNat_of_lt s.dec.outCount (l.toNat + 1) (by omega)
      exact decInv_checkComplete (runEmitted (l.toNat + 1) s) { h with out_le := hcount.trans_le hfit } hs hop
  · rw [exec_pixelOpcode i s fun l e => hi ⟨l, e⟩] at ht
    cases ht
    have hcount := toNat_add_ofNat_of_lt s.dec.outCount 1 (by omega)
    exact decInv_checkComplete (pixelFinished (opcodePixel i s.dec) s)
      { h with out_le := hcount.trans_le hlt, cache_ok := cacheOk_store _ _ h.cache_ok } rfl rfl

/-! ## The steps that read a byte -/

/-- R29: a byte that is read was within the input. -/
theorem inPos_succ (d : Dec) (hlt : d.inPos.toNat < d.inLen.toNat) : (d.inPos + 1).toNat = d.inPos.toNat + 1 :=
  toNat_add_ofNat_of_lt _ 1 (lt_of_le_of_lt hlt d.inLen.isLt)

/-- R182: no cause is held while a pass runs. -/
theorem DecInv.errCause_of_ne_error {d : Dec} (h : DecInv d) (hs : d.state ≠ .error) : d.errCause = .none := by
  by_contra hc
  exact hs (h.cause_iff.2 hc)

theorem passOpen_consumeByte (s : State) (h : DecInv s.dec) (hs : s.dec.state = .op ∨ s.dec.state = .arg)
    (hlt : s.dec.inPos.toNat < s.dec.inLen.toNat) :
    PassOpen (consumeByte s).dec ∧ Config.headerLen < (consumeByte s).dec.inPos.toNat ∧
      s.dec.outCount.toNat < s.dec.npix.toNat := by
  have hpos := inPos_succ s.dec hlt
  have hread : Config.headerLen ≤ s.dec.inPos.toNat ∧ s.dec.outCount.toNat < s.dec.npix.toNat := by
    rcases hs with hs | hs
    · exact ⟨(h.op_pos hs).1, (h.op_pos hs).2.1⟩
    · exact ⟨(h.arg_pos hs).1.le, (h.arg_pos hs).2.1⟩
  have hcause := h.errCause_of_ne_error (by rcases hs with hs | hs <;> simp [hs])
  have hbusy : s.dec.state.busy = true := by rcases hs with hs | hs <;> rw [hs] <;> rfl
  have hpast : Config.headerLen < (consumeByte s).dec.inPos.toNat := by
    rw [consumeByte_dec_inPos]
    omega
  exact ⟨{ pos_le := hpos.trans_le hlt
           header_read := hpast.le
           out_le := h.out_le
           npix_le := h.npix_le
           cause := hcause
           dims := h.dims (hs.imp_right .inl)
           cache_ok := h.cache_ok hbusy }, hpast, hread.2⟩

/-- R142: a header byte that is not the last leaves DEC in the header. -/
theorem decInv_keepHeaderByte (v : Byte) (s : State) (h : DecInv s.dec) (hs : s.dec.state = .hdr)
    (hlt : s.dec.inPos.toNat < s.dec.inLen.toNat) (hmore : s.dec.inPos.toNat ≠ 13) :
    DecInv (keepHeaderByte v s).dec := by
  obtain ⟨hpos, hout, hop⟩ := h.hdr_pos hs
  have hnext := inPos_succ s.dec hlt
  simp only [Config.headerLen] at hpos
  exact
    { h with
      pos_le := hnext.trans_le hlt
      hdr_pos := fun _ => ⟨hnext.trans_lt (by simp only [Config.headerLen]; omega), hout, hop⟩
      op_pos := by simp [hs]
      arg_pos := by simp [hs]
      done_pos := by simp [hs] }

/-- R144: the last header byte opens the opcode stream, or ends the pass where the dimensions are bad. -/
theorem decInv_parseHeader (v : Byte) (s : State) (h : DecInv s.dec) (hs : s.dec.state = .hdr)
    (hlt : s.dec.inPos.toNat < s.dec.inLen.toNat) (hlast : s.dec.inPos.toNat = 13) :
    DecInv (parseHeader (keepHeaderByte v s)).dec := by
  obtain ⟨-, hout, hop⟩ := h.hdr_pos hs
  have hnext := inPos_succ s.dec hlt
  unfold parseHeader
  dsimp only
  split
  next => exact decInv_raise _ _ (hnext.trans_le hlt) h.out_le h.npix_le (by decide)
  next hgood =>
    obtain ⟨hw, hh, hn⟩ := not_or.1 hgood |>.imp_right not_or.1
    obtain ⟨hcount, hpos⟩ := pixelCount_of_goodDims _ _ hw hh (not_lt.1 hn)
    have hzero : s.dec.outCount.toNat = 0 := by rw [hout]; rfl
    refine PassOpen.decInv
      { pos_le := hnext.trans_le hlt
        header_read := (by omega : 14 ≤ (s.dec.inPos + 1).toNat)
        out_le := hzero.trans_le (Nat.zero_le _)
        npix_le := hcount.trans_le (not_lt.1 hn)
        cause := h.errCause_of_ne_error (by simp [hs])
        dims := ⟨hcount, hpos.trans_eq hcount.symm⟩
        cache_ok := h.cache_ok (by rw [hs]; rfl) }
      (.inl rfl) (fun _ => ⟨hzero.trans_lt (hpos.trans_eq hcount.symm), hop⟩) nofun nofun

theorem decInv_decHeader (v : Byte) (s : State) (h : DecInv s.dec) (hs : s.dec.state = .hdr)
    (hlt : s.dec.inPos.toNat < s.dec.inLen.toNat) : DecInv (decHeader v s).dec := by
  unfold decHeader
  split
  next h3 =>
    have hkeep := decInv_keepHeaderByte v s h hs hlt (by simp [h3])
    unfold checkMagic
    split
    · exact decInv_raise _ _ hkeep.pos_le hkeep.out_le hkeep.npix_le (by decide)
    · exact hkeep
  next =>
    split
    next h13 => exact decInv_parseHeader v s h hs hlt (by simp [h13])
    next h13 => exact decInv_keepHeaderByte v s h hs hlt fun he => h13 (BitVec.eq_of_toNat_eq he)

theorem decInv_decOp (v : Byte) (s t : State) (h : DecInv s.dec) (hs : s.dec.state = .op)
    (hlt : s.dec.inPos.toNat < s.dec.inLen.toNat) (ht : decOp v s = .next t) : DecInv t.dec := by
  obtain ⟨hopen, hread, hcount⟩ := passOpen_consumeByte s h (.inl hs) hlt
  unfold decOp at ht
  rcases decode_firstByte v with ⟨i, hd, -⟩ | ⟨hd, hpend⟩ <;> rw [hd] at ht
  · exact decInv_exec i (consumeByte s) t hopen hcount (.inr ⟨hs, (h.op_pos hs).2.2⟩) ht
  · cases ht
    have harg : PassOpen (openOpcode v (consumeByte s)).dec := { hopen with }
    exact harg.decInv (.inr (.inl rfl)) nofun
      (fun _ => ⟨hread, hcount, hpend, rfl, operandCount_pos _ hpend⟩) nofun

theorem decInv_decArg (v : Byte) (s t : State) (h : DecInv s.dec) (hs : s.dec.state = .arg)
    (hlt : s.dec.inPos.toNat < s.dec.inLen.toNat) (ht : decArg v s = .next t) : DecInv t.dec := by
  obtain ⟨hopen, hread, hcount⟩ := passOpen_consumeByte s h (.inr hs) hlt
  obtain ⟨-, -, hop, hpend, hargc⟩ := h.arg_pos hs
  have htaken : PassOpen (takeOperand v (consumeByte s)).dec := { hopen with }
  unfold decArg at ht
  dsimp only at ht
  split at ht
  next hdone =>
    obtain ⟨i, hd, hi⟩ := decode_collectedBytes _ hdone
    rw [hd] at ht
    exact decInv_exec i _ t htaken hcount (.inl hi) ht
  next hmore =>
    cases ht
    refine htaken.decInv (.inr (.inl hs)) (by simp [hs]) (fun _ => ⟨hread, hcount, hop, hpend, ?_⟩) (by simp [hs])
    have hle := operandCount_le s.dec.op
    have hnext := argc_succ s.dec.argc (by omega)
    have hne : s.dec.argc.toNat + 1 ≠ operandCount s.dec.op := fun he =>
      hmore (by simpa [operandsComplete, hop] using hnext.trans he)
    exact hnext.trans_lt (by change _ < operandCount s.dec.op; omega)

theorem decInv_decByte (v : Byte) (s t : State) (h : DecInv s.dec)
    (hlt : s.dec.inPos.toNat < s.dec.inLen.toNat) (ht : decByte v s = .next t) : DecInv t.dec := by
  unfold decByte at ht
  split at ht
  next hs => cases ht; exact decInv_decHeader v s h hs hlt
  next hs => exact decInv_decOp v s t h hs hlt ht
  next hs => exact decInv_decArg v s t h hs hlt ht
  all_goals cases ht; exact h

theorem decInv_decStep (s t : State) (h : DecInv s.dec) (ht : decStep s = .next t) : DecInv t.dec := by
  rcases decStep_cases s with ⟨-, -, hs⟩ | ⟨v, -, hlt, -, hs⟩ | ⟨-, -, hs⟩ | hs <;> rw [hs] at ht
  · cases ht; exact decInv_raise _ s h.pos_le h.out_le h.npix_le (by decide)
  · exact decInv_decByte v s t h hlt ht
  · cases ht; exact decInv_decStart s
  · cases ht; exact h

theorem decInv_decTurn (s t : State) (h : DecInv s.dec) (ht : decTurn s = .next t) : DecInv t.dec := by
  have hd : DecInv (drainPixels s).dec := by rwa [drainPixels_dec]
  unfold decTurn at ht
  dsimp only at ht
  split at ht
  · cases ht; exact hd
  · obtain ⟨u, hu⟩ := decStep_next (drainPixels s)
    rw [hu] at ht
    cases ht
    rw [drainPixels_dec]
    exact decInv_decStep _ u hd hu

/-- Settles O59: only DEC's turn and a reset write its registers, and each of the turn's steps keeps the invariant: a
byte read was within the input, and no opcode emits more pixels than the pass has left. -/
theorem stepKeepsDecoderInvariant : Obligations.StepKeepsDecoderInvariant := by
  intro s t h ht
  obtain he | ⟨c, he⟩ | ⟨moves, a, hturn⟩ := step_dec_cases s t ht
  · rwa [he]
  · rw [he]
    exact decInv_atReset c
  · exact decInv_decTurn (scheduled moves a s) t h hturn

end Sys2Proof.Machine
end

section
/-! PROOFS. An opcode of k bytes takes k of DEC's turns (spec/10_state.md R29, spec/42_decoder.md R145, R152, R157). -/

namespace Sys2Proof.Machine

/-! ## What reading bytes changes -/

/-- From `s` to `t` DEC has read `n` bytes into its opcode registers, and nothing else of the pass has changed. -/
structure OnlyReads (n : Nat) (s t : State) : Prop where
  inPos : t.dec.inPos = s.dec.inPos + BitVec.ofNat 32 n
  prev : t.dec.prev = s.dec.prev
  cache : t.dec.cache = s.dec.cache
  outCount : t.dec.outCount = s.dec.outCount
  npix : t.dec.npix = s.dec.npix
  inLen : t.dec.inLen = s.dec.inLen
  mem : t.mem = s.mem
  only : OnlyDecoder s t

theorem OnlyReads.refl (s : State) : OnlyReads 0 s s :=
  ⟨by simp, rfl, rfl, rfl, rfl, rfl, rfl, OnlyDecoder.refl s⟩

theorem OnlyReads.trans {n m : Nat} {s t u : State} (h : OnlyReads n s t) (k : OnlyReads m t u) :
    OnlyReads (n + m) s u :=
  ⟨by rw [k.inPos, h.inPos, BitVec.ofNat_add, BitVec.add_assoc], k.prev.trans h.prev, k.cache.trans h.cache,
    k.outCount.trans h.outCount, k.npix.trans h.npix, k.inLen.trans h.inLen, k.mem.trans h.mem, h.only.trans k.only⟩

theorem onlyReads_consumeByte (s : State) : OnlyReads 1 s (consumeByte s) :=
  ⟨rfl, rfl, rfl, rfl, rfl, rfl, rfl, onlyDecoder_consumeByte s⟩

theorem onlyReads_openOpcode (v : Byte) (s : State) : OnlyReads 1 s (openOpcode v (consumeByte s)) :=
  ⟨rfl, rfl, rfl, rfl, rfl, rfl, rfl, (onlyDecoder_consumeByte s).trans (onlyDecoder_openOpcode v _)⟩

theorem onlyReads_takeOperand (v : Byte) (s : State) : OnlyReads 1 s (takeOperand v (consumeByte s)) :=
  ⟨rfl, rfl, rfl, rfl, rfl, rfl, rfl, (onlyDecoder_consumeByte s).trans (onlyDecoder_takeOperand v _)⟩

/-- R152: DEC after operand bytes have been read. -/
def readOperands (operands : List Byte) (s : State) : State :=
  operands.foldl (fun t w => takeOperand w (consumeByte t)) s

theorem readOperands_cons (v : Byte) (operands : List Byte) (s : State) :
    readOperands (v :: operands) s = readOperands operands (takeOperand v (consumeByte s)) := rfl

theorem onlyReads_readOperands (operands : List Byte) (s : State) :
    OnlyReads operands.length s (readOperands operands s) := by
  induction operands generalizing s with
  | nil => exact OnlyReads.refl s
  | cons v operands ih =>
    rw [List.length_cons, Nat.add_comm]
    exact (onlyReads_takeOperand v s).trans (ih _)

theorem onlyReads_readOpcode (bs : List Byte) (s : State) : OnlyReads bs.length s (readOpcode bs s) := by
  match bs with
  | [] => exact OnlyReads.refl s
  | [v] => exact onlyReads_consumeByte s
  | v :: w :: operands =>
    rw [List.length_cons, Nat.add_comm]
    exact (onlyReads_openOpcode v s).trans (onlyReads_readOperands (w :: operands) _)

/-! ## The bytes the host offers -/

/-- R43, R141: the sink has nothing left to take, and the next bytes of the input are `bs`, each offered. -/
structure BytesWait (bs : List Byte) (s : State) : Prop where
  taken : decPxValid s = false
  valid : s.ports.decInValid = true
  fits : s.dec.inPos.toNat + bs.length ≤ s.dec.inLen.toNat
  offered : ∀ k, k < bs.length → memRead s.mem.bytesIn (s.dec.inPos.toNat + k) = bs[k]?

theorem BytesWait.inPos_lt {v : Byte} {bs : List Byte} {s : State} (h : BytesWait (v :: bs) s) :
    s.dec.inPos.toNat < s.dec.inLen.toNat := by
  have hf := h.fits
  rw [List.length_cons] at hf
  omega

theorem BytesWait.offeredByte {v : Byte} {bs : List Byte} {s : State} (h : BytesWait (v :: bs) s) :
    offeredByte s = some v := by
  have ho := h.offered 0 (Nat.succ_pos _)
  unfold Machine.offeredByte
  rw [if_pos h.valid]
  exact ho

theorem BytesWait.tail {v : Byte} {bs : List Byte} {s t : State} (h : BytesWait (v :: bs) s)
    (hr : OnlyReads 1 s t) : BytesWait bs t := by
  have hpos : t.dec.inPos.toNat = s.dec.inPos.toNat + 1 := by
    rw [hr.inPos]
    exact inPos_succ s.dec h.inPos_lt
  have hf := h.fits
  rw [List.length_cons] at hf
  refine ⟨?_, by rw [hr.only.ports]; exact h.valid, by rw [hpos, hr.inLen]; omega, fun k hk => ?_⟩
  · have ht := h.taken
    unfold decPxValid at ht ⊢
    rwa [hr.only.decTaken, hr.outCount]
  · rw [hpos, hr.mem, Nat.add_assoc, Nat.add_comm 1 k, h.offered (k + 1) (Nat.succ_lt_succ hk),
      List.getElem?_cons_succ]

theorem BytesWait.withAgenda {bs : List Byte} {s : State} (h : BytesWait bs s) (moves : List Move) :
    BytesWait bs { s with agenda := moves } :=
  { h with }

/-! ## DEC's turns -/

/-- R141: a turn that reads a byte. -/
theorem decTurn_reads (s : State) (v : Byte) (bs : List Byte) (hb : s.dec.state.busy = true)
    (h : BytesWait (v :: bs) s) : decTurn s = mapNext drainPixels (decByte v s) := by
  rw [decTurn_of_not_valid _ h.taken, decStep_reads _ v hb h.inPos_lt h.taken h.offeredByte]

/-- R145: an opcode of one byte runs in the step that reads it. -/
theorem decOp_of_decode (v : Byte) (i : Instr) (s : State) (h : decode [v] = .ok (i, [])) :
    decOp v s = exec i (consumeByte s) := by
  unfold decOp
  rw [h]

/-- R145: a first byte with operands to come is kept. -/
theorem decOp_of_truncated (v : Byte) (s : State) (h : decode [v] = .error .truncated) :
    decOp v s = .next (openOpcode v (consumeByte s)) := by
  unfold decOp
  rw [h]

/-- R152: the step that reads the last operand byte runs the opcode. -/
theorem decArg_of_complete (v : Byte) (i : Instr) (s : State)
    (hc : operandsComplete (takeOperand v (consumeByte s)).dec = true)
    (hd : decode (collectedBytes (takeOperand v (consumeByte s)).dec) = .ok (i, [])) :
    decArg v s = exec i (takeOperand v (consumeByte s)) := by
  unfold decArg
  dsimp only
  rw [if_pos hc, hd]

/-- R152: an operand byte with more to come is kept. -/
theorem decArg_of_incomplete (v : Byte) (s : State)
    (hc : operandsComplete (takeOperand v (consumeByte s)).dec = false) :
    decArg v s = .next (takeOperand v (consumeByte s)) := by
  unfold decArg
  dsimp only
  rw [if_neg (by simp [hc])]

/-- R152: the operand just read is the last one when `argc` reaches the count. -/
theorem operandsComplete_takeOperand (v : Byte) (s : State) (hop : s.dec.op ≠ .none)
    (h : s.dec.argc.toNat < operandCount s.dec.op) :
    operandsComplete (takeOperand v (consumeByte s)).dec =
      decide (s.dec.argc.toNat + 1 = operandCount s.dec.op) := by
  have hle := operandCount_le s.dec.op
  have hnext := argc_succ s.dec.argc (by omega)
  unfold operandsComplete
  rw [takeOperand_dec_op, takeOperand_dec_argc, consumeByte_dec_op, consumeByte_dec_argc, hnext]
  simp [hop]

/-- R145: a turn in `OP` that reads an opcode of one byte runs it. -/
theorem decTurn_runsOneByteOpcode (s : State) (v : Byte) (bs : List Byte) (i : Instr) (hs : s.dec.state = .op)
    (h : BytesWait (v :: bs) s) (hd : decode [v] = .ok (i, [])) :
    decTurn s = mapNext drainPixels (exec i (consumeByte s)) := by
  have hbyte : decByte v s = decOp v s := by unfold decByte; rw [hs]
  rw [decTurn_reads s v bs (by rw [hs]; rfl) h, hbyte, decOp_of_decode v i s hd]

/-- R145: a turn in `OP` that reads a first byte with operands to come keeps it. -/
theorem decTurn_opensOpcode (s : State) (v : Byte) (bs : List Byte) (hs : s.dec.state = .op)
    (h : BytesWait (v :: bs) s) (hd : decode [v] = .error .truncated) :
    decTurn s = .next (openOpcode v (consumeByte s)) := by
  have hbyte : decByte v s = decOp v s := by unfold decByte; rw [hs]
  rw [decTurn_reads s v bs (by rw [hs]; rfl) h, hbyte, decOp_of_truncated v s hd, mapNext_next,
    drainPixels_of_not_valid _ (h.tail (onlyReads_openOpcode v s)).taken]

/-- R152: a turn in `ARG` that does not complete the opcode keeps the byte. -/
theorem decTurn_keepsOperand (s : State) (v : Byte) (bs : List Byte) (hs : s.dec.state = .arg)
    (h : BytesWait (v :: bs) s) (hc : operandsComplete (takeOperand v (consumeByte s)).dec = false) :
    decTurn s = .next (takeOperand v (consumeByte s)) := by
  have hbyte : decByte v s = decArg v s := by unfold decByte; rw [hs]
  rw [decTurn_reads s v bs (by rw [hs]; rfl) h, hbyte, decArg_of_incomplete v s hc, mapNext_next,
    drainPixels_of_not_valid _ (h.tail (onlyReads_takeOperand v s)).taken]

/-- R152: a turn in `ARG` that completes the opcode runs it. -/
theorem decTurn_runsOpcode (s : State) (v : Byte) (bs : List Byte) (i : Instr) (hs : s.dec.state = .arg)
    (h : BytesWait (v :: bs) s) (hc : operandsComplete (takeOperand v (consumeByte s)).dec = true)
    (hd : decode (collectedBytes (takeOperand v (consumeByte s)).dec) = .ok (i, [])) :
    decTurn s = mapNext drainPixels (exec i (takeOperand v (consumeByte s))) := by
  have hbyte : decByte v s = decArg v s := by unfold decByte; rw [hs]
  rw [decTurn_reads s v bs (by rw [hs]; rfl) h, hbyte, decArg_of_complete v i s hc hd]

/-- R152: with an opcode open, its remaining operand bytes take a turn each, and the last one runs it. -/
theorem run_operands (operands : List Byte) (s : State) (moves : List Move) (i : Instr) (hs : s.dec.state = .arg)
    (hop : s.dec.op ≠ .none) (hargc : s.dec.argc.toNat + operands.length = operandCount s.dec.op)
    (hne : operands ≠ []) (ha : s.agenda = List.replicate operands.length (.turn .dec) ++ moves)
    (hw : BytesWait operands s) (hd : decode (collectedBytes s.dec ++ operands) = .ok (i, [])) :
    Host.Core.run Sys2Proof.core operands.length s =
      mapNext drainPixels (exec i (readOperands operands { s with agenda := moves })) := by
  induction operands generalizing s with
  | nil => exact absurd rfl hne
  | cons v rest ih =>
    have hle := operandCount_le s.dec.op
    rw [List.length_cons] at hargc
    have hcomplete := operandsComplete_takeOperand v s hop (by omega)
    have hbytes : collectedBytes (takeOperand v (consumeByte s)).dec = collectedBytes s.dec ++ [v] :=
      collectedBytes_takeOperand v (consumeByte s) (by rw [consumeByte_dec_argc]; omega)
    have hstep := step_decTurn s (List.replicate rest.length (Move.turn .dec) ++ moves) ha
    cases rest with
    | nil =>
      rw [← hbytes] at hd
      exact (run_one s).trans (hstep.trans (decTurn_runsOpcode _ v [] i hs (hw.withAgenda _)
        (hcomplete.trans (decide_eq_true hargc)) hd))
    | cons w rest =>
      rw [List.length_cons] at hargc
      have hkeep := hstep.trans (decTurn_keepsOperand _ v (w :: rest) hs (hw.withAgenda _)
        (hcomplete.trans (decide_eq_false (by omega))))
      have hnext := argc_succ s.dec.argc (by omega)
      rw [List.length_cons, run_cons s _ _ hkeep, readOperands_cons]
      refine ih _ hs hop ?_ (List.cons_ne_nil _ _) rfl
        ((hw.withAgenda _).tail (onlyReads_takeOperand v _)) ?_
      · change (s.dec.argc + 1).toNat + (rest.length + 1) = operandCount s.dec.op
        omega
      · rw [← List.singleton_append, ← List.append_assoc, ← hbytes] at hd
        exact hd

/-! ## A whole opcode -/

/-- R81, R145: the first byte of an opcode tells how many operand bytes follow it. -/
theorem operandCount_pendingOf (v : Byte) : operandCount (pendingOf v) + 1 = opcodeLength v := by
  unfold pendingOf opcodeLength
  split_ifs <;> rfl

/-- R152: `op` and `op_byte` hold all of the first byte. -/
theorem collectedBytes_openOpcode (v : Byte) (s : State) : collectedBytes (openOpcode v s).dec = [v] := by
  have hfirst : pendingFirstByte (openOpcode v s).dec = v := by
    unfold pendingFirstByte
    rw [openOpcode_dec_op, openOpcode_dec_opByte]
    unfold pendingOf
    split_ifs with h1 h2 h3
    · exact h1.symm
    · exact h2.symm
    · exact (congrArg (tagged · (low6 v)) h3.symm).trans (tagged_tagOf_low6 v)
    · rfl
  unfold collectedBytes
  rw [hfirst]
  rfl

/-- R81: an opcode is a first byte and as many operand bytes as that byte asks for. -/
theorem encode_eq_cons (i : Instr) (h : i.wellFormed = true) :
    ∃ v operands, encode i = v :: operands ∧ operands.length = operandCount (pendingOf v) := by
  have hlen : Laws.EncodeLength.Statement i := by
    cases i with
    | index => exact Laws.EncodeLength.index _
    | diff => exact Laws.EncodeLength.diff _ _ _
    | luma => exact Laws.EncodeLength.luma _ _ _
    | run => exact Laws.EncodeLength.run _
    | rgb => exact Laws.EncodeLength.rgb _ _ _
    | rgba => exact Laws.EncodeLength.rgba _ _ _ _
  obtain ⟨v, operands, he, hv⟩ := hlen h
  refine ⟨v, operands, he, ?_⟩
  rw [he, ← operandCount_pendingOf] at hv
  exact Nat.succ.inj hv.symm

/-- R145, R152, R157: the turns that read an opcode's bytes run it in the state with those bytes read. -/
theorem run_opcode (i : Instr) (s : State) (moves : List Move) (hi : i.wellFormed = true) (hs : s.dec.state = .op)
    (ha : s.agenda = List.replicate (encode i).length (.turn .dec) ++ moves) (hw : BytesWait (encode i) s) :
    Host.Core.run Sys2Proof.core (encode i).length s =
      mapNext drainPixels (exec i (readOpcode (encode i) { s with agenda := moves })) := by
  have hd := decode_encode i [] hi
  obtain ⟨v, operands, he, hcount⟩ := encode_eq_cons i hi
  rw [List.append_nil, he] at hd
  rw [he] at ha hw ⊢
  have hstep := step_decTurn s (List.replicate operands.length (Move.turn .dec) ++ moves) ha
  cases operands with
  | nil => exact (run_one s).trans (hstep.trans (decTurn_runsOneByteOpcode _ v [] i hs (hw.withAgenda _) hd))
  | cons w rest =>
    obtain ⟨hshort, hop⟩ : decode [v] = .error .truncated ∧ pendingOf v ≠ .none := by
      refine (decode_firstByte v).resolve_left fun ⟨j, _, hnone⟩ => ?_
      rw [hnone] at hcount
      cases hcount
    have hopen := hstep.trans (decTurn_opensOpcode _ v (w :: rest) hs (hw.withAgenda _) hshort)
    rw [List.length_cons, run_cons s _ _ hopen]
    refine run_operands (w :: rest) _ moves i rfl hop ((Nat.zero_add _).trans hcount) (List.cons_ne_nil _ _) rfl
      ((hw.withAgenda _).tail (onlyReads_openOpcode v _)) ?_
    rw [collectedBytes_openOpcode]
    exact hd

/-- Settles O22: the turns are `run_opcode`, by induction over the operand bytes, and what reading the bytes leaves
alone is `onlyReads_readOpcode`. -/
theorem opcodeRunsOverItsLength : Obligations.OpcodeRunsOverItsLength := by
  intro i s u moves hi hs ha hv hvalid hfits hoffered hu
  subst hu
  have hr := onlyReads_readOpcode (encode i) { s with agenda := moves }
  exact ⟨run_opcode i s moves hi hs ha ⟨hv, hvalid, hfits, hoffered⟩, hr.inPos, hr.prev, hr.cache, hr.outCount,
    hr.npix, hr.inLen, hr.mem, hr.only⟩

end Sys2Proof.Machine
end

section
/-! PROOFS. A turn reads and writes its own agent's side only (spec/10_state.md R20, R46, spec/40_pixel_cache.md R108,
spec/70_reset_and_hazards.md R204, R209).

`withEnc e s` is `s` with ENC's side taken from `e`. That ENC's turn commutes with it says at once what the turn may
read and what it may write; likewise `withDec` for DEC. -/

namespace Sys2Proof.Machine

/-! ## ENC -/

/-- The state `s` with ENC's registers, output stream and sink as in `e`. -/
def withEnc (e s : State) : State :=
  { s with enc := e.enc, mem.bytesOut := e.mem.bytesOut, encTaken := e.encTaken, byteSink := e.byteSink }

/-- ENC sees the same inputs in both states; the start request and the dimensions count only when no pass runs. -/
structure EncInputsAgree (e s : State) : Prop where
  rasterIn : s.mem.rasterIn = e.mem.rasterIn
  pxValid : s.ports.encPxValid = e.ports.encPxValid
  outReady : s.ports.encOutReady = e.ports.encOutReady
  start : e.enc.state.busy = false → s.ports.encStart = e.ports.encStart ∧
    s.ports.encWidth = e.ports.encWidth ∧ s.ports.encHeight = e.ports.encHeight

theorem EncInputsAgree.of_eq {e s : State} (hm : s.mem.rasterIn = e.mem.rasterIn) (hp : s.ports = e.ports) :
    EncInputsAgree e s := by
  refine ⟨hm, ?_, ?_, fun _ => ?_⟩ <;> rw [hp]
  exact ⟨rfl, rfl, rfl⟩

theorem drainBytes_withEnc (e s : State) (h : s.ports.encOutReady = e.ports.encOutReady) :
    drainBytes (withEnc e s) = withEnc (drainBytes e) s := by
  have hc : ((withEnc e s).ports.encOutReady && encOutValid (withEnc e s)) =
      (e.ports.encOutReady && encOutValid e) := congrArg (· && encOutValid e) h
  unfold drainBytes
  rw [hc]
  split <;> rfl

theorem encPixel_withEnc (px : Pixel) (e s : State) : encPixel px (withEnc e s) = withEnc (encPixel px e) s := by
  rw [encPixel_eq, encPixel_eq]
  rfl

theorem encStart_withEnc (e s : State) (hw : s.ports.encWidth = e.ports.encWidth)
    (hh : s.ports.encHeight = e.ports.encHeight) : encStart (withEnc e s) = withEnc (encStart e) s := by
  have hiff : startAccepted (withEnc e s).ports ↔ startAccepted e.ports := by
    change startAccepted s.ports ↔ _
    unfold startAccepted
    rw [hw, hh]
  by_cases ha : startAccepted e.ports
  · rw [encStart_accepted e ha, encStart_accepted _ (hiff.2 ha)]
    simp only [withEnc, hw, hh]
  · obtain ⟨c, hzero, hmany, he⟩ := encStart_rejected e ha
    obtain ⟨c', hzero', hmany', hs⟩ := encStart_rejected (withEnc e s) (fun h => ha (hiff.1 h))
    have hcause : c' = c := by
      have hz : (withEnc e s).ports.encWidth = 0 ∨ (withEnc e s).ports.encHeight = 0 ↔
          e.ports.encWidth = 0 ∨ e.ports.encHeight = 0 := by
        change s.ports.encWidth = 0 ∨ s.ports.encHeight = 0 ↔ _
        rw [hw, hh]
      by_cases h0 : e.ports.encWidth = 0 ∨ e.ports.encHeight = 0
      · rw [hzero h0, hzero' (hz.2 h0)]
      · rw [hmany h0, hmany' fun h => h0 (hz.1 h)]
    rw [he, hs, hcause]
    simp only [raise, startedRegs, withEnc, hw, hh]

theorem encStep_withEnc (e s : State) (h : EncInputsAgree e s) : encStep (withEnc e s) = withEnc (encStep e) s := by
  have ho : offeredPixel (withEnc e s) = offeredPixel e := by
    change (if s.ports.encPxValid then memRead s.mem.rasterIn _ else none) = _
    rw [h.pxValid, h.rasterIn]
    rfl
  unfold encStep
  rw [ho]
  change (if e.enc.state.busy then if encPxReady e then _ else _ else if s.ports.encStart then _ else _) = _
  by_cases hb : e.enc.state.busy = true
  · rw [if_pos hb, if_pos hb]
    split
    · cases offeredPixel e with
      | none => rfl
      | some px => exact encPixel_withEnc px e s
    · rfl
  · obtain ⟨hs, hw, hh⟩ := h.start (by simpa using hb)
    rw [if_neg hb, if_neg hb, hs]
    split
    · exact encStart_withEnc e s hw hh
    · rfl

/-- R20, R74: ENC's step leaves the ports and the sink alone. -/
theorem encStep_frame (s : State) : (encStep s).ports = s.ports ∧ (encStep s).byteSink = s.byteSink := by
  rcases encStep_cases s with ⟨px, -, -, hs⟩ | ⟨-, -, hs⟩ | hs <;> rw [hs]
  · exact ⟨(onlyEncoder_encPixel px s).ports, (onlyEncoder_encPixel px s).byteSink⟩
  · obtain ⟨-, hports, -, -, -, -, hsink, -⟩ := encStart_frame s
    exact ⟨hports, hsink⟩
  · exact ⟨rfl, rfl⟩

/-- R20, R108: ENC's turn on a state is its turn on ENC's side of it. -/
theorem encTurn_withEnc (e s : State) (h : EncInputsAgree e s) : encTurn (withEnc e s) = withEnc (encTurn e) s := by
  have hd : EncInputsAgree (drainBytes e) s := by
    obtain ⟨sink, taken, hd⟩ := drainBytes_eq e
    rw [hd]
    exact ⟨h.rasterIn, h.pxValid, h.outReady, h.start⟩
  have hready : s.ports.encOutReady = (encStep (drainBytes e)).ports.encOutReady := by
    rw [(encStep_frame _).1, drainBytes_ports]
    exact h.outReady
  unfold encTurn
  dsimp only
  rw [drainBytes_withEnc e s h.outReady]
  change (if encOutValid (drainBytes e) then _ else _) = _
  split
  · rfl
  · rw [encStep_withEnc _ s hd, drainBytes_withEnc _ s hready]

/-! ## DEC -/

/-- The state `s` with DEC's registers, output stream and sink as in `d`. -/
def withDec (d s : State) : State :=
  { s with dec := d.dec, mem.rasterOut := d.mem.rasterOut, decTaken := d.decTaken, pixelSink := d.pixelSink }

/-- DEC sees the same inputs in both states; the start request and the length count only when no pass runs. -/
structure DecInputsAgree (d s : State) : Prop where
  bytesIn : s.mem.bytesIn = d.mem.bytesIn
  inValid : s.ports.decInValid = d.ports.decInValid
  pxReady : s.ports.decPxReady = d.ports.decPxReady
  start : d.dec.state.busy = false → s.ports.decStart = d.ports.decStart ∧ s.ports.decInLen = d.ports.decInLen

theorem DecInputsAgree.of_eq {d s : State} (hm : s.mem.bytesIn = d.mem.bytesIn) (hp : s.ports = d.ports) :
    DecInputsAgree d s := by
  refine ⟨hm, ?_, ?_, fun _ => ?_⟩ <;> rw [hp]
  exact ⟨rfl, rfl⟩

/-- What a part of DEC's step answers on the state with DEC's side from `d` is its answer on `d`, put back. -/
def onDecSide (s : State) (o : Host.Outcome State Fault Refusal) : Host.Outcome State Fault Refusal :=
  mapNext (fun t => withDec t s) o

@[simp] theorem onDecSide_next (s t : State) : onDecSide s (.next t) = .next (withDec t s) := rfl

theorem drainPixels_withDec (d s : State) (h : s.ports.decPxReady = d.ports.decPxReady) :
    drainPixels (withDec d s) = withDec (drainPixels d) s := by
  have hc : ((withDec d s).ports.decPxReady && decPxValid (withDec d s)) =
      (d.ports.decPxReady && decPxValid d) := congrArg (· && decPxValid d) h
  unfold drainPixels
  rw [hc]
  split <;> rfl

theorem checkComplete_withDec (d s : State) : checkComplete (withDec d s) = withDec (checkComplete d) s := by
  unfold checkComplete
  rw [apply_ite (withDec · s), apply_ite (withDec · s)]
  rfl

theorem exec_withDec (i : Instr) (d s : State) : exec i (withDec d s) = onDecSide s (exec i d) := by
  by_cases hi : ∃ l, i = .run l
  · obtain ⟨l, rfl⟩ := hi
    change execRun l (withDec d s) = onDecSide s (execRun l d)
    unfold execRun
    dsimp only
    rw [apply_ite (onDecSide s), onDecSide_next, onDecSide_next, ← checkComplete_withDec]
    rfl
  · have hi' : ∀ l, i ≠ .run l := fun l e => hi ⟨l, e⟩
    rw [exec_pixelOpcode i _ hi', exec_pixelOpcode i d hi']
    exact congrArg Host.Outcome.next (checkComplete_withDec (pixelFinished (opcodePixel i d.dec) d) s)

theorem checkMagic_withDec (d s : State) : checkMagic (withDec d s) = withDec (checkMagic d) s := by
  unfold checkMagic
  rw [apply_ite (withDec · s)]
  rfl

theorem parseHeader_withDec (d s : State) : parseHeader (withDec d s) = withDec (parseHeader d) s := by
  unfold parseHeader
  dsimp only
  rw [apply_ite (withDec · s)]
  rfl

theorem decHeader_withDec (v : Byte) (d s : State) : decHeader v (withDec d s) = withDec (decHeader v d) s := by
  unfold decHeader
  rw [apply_ite (withDec · s), apply_ite (withDec · s), ← checkMagic_withDec, ← parseHeader_withDec]
  rfl

theorem decOp_withDec (v : Byte) (d s : State) : decOp v (withDec d s) = onDecSide s (decOp v d) := by
  rcases decode_firstByte v with ⟨i, hd, -⟩ | ⟨hd, -⟩
  · rw [decOp_of_decode v i _ hd, decOp_of_decode v i d hd]
    exact exec_withDec i (consumeByte d) s
  · rw [decOp_of_truncated v _ hd, decOp_of_truncated v d hd]
    rfl

theorem decArg_withDec (v : Byte) (d s : State) : decArg v (withDec d s) = onDecSide s (decArg v d) := by
  cases hc : operandsComplete (takeOperand v (consumeByte d)).dec with
  | true =>
    obtain ⟨i, hd, -⟩ := decode_collectedBytes _ hc
    rw [decArg_of_complete v i d hc hd, decArg_of_complete v i (withDec d s) hc hd]
    exact exec_withDec i (takeOperand v (consumeByte d)) s
  | false =>
    rw [decArg_of_incomplete v d hc, decArg_of_incomplete v (withDec d s) hc]
    rfl

theorem decByte_withDec (v : Byte) (d s : State) : decByte v (withDec d s) = onDecSide s (decByte v d) := by
  have hs : (withDec d s).dec.state = d.dec.state := rfl
  unfold decByte
  rw [hs]
  cases d.dec.state with
  | hdr => exact congrArg Host.Outcome.next (decHeader_withDec v d s)
  | op => exact decOp_withDec v d s
  | arg => exact decArg_withDec v d s
  | idle => rfl
  | done => rfl
  | error => rfl

theorem decStep_withDec (d s : State) (h : DecInputsAgree d s) :
    decStep (withDec d s) = onDecSide s (decStep d) := by
  have ho : offeredByte (withDec d s) = offeredByte d := by
    change (if s.ports.decInValid then memRead s.mem.bytesIn _ else none) = _
    rw [h.inValid, h.bytesIn]
    rfl
  unfold decStep
  rw [ho]
  change (if d.dec.state.busy then if d.dec.inPos = d.dec.inLen then _ else if decInReady d then _ else _
    else if s.ports.decStart then _ else _) = _
  by_cases hb : d.dec.state.busy = true
  · rw [if_pos hb, if_pos hb]
    split_ifs
    · rfl
    · cases offeredByte d with
      | none => rfl
      | some v => exact decByte_withDec v d s
    · rfl
  · obtain ⟨hs, hl⟩ := h.start (by simpa using hb)
    rw [if_neg hb, if_neg hb, hs]
    split
    · simp only [decStart, onDecSide_next, withDec, hl]
    · rfl

/-- R20, R108: DEC's turn on a state is its turn on DEC's side of it. -/
theorem decTurn_withDec (d s : State) (h : DecInputsAgree d s) :
    decTurn (withDec d s) = onDecSide s (decTurn d) := by
  have hd : DecInputsAgree (drainPixels d) s := by
    obtain ⟨sink, taken, hd⟩ := drainPixels_eq d
    rw [hd]
    exact ⟨h.bytesIn, h.inValid, h.pxReady, h.start⟩
  unfold decTurn
  dsimp only
  rw [drainPixels_withDec d s h.pxReady]
  change (if decPxValid (drainPixels d) then _ else _) = _
  split
  · rfl
  · obtain ⟨t, ht⟩ := decStep_next (drainPixels d)
    obtain ⟨-, -, -, -, -, -, hports, -⟩ := decStep_frame _ t ht
    rw [decStep_withDec _ s hd, ht]
    refine congrArg Host.Outcome.next (drainPixels_withDec t s ?_)
    rw [hports, drainPixels_ports]
    exact h.pxReady

/-! ## What follows -/

/-- R20, R74: ENC's turn changes ENC's side only. -/
theorem encTurn_eq_withEnc (s : State) : encTurn s = withEnc (encTurn s) s :=
  encTurn_withEnc s s (.of_eq rfl rfl)

/-- R20, R74: DEC's turn changes DEC's side only. -/
theorem eq_withDec_of_decTurn (s t : State) (h : decTurn s = .next t) : t = withDec t s := by
  have hw := decTurn_withDec s s (.of_eq rfl rfl)
  change decTurn s = _ at hw
  rw [h] at hw
  exact Host.Outcome.next.inj hw

/-- R20: the two turns in one order and in the other, on the same state. -/
theorem decTurn_encTurn (s t : State) (h : decTurn s = .next t) : decTurn (encTurn s) = .next (encTurn t) := by
  have henc : EncInputsAgree s t := by
    rw [eq_withDec_of_decTurn s t h]
    exact .of_eq rfl rfl
  have hdec : DecInputsAgree s (encTurn s) := by
    rw [encTurn_eq_withEnc s]
    exact .of_eq rfl rfl
  have hs : encTurn s = withDec s (encTurn s) := by
    rw [encTurn_eq_withEnc s]
    rfl
  have ht : t = withEnc s t := by
    rw [eq_withDec_of_decTurn s t h]
    rfl
  calc decTurn (encTurn s) = decTurn (withDec s (encTurn s)) := by rw [← hs]
    _ = .next (withDec t (encTurn s)) := by rw [decTurn_withDec s _ hdec, h, onDecSide_next]
    _ = .next (withEnc (encTurn s) t) := by
      rw [eq_withDec_of_decTurn s t h, encTurn_eq_withEnc s]
      rfl
    _ = .next (encTurn (withEnc s t)) := by rw [encTurn_withEnc s t henc]
    _ = .next (encTurn t) := by rw [← ht]

theorem encTurn_withAgenda (s : State) (moves : List Move) :
    encTurn { s with agenda := moves } = { encTurn s with agenda := moves } := by
  have h := encTurn_withEnc s { s with agenda := moves } (.of_eq rfl rfl)
  rw [encTurn_eq_withEnc s]
  exact h

theorem decTurn_withAgenda (s t : State) (moves : List Move) (h : decTurn s = .next t) :
    decTurn { s with agenda := moves } = .next { t with agenda := moves } := by
  have hw := decTurn_withDec s { s with agenda := moves } (.of_eq rfl rfl)
  rw [h] at hw
  rw [eq_withDec_of_decTurn s t h]
  exact hw

/-- Settles O52: each turn changes its own side only, and on the other agent's result it does what it does alone. -/
theorem agentTurnsCommute : Obligations.AgentTurnsCommute := by
  intro s moves
  generalize hu : { s with agenda := moves } = u
  obtain ⟨t, ht⟩ := decTurn_next u
  have hencFirst : step { s with agenda := .turn .enc :: .turn .dec :: moves } =
      .next { encTurn u with agenda := .turn .dec :: moves } := by
    rw [← encTurn_withAgenda, ← hu]
    exact step_encTurn { s with agenda := .turn .enc :: .turn .dec :: moves } _ rfl
  have hdecFirst : step { s with agenda := .turn .dec :: .turn .enc :: moves } =
      .next { t with agenda := .turn .enc :: moves } := by
    rw [← decTurn_withAgenda u t _ ht, ← hu]
    exact step_decTurn { s with agenda := .turn .dec :: .turn .enc :: moves } _ rfl
  have hencAgenda : { encTurn u with agenda := moves } = encTurn u := by
    rw [← encTurn_withAgenda, ← hu]
  have hdecAgenda : { t with agenda := moves } = t := by
    have h := decTurn_withAgenda u t moves ht
    rw [← hu] at h ht
    exact Host.Outcome.next.inj (h.symm.trans ht)
  rw [run_cons _ _ 1 hencFirst, run_cons _ _ 1 hdecFirst, run_one, run_one, step_decTurn _ moves rfl,
    step_encTurn _ moves rfl, hencAgenda, hdecAgenda, decTurn_encTurn u t ht]

/-- Settles O54: a state that agrees on an agent's side is the other state with that side put in. -/
theorem agentTurnDependsOnItsOwnSideOnly : Obligations.AgentTurnDependsOnItsOwnSideOnly := by
  intro s s'
  refine ⟨fun h => ?_, fun h => ?_⟩
  · have hs' : s' = withEnc s s' := by
      simp only [withEnc, h.enc, h.bytesOut, h.encTaken, h.byteSink]
    have hturn := encTurn_withEnc s s' ⟨h.rasterIn.symm, h.encPxValid.symm, h.encOutReady.symm,
      fun _ => ⟨h.encStart.symm, h.encWidth.symm, h.encHeight.symm⟩⟩
    rw [← hs'] at hturn
    rw [hturn, encTurn_eq_withEnc s]
    exact ⟨rfl, h.rasterIn, rfl, rfl, rfl, h.encStart, h.encWidth, h.encHeight, h.encPxValid, h.encOutReady⟩
  · have hs' : s' = withDec s s' := by
      simp only [withDec, h.dec, h.rasterOut, h.decTaken, h.pixelSink]
    have hturn := decTurn_withDec s s' ⟨h.bytesIn.symm, h.decInValid.symm, h.decPxReady.symm,
      fun _ => ⟨h.decStart.symm, h.decInLen.symm⟩⟩
    obtain ⟨t, ht⟩ := decTurn_next s
    rw [← hs', ht] at hturn
    refine ⟨t, _, ht, hturn, ?_⟩
    rw [eq_withDec_of_decTurn s t ht]
    exact ⟨rfl, h.bytesIn, rfl, rfl, rfl, h.decStart, h.decInLen, h.decInValid, h.decPxReady⟩

/-- Settles O29: a busy agent sees the same inputs whatever the start request and the configuration ports hold. -/
theorem startWhileBusyIsIgnored : Obligations.StartWhileBusyIsIgnored := by
  refine ⟨fun s b len hb => ?_, fun s b w h hb => ?_⟩
  · obtain ⟨t, ht⟩ := decTurn_next s
    have hturn := decTurn_withDec s { s with ports := { s.ports with decStart := b, decInLen := len } }
      ⟨rfl, rfl, rfl, fun hn => by rw [hb] at hn; cases hn⟩
    rw [ht] at hturn
    rw [ht, eq_withDec_of_decTurn s t ht]
    exact hturn
  · have hturn := encTurn_withEnc s { s with ports := { s.ports with encStart := b, encWidth := w, encHeight := h } }
      ⟨rfl, rfl, rfl, fun hn => by rw [hb] at hn; cases hn⟩
    rw [encTurn_eq_withEnc s]
    exact hturn

end Sys2Proof.Machine
end

section
/-! PROOFS. Turns that hold, wait or take one step (spec/10_state.md R43, spec/41_encoder.md R112,
spec/70_reset_and_hazards.md R207, R208). -/

namespace Sys2Proof.Machine

/-! ## Waiting for input -/

theorem encBusy_iff (st : EncState) : st.busy = true ↔ st = .active := by
  cases st <;> decide

theorem decBusy_iff (st : DecState) : st.busy = true ↔ st = .hdr ∨ st = .op ∨ st = .arg := by
  cases st <;> decide

/-- R208: a busy DEC short of the end of its input does nothing while no byte is offered. -/
theorem decStep_waits (s : State) (hb : s.dec.state.busy = true) (hp : s.dec.inPos ≠ s.dec.inLen)
    (ho : offeredByte s = none) : decStep s = .next s := by
  unfold decStep
  rw [if_pos hb, if_neg hp, ho]
  split <;> rfl

/-- R208: an active ENC does nothing while no pixel is offered. -/
theorem encStep_waits (s : State) (ha : s.enc.state = .active) (ho : offeredPixel s = none) : encStep s = s := by
  unfold encStep
  rw [ha, ho, if_pos (by rfl)]
  split <;> rfl

/-- R112: an active ENC with nothing left to take reads the pixel offered. -/
theorem encStep_reads (s : State) (px : Pixel) (ha : s.enc.state = .active) (hv : encOutValid s = false)
    (ho : offeredPixel s = some px) : encStep s = encPixel px s := by
  have hr : encPxReady s = true := by simp [encPxReady, ha, hv]
  unfold encStep
  rw [ha, if_pos (by rfl), if_pos hr, ho]

/-- R110, R204: with no pass running a start request is taken. -/
theorem encStep_starts (s : State) (ha : s.enc.state ≠ .active) (hs : s.ports.encStart = true) :
    encStep s = encStart s := by
  have hb : ¬ s.enc.state.busy = true := fun hb => ha ((encBusy_iff _).1 hb)
  unfold encStep
  rw [if_neg hb, if_pos hs]

theorem decTurn_waits (s : State) (hb : s.dec.state.busy = true) (hp : s.dec.inPos ≠ s.dec.inLen)
    (hv : decPxValid s = false) (ho : offeredByte s = none) : decTurn s = .next s := by
  rw [decTurn_of_not_valid s hv, decStep_waits s hb hp ho, mapNext_next, drainPixels_of_not_valid s hv]

theorem encTurn_waits (s : State) (ha : s.enc.state = .active) (hv : encOutValid s = false)
    (ho : offeredPixel s = none) : encTurn s = s := by
  rw [encTurn_of_not_valid s hv, encStep_waits s ha ho, drainBytes_of_not_valid s hv]

/-- Settles O27: with nothing offered the agent's step is no change, and nothing is left to take. -/
theorem agentsWaitForInput : Obligations.AgentsWaitForInput :=
  ⟨fun s moves ha hb hp hv ho =>
    (step_decTurn s moves ha).trans (decTurn_waits { s with agenda := moves } hb hp hv ho),
  fun s moves ha hs hv ho =>
    (step_encTurn s moves ha).trans (congrArg _ (encTurn_waits { s with agenda := moves } hs hv ho))⟩

/-- Settles O38: the turn with nothing left to take is the step, and then the sink may take what it emitted. -/
theorem encoderTurnTakesOneStep : Obligations.EncoderTurnTakesOneStep := by
  intro s moves ha hv
  have hturn : step s = .next (drainBytes (encStep { s with agenda := moves })) :=
    (step_encTurn s moves ha).trans (congrArg _ (encTurn_of_not_valid { s with agenda := moves } hv))
  refine ⟨fun px hs ho => ?_, fun hs hr => ?_⟩
  · rw [hturn, encStep_reads { s with agenda := moves } px hs hv ho]
  · rw [hturn, encStep_starts { s with agenda := moves } hs hr]

/-! ## Back-pressure -/

theorem decTurn_holds (s : State) (hv : decPxValid s = true) (hr : s.ports.decPxReady = false) :
    decTurn s = .next s := by
  unfold decTurn
  rw [drainPixels_of_not_ready s hr]
  exact if_pos hv

theorem encTurn_holds (s : State) (hv : encOutValid s = true) (hr : s.ports.encOutReady = false) :
    encTurn s = s := by
  unfold encTurn
  rw [drainBytes_of_not_ready s hr]
  exact if_pos hv

/-- R43: no byte moves in ENC's turn while the sink is not ready. -/
theorem encTurn_byteSink (s : State) (hr : s.ports.encOutReady = false) : (encTurn s).byteSink = s.byteSink := by
  unfold encTurn
  rw [drainBytes_of_not_ready s hr]
  dsimp only
  split
  · rfl
  · obtain ⟨hports, hsink⟩ := encStep_frame s
    rw [drainBytes_of_not_ready _ (by rw [hports]; exact hr), hsink]

/-- R20: DEC's step leaves the sink alone. -/
theorem decStep_pixelSink (s t : State) (h : decStep s = .next t) : t.pixelSink = s.pixelSink := by
  rcases decStep_cases s with ⟨-, -, hs⟩ | ⟨v, -, -, -, hs⟩ | ⟨-, -, hs⟩ | hs <;> rw [hs] at h
  · cases h; rfl
  · obtain ⟨u, hu, ho⟩ := decByte_next v s
    rw [hu] at h
    cases h
    exact ho.pixelSink
  · cases h; rfl
  · cases h; rfl

/-- R43: no pixel moves in DEC's turn while the sink is not ready. -/
theorem decTurn_pixelSink (s t : State) (hr : s.ports.decPxReady = false) (h : decTurn s = .next t) :
    t.pixelSink = s.pixelSink := by
  unfold decTurn at h
  rw [drainPixels_of_not_ready s hr] at h
  dsimp only at h
  split at h
  · cases h; rfl
  · obtain ⟨u, hu⟩ := decStep_next s
    obtain ⟨-, -, -, -, -, -, hports, -⟩ := decStep_frame s u hu
    rw [hu, mapNext_next, drainPixels_of_not_ready u (by rw [hports]; exact hr)] at h
    cases h
    exact decStep_pixelSink s t hu

theorem hardwareReset_frame (e d : Bool) (s : State) :
    (hardwareReset e d s).byteSink = s.byteSink ∧ (hardwareReset e d s).pixelSink = s.pixelSink ∧
      (hardwareReset e d s).ports = s.ports ∧ (hardwareReset e d s).mem.rasterIn = s.mem.rasterIn ∧
      (hardwareReset e d s).mem.bytesIn = s.mem.bytesIn ∧ (hardwareReset e d s).agenda = s.agenda := by
  cases e <;> cases d <;> exact ⟨rfl, rfl, rfl, rfl, rfl, rfl⟩

/-- R43: no step moves a byte to a sink that is not ready. -/
theorem step_byteSink (s t : State) (h : step s = .next t) (hr : s.ports.encOutReady = false) :
    t.byteSink = s.byteSink := by
  obtain ⟨r, moves, a, rfl, h⟩ := step_cases s t h
  rcases h with rfl | h | ⟨e, d, -, rfl⟩ | rfl | rfl | ⟨p, rin, bin, rfl⟩
  · exact encTurn_byteSink _ hr
  · obtain ⟨-, -, -, hsink, -⟩ := decTurn_frame _ t h
    exact hsink
  · exact (hardwareReset_frame e d _).1
  · rw [takeByte_of_not_ready (scheduled moves a s) hr]
    rfl
  · obtain ⟨sink, taken, ht⟩ := takePixel_eq (scheduled moves a s)
    rw [ht]
    rfl
  · rfl

/-- R43: no step moves a pixel to a sink that is not ready. -/
theorem step_pixelSink (s t : State) (h : step s = .next t) (hr : s.ports.decPxReady = false) :
    t.pixelSink = s.pixelSink := by
  obtain ⟨r, moves, a, rfl, h⟩ := step_cases s t h
  rcases h with rfl | h | ⟨e, d, -, rfl⟩ | rfl | rfl | ⟨p, rin, bin, rfl⟩
  · obtain ⟨-, -, -, hsink, -⟩ := encTurn_frame (scheduled moves a s)
    exact hsink
  · exact decTurn_pixelSink (scheduled moves a s) t hr h
  · exact (hardwareReset_frame e d _).2.1
  · obtain ⟨sink, taken, ht⟩ := takeByte_eq (scheduled moves a s)
    rw [ht]
    rfl
  · rw [takePixel_of_not_ready (scheduled moves a s) hr]
    rfl
  · rfl

/-- Settles O28: a turn begins with a transfer, which a sink that is not ready refuses, and so does a take move. -/
theorem agentsHoldUnderBackPressure : Obligations.AgentsHoldUnderBackPressure :=
  ⟨fun s moves ha hv hr => (step_decTurn s moves ha).trans (decTurn_holds { s with agenda := moves } hv hr),
  fun s moves ha hv hr =>
    (step_encTurn s moves ha).trans (congrArg _ (encTurn_holds { s with agenda := moves } hv hr)),
  fun s t h => ⟨step_byteSink s t h, step_pixelSink s t h⟩⟩

/-! ## One side at a time -/

/-- Settles O53: DEC's turn and the transfer of a pixel leave ENC's side alone, and every other step that is no reset
leaves DEC's. -/
theorem stepWritesOneAgentsSideOnly : Obligations.StepWritesOneAgentsSideOnly := by
  intro s t h hreset
  obtain ⟨r, moves, a, rfl, h⟩ := step_cases s t h
  rcases h with rfl | h | ⟨e, d, hhead, -⟩ | rfl | rfl | ⟨p, rin, bin, rfl⟩
  · obtain ⟨hdec, hout, htaken, hsink, -⟩ := encTurn_frame (scheduled moves a s)
    exact .inr ⟨hdec, hout, htaken, hsink⟩
  · obtain ⟨henc, hout, htaken, hsink, -⟩ := decTurn_frame _ t h
    exact .inl ⟨henc, hout, htaken, hsink⟩
  · exact absurd hhead (hreset e d)
  · obtain ⟨sink, taken, ht⟩ := takeByte_eq (scheduled moves a s)
    rw [ht]
    exact .inr ⟨rfl, rfl, rfl, rfl⟩
  · obtain ⟨sink, taken, ht⟩ := takePixel_eq (scheduled moves a s)
    rw [ht]
    exact .inl ⟨rfl, rfl, rfl, rfl⟩
  · exact .inr ⟨rfl, rfl, rfl, rfl⟩

/-- Settles O46: `encPixel_eq` gives every register a pixel step leaves. -/
theorem pixelStepFrame : Obligations.PixelStepFrame := by
  intro s px
  refine ⟨onlyEncoder_encPixel px s, ?_⟩
  rw [encPixel_eq]
  exact ⟨rfl, rfl, rfl, rfl, rfl, rfl⟩

end Sys2Proof.Machine
end

section
/-! PROOFS. Packed pixels, flags and the hardware reset (spec/10_state.md R42, R44, R45, R49,
spec/70_reset_and_hazards.md R200). -/

namespace Sys2Proof.Machine

theorem packPixel_eq_bigEndian32 (p : Pixel) : packPixel p = bigEndian32 p.r p.g p.b p.a := rfl

/-- Settles O7: the packed word is the big-endian word of the four channels, whose bytes are read back. -/
theorem packedPixelRoundTrip : Obligations.PackedPixelRoundTrip := by
  refine ⟨fun p => ?_, fun p => ?_⟩
  · have hb := be32_bigEndian32 p.r p.g p.b p.a
    simp only [be32, List.cons.injEq, and_true] at hb
    obtain ⟨hr, hg, hb, ha⟩ := hb
    rw [packPixel_eq_bigEndian32]
    unfold unpackPixel
    rw [hr, hg, hb, ha]
  · rw [packPixel_eq_bigEndian32, bigEndian32_toNat]

/-- R44: in each state of ENC but `IDLE` exactly one flag is 1. -/
theorem encFlags_sum (st : EncState) :
    st.busy.toNat + (decide (st = .done)).toNat + (decide (st = .error)).toNat = if st = .idle then 0 else 1 := by
  cases st <;> rfl

/-- R44: in each state of DEC but `IDLE` exactly one flag is 1. -/
theorem decFlags_sum (st : DecState) :
    st.busy.toNat + (decide (st = .done)).toNat + (decide (st = .error)).toNat = if st = .idle then 0 else 1 := by
  cases st <;> rfl

/-- Settles O33: state by state for the flags, and cause by cause for the kind. -/
theorem statusFlagsFollowTheState : Obligations.StatusFlagsFollowTheState := by
  refine ⟨fun s => ?_, fun c => ?_⟩
  · exact ⟨encFlags_sum s.enc.state, decFlags_sum s.dec.state, rfl, rfl, rfl, rfl, decide_eq_true_iff,
      decide_eq_true_iff, decide_eq_true_iff, decide_eq_true_iff, encBusy_iff s.enc.state, decBusy_iff s.dec.state⟩
  · cases c <;> decide

/-- Settles O34: each register is the one `Enc.atReset` and `Dec.atReset` name. -/
theorem resetLeavesTheGivenValues : Obligations.ResetLeavesTheGivenValues := by
  rintro s rfl
  have hhdr : ∀ k (h : k < 14), State.reset.dec.hdr[k] = 0 := fun k h => Vector.getElem_replicate h
  have harg : ∀ k (h : k < 4), State.reset.dec.arg[k] = 0 := fun k h => Vector.getElem_replicate h
  refine ⟨rfl, rfl, rfl, rfl, rfl, rfl, rfl, rfl, rfl, rfl, rfl, rfl, hhdr, rfl, rfl, rfl, rfl, rfl, rfl, rfl, rfl,
    rfl, harg, rfl, rfl, rfl, rfl⟩

/-- Settles O35: each agent that is named or not, on its own. -/
theorem hardwareResetAbandonsThePass : Obligations.HardwareResetAbandonsThePass := by
  intro s e d moves ha
  obtain ⟨hbytes, hpixels, hports, hrin, hbin, hagenda⟩ := hardwareReset_frame e d { s with agenda := moves }
  refine ⟨_, step_cons s _ moves ha, ?_, ?_, ?_, ?_, hbytes, hpixels, hports, hrin, hbin, hagenda⟩
  · rintro rfl
    cases d <;> exact ⟨_, rfl, rfl, rfl⟩
  · rintro rfl
    cases d <;> exact ⟨rfl, rfl, rfl⟩
  · rintro rfl
    cases e <;> exact ⟨_, rfl, rfl, rfl⟩
  · rintro rfl
    cases e <;> exact ⟨rfl, rfl, rfl⟩

/-- Settles O57: both agents are at their reset values, and every stream and sink is empty. -/
theorem resetMeetsTheInvariant : Obligations.ResetMeetsTheInvariant := by
  have houtputs : OutputsOk State.reset := ⟨rfl, rfl, OutputOk.empty [], OutputOk.empty []⟩
  obtain ⟨hstreams, hsinks⟩ := (outputsOk_iff State.reset).1 houtputs
  exact ⟨encInv_atReset _, decInv_atReset _, hstreams, hsinks⟩

end Sys2Proof.Machine
end

section
/-! PROOFS. The header ENC emits, the bytes of a pixel step, and the input no agent writes (spec/20_memory.md R64,
R69, R72, R74, spec/41_encoder.md R110, R111, R127). -/

namespace Sys2Proof.Machine

/-- R60: the bytes a pass has emitted from its start on are BYTES_OUT, in order. -/
theorem map_snd_bytesAppended_nil (bs : List Byte) (h : bs.length < 2 ^ 32) :
    (bytesAppended [] 0 bs).map Prod.snd = bs := by
  have hok := (OutputOk.empty ([] : List Byte)).append bs ((Nat.zero_add _).trans_lt h)
  have hread := memRead_bytesAppended [] 0 bs (h := (Nat.zero_add _).trans_le h.le)
  have hcount := (toNat_add_ofNat_of_lt 0 bs.length ((Nat.zero_add _).trans_lt h)).trans (Nat.zero_add _)
  obtain ⟨hlen, hitems⟩ := memFrom_of_range _ hok.wf 0 bs.length 0 (Nat.zero_le _)
    (fun k => by rw [hok.range k, hcount]; simp) (le_refl _) (Nat.zero_le _)
  have hall : memFrom (bytesAppended [] 0 bs) 0 = (bytesAppended [] 0 bs).map Prod.snd := by simp [memFrom]
  rw [← hall]
  refine List.ext_getElem? fun k => ?_
  by_cases hk : k < bs.length
  · rw [hitems k hk, hread, if_pos (by simpa using hk)]
    simp
  · rw [List.getElem?_eq_none (by omega), List.getElem?_eq_none (by omega)]

/-- Settles O36: `encStart_accepted` gives the registers, and the header's bytes are the first of an empty stream. -/
theorem encodeStartEmitsTheHeader : Obligations.EncodeStartEmitsTheHeader := by
  intro s hw hh hn
  obtain ⟨hcount, -⟩ := pixelCount_of_goodDims _ _ hw hh hn
  have hlen := length_headerBytes s.ports.encWidth s.ports.encHeight
  rw [encStart_accepted s ⟨hw, hh, hn⟩]
  refine ⟨rfl, rfl, rfl, hcount, rfl, rfl, rfl, rfl, rfl, lookup_cacheReset, ?_, fun k hk => ?_, rfl, rfl⟩
  · exact map_snd_bytesAppended_nil _ (by rw [hlen]; decide)
  · refine (memRead_bytesAppended [] 0 _ k (by rw [hlen]; decide)).trans (if_neg ?_)
    rw [hlen, show (0 : Word).toNat = 0 from rfl]
    omega

/-- Settles O47: the bytes are `pixelBytes`, and `out_count` is far from wrapping in a pass. -/
theorem pixelStepEmitsAtMostSixBytes : Obligations.PixelStepEmitsAtMostSixBytes := by
  intro s px he ha
  have hlen := length_pixelBytes_le px s.enc
  have hlt := he.outCount_lt ha
  exact ⟨_, hlen, emitsBytes_encPixel px s (by omega)⟩

/-- Settles O55: the frame of each agent's turn. -/
theorem agentsNeverWriteTheirInput : Obligations.AgentsNeverWriteTheirInput := by
  intro a s t h
  cases a with
  | enc =>
    obtain ⟨-, -, -, -, hrin, hbin, hports⟩ := encTurn_frame s
    cases h
    exact ⟨hrin, hbin, hports⟩
  | dec =>
    obtain ⟨-, -, -, -, hrin, hbin, hports, -⟩ := decTurn_frame s t h
    exact ⟨hrin, hbin, hports⟩

end Sys2Proof.Machine
end

section
/-! PROOFS. DEC reads a header in fourteen turns (spec/20_memory.md R64, R65, spec/42_decoder.md R142 to R144). -/

namespace Sys2Proof.Machine

theorem bigEndian32_of_be32 {w : Word} {b0 b1 b2 b3 : Byte} (h : be32 w = [b0, b1, b2, b3]) :
    bigEndian32 b0 b1 b2 b3 = w := by
  simp only [be32, List.cons.injEq, and_true] at h
  obtain ⟨rfl, rfl, rfl, rfl⟩ := h
  exact bigEndian32_extractLsb' w

/-! ## The header bytes kept -/

/-- R142: DEC is in the header and has kept the bytes `read` of it. -/
structure HeaderRead (read : List Byte) (s : State) : Prop where
  state : s.dec.state = .hdr
  inPos : s.dec.inPos.toNat = read.length
  kept : ∀ k (hk : k < 14), k < read.length → read[k]? = some s.dec.hdr[k]

theorem HeaderRead.keep {read : List Byte} {s : State} (h : HeaderRead read s) (v : Byte) (hlt : read.length < 14) :
    HeaderRead (read ++ [v]) (keepHeaderByte v s) := by
  have hpos := h.inPos
  refine ⟨h.state, ?_, fun k hk hkr => ?_⟩
  · rw [List.length_append, ← hpos]
    exact toNat_add_ofNat_of_lt s.dec.inPos 1 (by omega)
  · rw [List.length_append, List.length_singleton] at hkr
    simp only [keepHeaderByte_dec_hdr, Vector.getElem_setIfInBounds, hpos]
    by_cases hlast : read.length = k
    · rw [if_pos hlast, ← hlast, List.getElem?_concat_length]
    · rw [if_neg hlast, List.getElem?_append_left (by omega)]
      exact h.kept k hk (by omega)

/-- R142: DEC after header bytes have been read. -/
def readHeader (bs : List Byte) (s : State) : State := bs.foldl (fun t v => keepHeaderByte v t) s

theorem readHeader_cons (v : Byte) (bs : List Byte) (s : State) :
    readHeader (v :: bs) s = readHeader bs (keepHeaderByte v s) := rfl

/-- R142: reading header bytes writes `hdr` and `in_pos` only. -/
theorem readHeader_frame (bs : List Byte) (s : State) : ∃ hdr pos,
    readHeader bs s = { s with dec := { s.dec with hdr := hdr, inPos := pos } } := by
  induction bs generalizing s with
  | nil => exact ⟨s.dec.hdr, s.dec.inPos, rfl⟩
  | cons v bs ih =>
    obtain ⟨hdr, pos, h⟩ := ih (keepHeaderByte v s)
    exact ⟨hdr, pos, h⟩

theorem HeaderRead.readHeader {read bs : List Byte} {s : State} (h : HeaderRead read s)
    (hlen : read.length + bs.length ≤ 14) : HeaderRead (read ++ bs) (readHeader bs s) := by
  induction bs generalizing read s with
  | nil => rwa [List.append_nil]
  | cons v bs ih =>
    rw [List.length_cons] at hlen
    rw [List.append_cons, readHeader_cons]
    exact ih (h.keep v (by omega)) (by rw [List.length_append, List.length_singleton]; omega)

/-! ## The checks (R143, R144) -/

/-- R64: four of the header bytes read, taken as a word. -/
theorem HeaderRead.word {before after : List Byte} {w : Word} {s : State}
    (h : HeaderRead (before ++ be32 w ++ after) s) (hfits : before.length + 3 < 14) :
    bigEndian32 s.dec.hdr[before.length] s.dec.hdr[before.length + 1] s.dec.hdr[before.length + 2]
      s.dec.hdr[before.length + 3] = w := by
  have hbyte : ∀ k (hk : k < 4), (be32 w)[k]? = some s.dec.hdr[before.length + k] := fun k hk => by
    have hlen : (be32 w).length = 4 := rfl
    rw [← h.kept (before.length + k) (by omega) (by simp only [List.length_append]; omega), List.append_assoc,
      List.getElem?_append_right (by omega), Nat.add_sub_cancel_left, List.getElem?_append_left (by omega)]
  refine bigEndian32_of_be32 (List.ext_getElem? fun k => ?_)
  match k with
  | 0 => exact hbyte 0 (by decide)
  | 1 => exact hbyte 1 (by decide)
  | 2 => exact hbyte 2 (by decide)
  | 3 => exact hbyte 3 (by decide)
  | k + 4 => rfl

/-- R143: a good magic is let through. -/
theorem HeaderRead.checkMagic {s : State} (h : HeaderRead (be32 Config.magic) s) : checkMagic s = s :=
  if_neg (not_not.2 (h.word (before := []) (after := []) (by decide)))

/-- R142, R143: a byte of a header with a good magic, before the last, is kept. -/
theorem HeaderRead.decHeader_keeps {read rest fields : List Byte} {v : Byte} {s : State} (h : HeaderRead read s)
    (hhdr : read ++ v :: rest = be32 Config.magic ++ fields) (hlt : read.length < 13) :
    decHeader v s = keepHeaderByte v s := by
  have hpos := h.inPos
  unfold decHeader
  split
  next h3 =>
    have hlen : read.length = 3 := hpos.symm.trans (congrArg BitVec.toNat h3)
    have hread : read ++ [v] = be32 Config.magic := by
      rw [List.append_cons] at hhdr
      exact List.append_inj_left hhdr (by rw [List.length_append, hlen]; rfl)
    have hkeep := h.keep v (by omega)
    rw [hread] at hkeep
    exact hkeep.checkMagic
  next =>
    refine if_neg fun h13 => ?_
    have hlen : read.length = 13 := hpos.symm.trans (congrArg BitVec.toNat h13)
    omega

/-- R142: the last byte of a header is followed by ParseHeader. -/
theorem HeaderRead.decHeader_parses {read : List Byte} {s : State} (h : HeaderRead read s) (v : Byte)
    (hlen : read.length = 13) : decHeader v s = parseHeader (keepHeaderByte v s) := by
  have h13 : s.dec.inPos = 13 := BitVec.eq_of_toNat_eq (h.inPos.trans hlen)
  unfold decHeader
  rw [h13, if_neg (by decide), if_pos rfl]

/-- R65, R144: ParseHeader records the four fields, and the dimensions tell how it ends. -/
theorem HeaderRead.parseHeader {w h : Word} {chans space : Byte} {s : State}
    (hr : HeaderRead (be32 Config.magic ++ be32 w ++ be32 h ++ [chans, space]) s) :
    parseHeader s =
      if w = 0 ∨ h = 0 ∨ w.toNat * h.toNat > Config.maxPixels then
        raise .dec .fmtBadDims { s with dec := { s.dec with
          width := w, height := h, channels := chans, colorspace := space } }
      else { s with dec := { s.dec with
        width := w, height := h, channels := chans, colorspace := space
        npix := BitVec.ofNat 32 (w.toNat * h.toNat), state := .op } } := by
  have hw : bigEndian32 s.dec.hdr[4] s.dec.hdr[5] s.dec.hdr[6] s.dec.hdr[7] = w :=
    HeaderRead.word (before := be32 Config.magic) (after := be32 h ++ [chans, space])
      (by rwa [List.append_assoc] at hr) (by decide)
  have hh : bigEndian32 s.dec.hdr[8] s.dec.hdr[9] s.dec.hdr[10] s.dec.hdr[11] = h :=
    hr.word (show 8 + 3 < 14 by decide)
  have hchans : s.dec.hdr[12] = chans := (Option.some.inj (hr.kept 12 (by decide) (show 12 < 14 by decide))).symm
  have hspace : s.dec.hdr[13] = space := (Option.some.inj (hr.kept 13 (by decide) (show 13 < 14 by decide))).symm
  unfold Machine.parseHeader
  simp only [hw, hh, hchans, hspace, pixelProduct]

/-! ## The turns -/

theorem onlyReads_keepHeaderByte (v : Byte) (s : State) : OnlyReads 1 s (keepHeaderByte v s) :=
  ⟨rfl, rfl, rfl, rfl, rfl, rfl, rfl, by constructor <;> rfl⟩

theorem decPxValid_parseHeader (s : State) : decPxValid (parseHeader s) = decPxValid s := by
  obtain ⟨n, st, c, h⟩ := parseHeader_eq s
  rw [h]
  rfl

/-- R142: a step in which DEC, in `HDR`, reads a byte. -/
theorem step_readsHeader (s : State) (v : Byte) (bs : List Byte) (moves : List Move)
    (ha : s.agenda = .turn .dec :: moves) (hs : s.dec.state = .hdr) (hw : BytesWait (v :: bs) s) :
    step s = .next (drainPixels (decHeader v { s with agenda := moves })) := by
  have hbyte : decByte v { s with agenda := moves } = .next (decHeader v { s with agenda := moves }) := by
    unfold decByte; rw [hs]
  rw [step_decTurn s moves ha, decTurn_reads _ v bs (by rw [hs]; rfl) (hw.withAgenda moves), hbyte, mapNext_next]

/-- R142, R143, R144: the remaining bytes of a header with a good magic take a turn each, and the last one parses it. -/
theorem run_header (bs : List Byte) {read fields : List Byte} (s : State) (moves : List Move)
    (h : HeaderRead read s) (hhdr : read ++ bs = be32 Config.magic ++ fields) (hlen : fields.length = 10)
    (hne : bs ≠ []) (ha : s.agenda = List.replicate bs.length (.turn .dec) ++ moves) (hw : BytesWait bs s) :
    Host.Core.run Sys2Proof.core bs.length s = .next (parseHeader (readHeader bs { s with agenda := moves })) := by
  induction bs generalizing read s with
  | nil => exact absurd rfl hne
  | cons v rest ih =>
    have htotal : read.length + (rest.length + 1) = 14 := by
      have := congrArg List.length hhdr
      rwa [List.length_append, List.length_append, List.length_cons, hlen] at this
    have hstep := step_readsHeader s v rest (List.replicate rest.length (Move.turn .dec) ++ moves) ha h.state hw
    have hrest := (hw.withAgenda (List.replicate rest.length (.turn .dec) ++ moves)).tail
      (onlyReads_keepHeaderByte v _)
    have hread : HeaderRead read { s with agenda := List.replicate rest.length (.turn .dec) ++ moves } := { h with }
    cases rest with
    | nil =>
      rw [hread.decHeader_parses v (by simpa using htotal),
        drainPixels_of_not_valid _ ((decPxValid_parseHeader _).trans hrest.taken)] at hstep
      exact (run_one s).trans hstep
    | cons w rest =>
      rw [List.length_cons] at htotal
      rw [hread.decHeader_keeps hhdr (by omega), drainPixels_of_not_valid _ hrest.taken] at hstep
      rw [List.length_cons, run_cons s _ _ hstep, readHeader_cons]
      rw [List.append_cons] at hhdr
      exact ih _ (hread.keep v (by omega)) hhdr (List.cons_ne_nil _ _) rfl hrest

/-- Settles O24: the turns are `run_header`, by induction over the bytes, and `HeaderRead.parseHeader` tells the two
endings apart. -/
theorem headerIsReadInFourteenSteps : Obligations.HeaderIsReadInFourteenSteps := by
  intro s moves w h chans space bs hbs hs hpos hfits ha hv hvalid hoffered
  have hlen : bs.length = 14 := by rw [hbs]; rfl
  have hzero : s.dec.inPos.toNat = 0 := congrArg BitVec.toNat hpos
  have hstart : ∀ m, HeaderRead [] { s with agenda := m } := fun m => ⟨hs, hzero, nofun⟩
  have hwait : BytesWait bs s :=
    ⟨hv, hvalid, by omega, fun k hk => by rw [hzero, Nat.zero_add]; exact hoffered k (by omega)⟩
  have hrun := run_header bs (fields := be32 w ++ be32 h ++ [chans, space]) s moves (hstart _)
    (hbs.trans (by simp only [List.append_assoc])) rfl (by rintro rfl; cases hlen) (by rw [hlen]; exact ha) hwait
  have hread := (hstart moves).readHeader (bs := bs) (by rw [hlen]; decide)
  obtain ⟨hdr, pos, hframe⟩ := readHeader_frame bs { s with agenda := moves }
  rw [hframe, List.nil_append] at hread
  have hend : pos = 14 := BitVec.eq_of_toNat_eq (hread.inPos.trans hlen)
  rw [hbs] at hread
  rw [hframe, hlen, hread.parseHeader] at hrun
  by_cases hbad : w = 0 ∨ h = 0 ∨ 400000000 < w.toNat * h.toNat
  · refine ⟨_, hrun.trans (congrArg _ (if_pos hbad)), hend, rfl, rfl, rfl, rfl, ?_, rfl, rfl⟩
    rw [if_pos hbad]
    exact ⟨rfl, rfl, rfl⟩
  · obtain ⟨hw, hh, hn⟩ := not_or.1 hbad |>.imp_right not_or.1
    refine ⟨_, hrun.trans (congrArg _ (if_neg hbad)), hend, rfl, rfl, rfl, rfl, ?_, rfl, rfl⟩
    rw [if_neg hbad]
    exact ⟨rfl, rfl, (pixelCount_of_goodDims w h hw hh (not_lt.1 hn)).1⟩

end Sys2Proof.Machine
end

section
/-! PROOFS. The opcode stream is read back whole and has one encoding (spec/30_encoding.md R80 to R91, R96). -/

namespace Sys2Proof.Machine

/-- Settles O1: `decode_encode`, one case for each opcode. -/
theorem encodeThenDecodeGivesOpcode : Obligations.EncodeThenDecodeGivesOpcode :=
  decode_encode

/-! ## What a first byte opens (R82, R90) -/

/-- R90: the groups of the first-byte values, one for each opcode. -/
theorem firstByte_cases (v : Byte) :
    v = 0xFF ∨ v = 0xFE ∨ (∃ i, v = tagged 0b00 i) ∨ (∃ x y z : BitVec 2, v = tagged 0b01 (x ++ y ++ z)) ∨
      (∃ g, v = tagged 0b10 g) ∨ ∃ l, l.toNat ≤ 61 ∧ v = tagged 0b11 l := by
  by_cases hrgba : v = 0xFF
  · exact .inl hrgba
  by_cases hrgb : v = 0xFE
  · exact .inr (.inl hrgb)
  refine .inr (.inr ?_)
  have hv := tagged_tagOf_low6 v
  rcases tag_cases (tagOf v) with ht | ht | ht | ht
  · exact .inl ⟨_, ht ▸ hv.symm⟩
  · rw [ht, ← diffFields_append] at hv
    exact .inr (.inl ⟨_, _, _, hv.symm⟩)
  · exact .inr (.inr (.inl ⟨_, ht ▸ hv.symm⟩))
  · exact .inr (.inr (.inr ⟨_, low6_le_of_run v hrgba hrgb ht, ht ▸ hv.symm⟩))

/-- R81, R82: the first byte of LUMA alone is not an opcode. -/
theorem decode_tagged_luma_alone (g : BitVec 6) : decode [tagged 0b10 g] = .error .truncated := by
  obtain ⟨hrgba, hrgb⟩ := tagged_ne_rgb 0b10 g (by decide)
  simp only [decode]
  rw [if_neg hrgba, if_neg hrgb, tagOf_tagged, if_neg (by decide), if_neg (by decide), if_neg (by decide)]

/-- R91: a byte list with a first byte begins with the encoding of an opcode, or the decoder finds operand bytes
missing. -/
theorem begins_with_opcode_or_truncated (v : Byte) (operands : List Byte) :
    (∃ i rest, i.wellFormed = true ∧ encode i ++ rest = v :: operands) ∨
      (decode (v :: operands) = .error .truncated ∧ operands.length + 1 < opcodeLength v) := by
  obtain rfl | rfl | ⟨i, rfl⟩ | ⟨x, y, z, rfl⟩ | ⟨g, rfl⟩ | ⟨l, hl, rfl⟩ := firstByte_cases v
  · match operands with
    | r :: g :: b :: a :: rest => exact .inl ⟨.rgba r g b a, rest, rfl, rfl⟩
    | [] | [_] | [_, _] | [_, _, _] => exact .inr ⟨rfl, of_decide_eq_true rfl⟩
  · match operands with
    | r :: g :: b :: rest => exact .inl ⟨.rgb r g b, rest, rfl, rfl⟩
    | [] | [_] | [_, _] => exact .inr ⟨rfl, of_decide_eq_true rfl⟩
  · exact .inl ⟨.index i, operands, rfl, rfl⟩
  · exact .inl ⟨.diff x y z, operands, rfl, rfl⟩
  · match operands with
    | w :: rest =>
      refine .inl ⟨.luma g (highNibble w) (lowNibble w), rest, rfl, ?_⟩
      exact congrArg (tagged 0b10 g :: · :: rest) (nibbles_append w)
    | [] =>
      refine .inr ⟨decode_tagged_luma_alone g, ?_⟩
      rw [Laws.EncodeLength.opcodeLength_tagged _ _ (tagged_ne_rgb 0b10 g (by decide))]
      decide
  · exact .inl ⟨.run l, operands, decide_eq_true hl, rfl⟩

/-- Settles O2: what is read begins with the encoding of an opcode, and by `decode_encode` the decoder reads that
opcode and no other. -/
theorem decodeThenEncodeGivesBytes : Obligations.DecodeThenEncodeGivesBytes := by
  intro bs rest i hd
  cases bs with
  | nil => cases hd
  | cons v operands =>
    rcases begins_with_opcode_or_truncated v operands with ⟨j, tail, hj, hbytes⟩ | ⟨hshort, -⟩
    · rw [← hbytes, decode_encode j tail hj] at hd
      cases hd
      exact ⟨hj, hbytes⟩
    · rw [hshort] at hd
      cases hd

/-- R81, R96: a list that begins with an opcode begins with that opcode's first byte, which tells how many operand
bytes are the opcode's. -/
theorem encode_append_eq_cons {i : Instr} {v : Byte} {rest operands : List Byte} (hi : i.wellFormed = true)
    (hbytes : encode i ++ rest = v :: operands) :
    ∃ read, encode i = v :: read ∧ operands = read ++ rest ∧ opcodeLength v = read.length + 1 := by
  obtain ⟨w, read, he, hcount⟩ := encode_eq_cons i hi
  rw [he, List.cons_append] at hbytes
  obtain ⟨rfl, rfl⟩ := List.cons.inj hbytes
  exact ⟨read, he, rfl, by rw [hcount, operandCount_pendingOf]⟩

/-- Settles O3: the list begins with an opcode, whose length the first byte tells, or is shorter than that length. -/
theorem decodeRefusesOnlyShortInput : Obligations.DecodeRefusesOnlyShortInput := by
  intro v operands
  rcases begins_with_opcode_or_truncated v operands with ⟨i, rest, hi, hbytes⟩ | ⟨hshort, hlt⟩
  · obtain ⟨read, he, rfl, hlen⟩ := encode_append_eq_cons hi hbytes
    rw [hlen, List.length_append, Nat.add_sub_cancel, List.drop_left, List.take_left, ← hbytes]
    exact ⟨fun hlt => absurd hlt (by omega), fun _ => ⟨i, decode_encode i rest hi, he⟩⟩
  · exact ⟨fun _ => hshort, fun hle => absurd hlt (not_lt.2 hle)⟩

/-- Settles O4: each word is the encoding of its opcode, which `decode_encode` reads back. -/
theorem sampleWordsDecode : Obligations.SampleWordsDecode :=
  ⟨decode_encode (.index 53) [] rfl, decode_encode (.diff 3 2 1) [] rfl, decode_encode (.luma 37 5 4) [] rfl,
    decode_encode (.run 61) [] rfl, decode_encode (.rgb 10 20 30) [] rfl, decode_encode (.rgba 1 2 3 4) [] rfl⟩

end Sys2Proof.Machine
end

section
/-! PROOFS. Each line of the assembler's table gives the bytes of its row (spec/30_encoding.md R94). -/

namespace Sys2Proof.Machine

/-- R10 `{x, y}`: two fields put together are one field, the first scaled by the size of the second. -/
theorem ofInt_append_ofInt {m n : Nat} {x y : Int} (hx : 0 ≤ x ∧ x < 2 ^ m) (hy : 0 ≤ y ∧ y < 2 ^ n) :
    BitVec.ofInt m x ++ BitVec.ofInt n y = BitVec.ofInt (m + n) (x * 2 ^ n + y) := by
  lift x to Nat using hx.1
  lift y to Nat using hy.1
  have hx : x < 2 ^ m := by exact_mod_cast hx.2
  have hy : y < 2 ^ n := by exact_mod_cast hy.2
  have hsum : x * 2 ^ n + y < 2 ^ (m + n) :=
    calc x * 2 ^ n + y < (x + 1) * 2 ^ n := by rw [Nat.succ_mul]; exact Nat.add_lt_add_left hy _
      _ ≤ 2 ^ (m + n) := by rw [Nat.pow_add]; exact Nat.mul_le_mul_right _ hx
  have hcast : (x * 2 ^ n + y : Int) = ((x * 2 ^ n + y : Nat) : Int) := by push_cast; rfl
  rw [hcast, BitVec.ofInt_natCast, BitVec.ofInt_natCast, BitVec.ofInt_natCast]
  apply BitVec.eq_of_toNat_eq
  rw [BitVec.toNat_append, BitVec.toNat_ofNat, BitVec.toNat_ofNat, BitVec.toNat_ofNat, Nat.mod_eq_of_lt hx,
    Nat.mod_eq_of_lt hy, Nat.mod_eq_of_lt hsum, ← Nat.shiftLeft_add_eq_or_of_lt hy, Nat.shiftLeft_eq]

/-- R82: a first byte is its tag times 64 and its six low bits. -/
theorem tagged_ofInt {t x : Int} (ht : 0 ≤ t ∧ t < 2 ^ 2) (hx : 0 ≤ x ∧ x < 2 ^ 6) :
    tagged (BitVec.ofInt 2 t) (BitVec.ofInt 6 x) = BitVec.ofInt 8 (t * 2 ^ 6 + x) :=
  ofInt_append_ofInt ht hx

/-! ## The bytes of each line, its operands in range -/

theorem encode_index_ofInt {x : Int} (hx : 0 ≤ x ∧ x ≤ 63) :
    encode (.index (BitVec.ofInt 6 x)) = [BitVec.ofInt 8 (0x00 + x)] :=
  congrArg (fun v => [v]) (tagged_ofInt (t := 0) (by decide) (by omega))

theorem encode_diff_ofInt {dr dg db : Int} (hr : -2 ≤ dr ∧ dr ≤ 1) (hg : -2 ≤ dg ∧ dg ≤ 1) (hb : -2 ≤ db ∧ db ≤ 1) :
    encode (.diff (BitVec.ofInt 2 (dr + 2)) (BitVec.ofInt 2 (dg + 2)) (BitVec.ofInt 2 (db + 2))) =
      [BitVec.ofInt 8 (0x40 + (dr + 2) * 16 + (dg + 2) * 4 + (db + 2))] := by
  have hfields := tagged_ofInt (t := 1) (x := ((dr + 2) * 2 ^ 2 + (dg + 2)) * 2 ^ 2 + (db + 2)) (by decide) (by omega)
  simp only [encode]
  rw [ofInt_append_ofInt (by omega) (by omega), ofInt_append_ofInt (by omega) (by omega)]
  refine congrArg (fun v => [v]) (hfields.trans (congrArg _ ?_))
  omega

theorem encode_luma_ofInt {dg drg dbg : Int} (hg : -32 ≤ dg ∧ dg ≤ 31) (hr : -8 ≤ drg ∧ drg ≤ 7)
    (hb : -8 ≤ dbg ∧ dbg ≤ 7) :
    encode (.luma (BitVec.ofInt 6 (dg + 32)) (BitVec.ofInt 4 (drg + 8)) (BitVec.ofInt 4 (dbg + 8))) =
      [BitVec.ofInt 8 (0x80 + dg + 32), BitVec.ofInt 8 ((drg + 8) * 16 + dbg + 8)] := by
  have hfirst := tagged_ofInt (t := 2) (x := dg + 32) (by decide) (by omega)
  have hsecond := ofInt_append_ofInt (m := 4) (n := 4) (x := drg + 8) (y := dbg + 8) (by omega) (by omega)
  refine congrArg₂ (fun v w => [v, w]) (hfirst.trans (congrArg _ ?_)) (hsecond.trans (congrArg _ ?_)) <;> omega

theorem encode_run_ofInt {n : Int} (hn : 1 ≤ n ∧ n ≤ 62) :
    encode (.run (BitVec.ofInt 6 (n - 1))) = [BitVec.ofInt 8 (0xC0 + n - 1)] := by
  have hfields := tagged_ofInt (t := 3) (x := n - 1) (by decide) (by omega)
  refine congrArg (fun v => [v]) (hfields.trans (congrArg _ ?_))
  omega

/-- R94: a line whose range test says `p` assembles to the bytes `bs` or is refused. -/
theorem map_encode_ite {c : Bool} {p : Prop} [Decidable p] {i : Instr} {bs : List Byte} (hc : c = true ↔ p)
    (hbs : p → encode i = bs) : (if c then some i else none).map encode = if p then some bs else none := by
  by_cases hp : p
  · rw [if_pos (hc.2 hp), if_pos hp, Option.map_some, hbs hp]
  · rw [if_neg (mt hc.1 hp), if_neg hp, Option.map_none]

/-- Settles O5: one row after the other, the range test by `inRange_iff` and the bytes by the row's own lemma. -/
theorem assemblerEncodesInRangeOnly : Obligations.AssemblerEncodesInRangeOnly := by
  refine ⟨fun x => ?_, fun dr dg db => ?_, fun dg drg dbg => ?_, fun n => ?_, fun r g b => ?_, fun r g b a => ?_,
    fun w h cs k => ?_⟩
  · exact map_encode_ite (inRange_iff _ _ _) encode_index_ofInt
  · refine map_encode_ite ?_ fun ⟨hr, hg, hb⟩ => encode_diff_ofInt hr hg hb
    simp only [Bool.and_eq_true, inRange_iff, and_assoc]
  · refine map_encode_ite ?_ fun ⟨hg, hr, hb⟩ => encode_luma_ofInt hg hr hb
    simp only [Bool.and_eq_true, inRange_iff, and_assoc]
  · exact map_encode_ite (inRange_iff _ _ _) encode_run_ofInt
  · refine map_encode_ite ?_ fun _ => rfl
    simp only [Bool.and_eq_true, inRange_iff, and_assoc]
  · refine map_encode_ite ?_ fun _ => rfl
    simp only [Bool.and_eq_true, inRange_iff, and_assoc]
  · refine if_congr ?_ rfl rfl
    simp only [Bool.and_eq_true, inRange_iff, and_assoc]
    omega

end Sys2Proof.Machine
end

section
/-! PROOFS. The pixel cache (spec/40_pixel_cache.md): the slot of a pixel, what a slot holds after any stores, and the
two agents' caches after one differing pixel. -/

namespace Sys2Proof.Machine

/-! ## The opcode of a pixel that differs from `prev` (R107) -/

/-- R115 to R121: the opcode ENC codes a differing pixel by: INDEX on a cache hit, else the opcode of a miss. -/
def pixelOpcode (px : Pixel) (e : Enc) : Instr :=
  if lookup e.cache (pixelHash px) = px then .index (pixelHash px) else missOpcode px e.prev

/-- R114, R115: with no run open the bytes of a differing pixel are one opcode. -/
theorem pixelBytes_of_differs {px : Pixel} {e : Enc} (hp : px ≠ e.prev) (hr : e.run = 0) :
    pixelBytes px e = encode (pixelOpcode px e) := by
  rw [pixelBytes, if_neg hp, if_neg (not_not.2 hr), List.nil_append, ← apply_ite encode, pixelOpcode]

theorem missOpcode_ne_run (px pv : Pixel) (l : BitVec 6) : missOpcode px pv ≠ .run l := by
  unfold missOpcode
  dsimp only
  split_ifs <;> exact Instr.noConfusion

theorem pixelOpcode_ne_run (px : Pixel) (e : Enc) (l : BitVec 6) : pixelOpcode px e ≠ .run l := by
  unfold pixelOpcode
  split_ifs
  · exact Instr.noConfusion
  · exact missOpcode_ne_run px e.prev l

/-- R86, R91: only RUN has field values without an encoding of their own. -/
theorem wellFormed_of_ne_run {i : Instr} (h : ∀ l, i ≠ .run l) : i.wellFormed = true := by
  cases i with
  | run l => exact absurd rfl (h l)
  | index => rfl
  | diff => rfl
  | luma => rfl
  | rgb => rfl
  | rgba => rfl

/-- R107, R149: with equal caches and equal `prev` the opcode gives DEC the pixel it was chosen for. -/
theorem opcodePixel_pixelOpcode (px : Pixel) {e : Enc} {d : Dec} (hc : d.cache = e.cache) (hp : d.prev = e.prev) :
    opcodePixel (pixelOpcode px e) d = px := by
  unfold pixelOpcode
  split_ifs with hhit
  · exact (congrArg (lookup · (pixelHash px)) hc).trans hhit
  · exact hp ▸ opcodePixel_missOpcode px d

/-- R105, R115, R116: a differing pixel leaves its slot holding it, as a store there would: on a hit it is there. -/
theorem pixelRegs_cache_of_differs {px : Pixel} {e : Enc} (hp : px ≠ e.prev) :
    (pixelRegs px e).cache = store e.cache (pixelHash px) px := by
  unfold pixelRegs
  dsimp only
  rw [if_neg hp]
  split_ifs with hhit
  · have hsame := store_lookup_self e.cache (pixelHash px)
    rw [hhit] at hsame
    exact hsame.symm
  · rfl

/-- Settles O49: the opcode is `pixelOpcode`, DEC runs it to FinishPixel of `px`, and both agents' caches become the
same store. -/
theorem decoderKeepsLockStepWithEncoder : Obligations.DecoderKeepsLockStepWithEncoder := by
  intro s px hp hr hlen hc hv
  have hbytes := pixelBytes_of_differs hp hr
  have hcost := length_encode_le (pixelOpcode px s.enc)
  have hemits : EmitsBytes (encode (pixelOpcode px s.enc)) s (encPixel px s) :=
    hbytes ▸ emitsBytes_encPixel px s (by rw [hbytes]; omega)
  have hrun : exec (pixelOpcode px s.enc) s = .next (finishPixel px s) := by
    rw [exec_pixelOpcode _ s (pixelOpcode_ne_run px s.enc), opcodePixel_pixelOpcode px hc hv]
  refine ⟨pixelOpcode px s.enc, finishPixel px s, wellFormed_of_ne_run (pixelOpcode_ne_run px s.enc),
    pixelOpcode_ne_run px s.enc, hemits, hrun, ?_, ?_, ?_⟩
  · rw [finishPixel_mem]
    exact memRead_memWrite_self _ _ px
  · rw [finishPixel_dec_prev, encPixel_eq]
    rfl
  · rw [finishPixel_dec_cache, encPixel_eq, hc]
    exact (pixelRegs_cache_of_differs hp).symm

/-! ## Stores and lookups (R103, R104) -/

/-- R103: any number of stores to other slots leaves a slot as it is. -/
theorem lookup_foldl_store_other (cache : Cache) (slot : BitVec 6) (others : List (BitVec 6 × Pixel))
    (h : ∀ e ∈ others, e.1 ≠ slot) :
    lookup (others.foldl (fun acc e => store acc e.1 e.2) cache) slot = lookup cache slot := by
  induction others generalizing cache with
  | nil => rfl
  | cons e rest ih =>
    obtain ⟨hne, hrest⟩ := List.forall_mem_cons.1 h
    rw [List.foldl_cons, ih _ hrest, lookup_store_other _ _ _ _ hne.symm]

/-- Settles O9: the stores in between leave the slot alone, so the store before them or the one after them is read. -/
theorem storedPixelStaysUntilItsSlotIsStoredAgain : Obligations.StoredPixelStaysUntilItsSlotIsStoredAgain := by
  intro cache slot p q others h
  refine ⟨?_, lookup_store_self _ slot q, fun slot' hne h' => ?_⟩
  · rw [lookup_foldl_store_other _ _ _ h, lookup_store_self]
  · rw [lookup_foldl_store_other _ _ _ h', lookup_store_other _ _ _ _ hne]

/-! ## The slot of a pixel (R100) -/

theorem pixelHash_toNat (p : Pixel) :
    (pixelHash p).toNat = (p.r.toNat * 3 + p.g.toNat * 5 + p.b.toNat * 7 + p.a.toNat * 11) % 64 :=
  BitVec.toNat_ofNat _ 6

/-- Settles O8: reduction to 6 bits goes through sums and products, so it may be done channel by channel. -/
theorem hashIsWeightedSumModulo64 : Obligations.HashIsWeightedSumModulo64 := by
  intro p
  refine ⟨pixelHash_toNat p, ?_⟩
  unfold pixelHash
  simp only [BitVec.ofNat_add, BitVec.ofNat_mul, BitVec.ofNat_toNat, BitVec.ofNat_eq_ofNat, BitVec.mul_comm]

end Sys2Proof.Machine
end

section
/-! PROOFS. What ENC's steps emit and leave for each kind of pixel (spec/41_encoder.md R113 to R122), and what a start
step forgets (R126, R201). -/

namespace Sys2Proof.Machine

/-! ## The byte of a run (R86, R113, R114) -/

/-- R86: the byte of a run one longer than `r`. -/
theorem runByte_succ : ∀ r : BitVec 6, runByte (r + 1) = [BitVec.ofNat 8 (0xC0 + r.toNat)] := by decide

/-- R114: the byte that closes an open run. -/
theorem runByte_of_ne_zero : ∀ r : BitVec 6, r ≠ 0 → runByte r = [BitVec.ofNat 8 (0xC0 + (r.toNat - 1))] := by decide

/-- R114: what a pixel step writes ahead of a differing pixel's opcode. -/
theorem flushBytes_eq (e : Enc) : (if e.run ≠ 0 then runByte e.run else []) = flushBytes e := by
  unfold flushBytes
  by_cases h : e.run = 0
  · rw [if_neg (not_not.2 h), h]; rfl
  · have hne : e.run.toNat ≠ 0 := fun h0 => h (BitVec.eq_of_toNat_eq h0)
    rw [if_pos h, runByte_of_ne_zero _ h, if_neg hne]

/-- R25, R113: the run is written out when it reaches 62, and at the last pixel. -/
theorem runCloses_iff (e : Enc) : runCloses e = true ↔ e.run.toNat = 61 ∨ e.pxPos + 1 = e.npix := by
  have hmax : ∀ r : BitVec 6, r + 1 = Config.runMax ↔ r.toNat = 61 := by decide
  rw [runCloses, Bool.or_eq_true, decide_eq_true_iff, lastPixel_iff, hmax]

/-- R8, R26: in a pass the pixel position does not wrap. -/
theorem EncInv.pxPos_succ {e : Enc} (h : EncInv e) (ha : e.state = .active) :
    (e.pxPos + 1).toNat = e.pxPos.toNat + 1 :=
  toNat_add_ofNat_of_lt _ 1 (lt_of_le_of_lt (h.pos_lt ha) e.npix.isLt)

/-- R112: the last pixel, by the counters' values. -/
theorem EncInv.lastPixel_iff {e : Enc} (h : EncInv e) (ha : e.state = .active) :
    e.pxPos + 1 = e.npix ↔ e.pxPos.toNat + 1 = e.npix.toNat := by
  rw [← h.pxPos_succ ha, BitVec.toNat_inj]

/-! ## A pixel equal to `prev` (R113) -/

/-- R113: a pixel equal to `prev` that closes its run writes the run's byte. -/
theorem pixelBytes_of_closes {e : Enc} (h : runCloses e = true) :
    pixelBytes e.prev e = [BitVec.ofNat 8 (0xC0 + e.run.toNat)] := by
  rw [pixelBytes, if_pos rfl, if_pos h, runByte_succ]

/-- R113: a pixel equal to `prev` that leaves its run open writes nothing. -/
theorem pixelBytes_of_extends {e : Enc} (h : runCloses e = false) : pixelBytes e.prev e = [] := by
  rw [pixelBytes, if_pos rfl, if_neg (by simp [h])]

theorem pixelRegs_run_of_closes {e : Enc} (h : runCloses e = true) : (pixelRegs e.prev e).run = 0 := by
  simp [pixelRegs, h]

theorem pixelRegs_run_of_extends {e : Enc} (h : runCloses e = false) (hrun : e.run.toNat ≤ 61) :
    (pixelRegs e.prev e).run.toNat = e.run.toNat + 1 := by
  have hstep : (pixelRegs e.prev e).run = e.run + 1 := by simp [pixelRegs, h]
  have hlt : e.run.toNat + 1 < 2 ^ 6 := by omega
  rw [hstep, BitVec.toNat_add]
  exact Nat.mod_eq_of_lt hlt

/-- R113: a pixel equal to `prev` stores nothing. -/
theorem pixelRegs_cache_of_prev (e : Enc) : (pixelRegs e.prev e).cache = e.cache := by
  simp [pixelRegs]

/-- R112: in a pass a pixel step emits `pixelBytes`, since `out_count` is far from wrapping. -/
theorem EncInv.emitsBytes {s : State} (h : EncInv s.enc) (ha : s.enc.state = .active) (px : Pixel) :
    EmitsBytes (pixelBytes px s.enc) s (encPixel px s) :=
  emitsBytes_encPixel px s ((Nat.add_le_add_left (length_pixelBytes_le px s.enc) _).trans (h.outCount_lt ha).le)

theorem encPixel_enc (px : Pixel) (s : State) : (encPixel px s).enc = pixelRegs px s.enc := by
  rw [encPixel_eq]

/-- Settles O39: the run closes at 61 or at the last pixel, and its byte is `runByte_succ`. -/
theorem encoderExtendsRun : Obligations.EncoderExtendsRun := by
  intro s he ha
  have hemits := he.emitsBytes ha s.enc.prev
  rw [encPixel_enc]
  refine ⟨⟨rfl, pixelRegs_cache_of_prev s.enc, rfl⟩, ?_⟩
  have hcloses := runCloses_iff s.enc
  rw [he.lastPixel_iff ha] at hcloses
  split
  next hend =>
    have hc := hcloses.2 hend
    exact ⟨pixelBytes_of_closes hc ▸ hemits, pixelRegs_run_of_closes hc⟩
  next hgo =>
    have hc : runCloses s.enc = false := Bool.eq_false_iff.2 fun hc => hgo (hcloses.1 hc)
    exact ⟨pixelBytes_of_extends hc ▸ hemits, pixelRegs_run_of_extends hc he.run_le⟩

/-! ## A pixel that differs from `prev` (R114 to R122) -/

/-- R114: the bytes of a differing pixel are the byte of the run it ends and its own opcode. -/
theorem pixelBytes_of_ne {px : Pixel} {e : Enc} (hp : px ≠ e.prev) :
    pixelBytes px e = flushBytes e ++ encode (pixelOpcode px e) := by
  rw [pixelBytes, if_neg hp, flushBytes_eq, ← apply_ite encode, pixelOpcode]

theorem pixelRegs_run_of_ne {px : Pixel} {e : Enc} (hp : px ≠ e.prev) : (pixelRegs px e).run = 0 := by
  rw [pixelRegs, if_neg hp]

/-- R114, R122: in a pass the step of a differing pixel writes the byte of any open run and the pixel's opcode, and
`prev` is the pixel. -/
theorem EncInv.emitsOpcode {s : State} (h : EncInv s.enc) (ha : s.enc.state = .active) {px : Pixel}
    (hp : px ≠ s.enc.prev) :
    EmitsBytes (flushBytes s.enc ++ encode (pixelOpcode px s.enc)) s (encPixel px s) ∧
      (encPixel px s).enc.prev = px := by
  rw [encPixel_enc, ← pixelBytes_of_ne hp]
  exact ⟨h.emitsBytes ha px, rfl⟩

/-- R115: the opcode of a cache hit. -/
theorem pixelOpcode_of_hit {px : Pixel} {e : Enc} (h : lookup e.cache (pixelHash px) = px) :
    pixelOpcode px e = .index (pixelHash px) := if_pos h

/-- R116: the opcode of a cache miss. -/
theorem pixelOpcode_of_miss {px : Pixel} {e : Enc} (h : lookup e.cache (pixelHash px) ≠ px) :
    pixelOpcode px e = missOpcode px e.prev := if_neg h

/-- R83: the byte of INDEX is the slot. -/
theorem encode_index : ∀ slot : BitVec 6, encode (.index slot) = [BitVec.ofNat 8 slot.toNat] := by decide

/-- Settles O40: the opcode of a hit is INDEX, and a store of what the slot holds changes nothing. -/
theorem encoderCodesCacheHitAsIndex : Obligations.EncoderCodesCacheHitAsIndex := by
  intro s px he ha hp hhit
  obtain ⟨hemits, hprev⟩ := he.emitsOpcode ha hp
  rw [pixelOpcode_of_hit hhit, encode_index] at hemits
  have hcache : (pixelRegs px s.enc).cache = s.enc.cache := by
    rw [pixelRegs_cache_of_differs hp]
    have hsame := store_lookup_self s.enc.cache (pixelHash px)
    rwa [hhit] at hsame
  rw [encPixel_enc] at hprev ⊢
  exact ⟨hemits, hcache, hprev, pixelRegs_run_of_ne hp⟩

/-- Settles O41: a differing pixel's step is a store in its slot. -/
theorem encoderStoresOnMiss : Obligations.EncoderStoresOnMiss := by
  intro s px hp _
  rw [encPixel_enc, pixelRegs_cache_of_differs hp]
  exact ⟨lookup_store _ _ _, rfl, pixelRegs_run_of_ne hp⟩

/-! ## The deltas and the opcode of a miss (R117 to R121) -/

/-- R117: the deltas as two's complement values of differences modulo 256. -/
theorem deltas_eq (px pv : Pixel) : deltas px pv =
    { dr := (px.r - pv.r).toInt
      dg := (px.g - pv.g).toInt
      db := (px.b - pv.b).toInt
      drg := ((px.r - pv.r) - (px.g - pv.g)).toInt
      dbg := ((px.b - pv.b) - (px.g - pv.g)).toInt } := by
  simp only [deltas, s8_eq_toInt, BitVec.ofInt_toInt, sub8]

theorem fitsDiff_iff (d : Deltas) : d.fitsDiff = true ↔
    (-2 ≤ d.dr ∧ d.dr ≤ 1) ∧ (-2 ≤ d.dg ∧ d.dg ≤ 1) ∧ (-2 ≤ d.db ∧ d.db ≤ 1) := by
  simp only [Deltas.fitsDiff, Bool.and_eq_true, inRange_iff, and_assoc]

theorem fitsLuma_iff (d : Deltas) : d.fitsLuma = true ↔
    (-32 ≤ d.dg ∧ d.dg ≤ 31) ∧ (-8 ≤ d.drg ∧ d.drg ≤ 7) ∧ (-8 ≤ d.dbg ∧ d.dbg ≤ 7) := by
  simp only [Deltas.fitsLuma, Bool.and_eq_true, inRange_iff, and_assoc]

/-- R118. -/
theorem missOpcode_diff {px pv : Pixel} (ha : px.a = pv.a) (hd : (deltas px pv).fitsDiff = true) :
    missOpcode px pv = .diff (BitVec.ofInt 2 ((deltas px pv).dr + 2)) (BitVec.ofInt 2 ((deltas px pv).dg + 2))
      (BitVec.ofInt 2 ((deltas px pv).db + 2)) :=
  (if_pos ha).trans (if_pos hd)

/-- R119. -/
theorem missOpcode_luma {px pv : Pixel} (ha : px.a = pv.a) (hd : (deltas px pv).fitsDiff ≠ true)
    (hl : (deltas px pv).fitsLuma = true) :
    missOpcode px pv = .luma (BitVec.ofInt 6 ((deltas px pv).dg + 32)) (BitVec.ofInt 4 ((deltas px pv).drg + 8))
      (BitVec.ofInt 4 ((deltas px pv).dbg + 8)) :=
  (if_pos ha).trans ((if_neg hd).trans (if_pos hl))

/-- R120. -/
theorem missOpcode_rgb {px pv : Pixel} (ha : px.a = pv.a) (hd : (deltas px pv).fitsDiff ≠ true)
    (hl : (deltas px pv).fitsLuma ≠ true) : missOpcode px pv = .rgb px.r px.g px.b :=
  (if_pos ha).trans ((if_neg hd).trans (if_neg hl))

/-- R121. -/
theorem missOpcode_rgba {px pv : Pixel} (ha : px.a ≠ pv.a) : missOpcode px pv = .rgba px.r px.g px.b px.a :=
  if_neg ha

/-- Settles O42: DIFF's range test holds, and its byte is the one of the assembler's row. -/
theorem encoderCodesSmallDeltasAsDiff : Obligations.EncoderCodesSmallDeltasAsDiff := by
  intro s px dr dg db he ha hp hmiss halpha hdr hdg hdb hr hg hb
  subst hdr hdg hdb
  have hfits : (deltas px s.enc.prev).fitsDiff = true := by
    rw [fitsDiff_iff, deltas_eq]; exact ⟨hr, hg, hb⟩
  have hemits := he.emitsOpcode ha hp
  rwa [pixelOpcode_of_miss hmiss, missOpcode_diff halpha hfits, deltas_eq, encode_diff_ofInt hr hg hb] at hemits

/-- Settles O43: DIFF's range test fails and LUMA's holds, and its bytes are those of the assembler's row. -/
theorem encoderCodesGreenBasedDeltasAsLuma : Obligations.EncoderCodesGreenBasedDeltasAsLuma := by
  intro s px dr dg db drg dbg he ha hp hmiss halpha hdr hdg hdb hdrg hdbg hdiff hg hr hb
  subst hdr hdg hdb hdrg hdbg
  have hnot : (deltas px s.enc.prev).fitsDiff ≠ true := by
    rw [Ne, fitsDiff_iff, deltas_eq]; exact hdiff
  have hfits : (deltas px s.enc.prev).fitsLuma = true := by
    rw [fitsLuma_iff, deltas_eq]; exact ⟨hg, hr, hb⟩
  have hemits := he.emitsOpcode ha hp
  rwa [pixelOpcode_of_miss hmiss, missOpcode_luma halpha hnot hfits, deltas_eq, encode_luma_ofInt hg hr hb,
    add_assoc, add_assoc] at hemits

/-- Settles O44: both range tests fail. -/
theorem encoderFallsBackToRgb : Obligations.EncoderFallsBackToRgb := by
  intro s px dr dg db drg dbg he ha hp hmiss halpha hdr hdg hdb hdrg hdbg hdiff hluma
  subst hdr hdg hdb hdrg hdbg
  have hnotDiff : (deltas px s.enc.prev).fitsDiff ≠ true := by
    rw [Ne, fitsDiff_iff, deltas_eq]; exact hdiff
  have hnotLuma : (deltas px s.enc.prev).fitsLuma ≠ true := by
    rw [Ne, fitsLuma_iff, deltas_eq]; exact hluma
  have hemits := he.emitsOpcode ha hp
  rwa [pixelOpcode_of_miss hmiss, missOpcode_rgb halpha hnotDiff hnotLuma] at hemits

/-- Settles O45: the alpha test comes before the range tests. -/
theorem encoderCodesAlphaChangeAsRgba : Obligations.EncoderCodesAlphaChangeAsRgba := by
  intro s px he ha hp hmiss halpha
  have hemits := he.emitsOpcode ha hp
  rwa [pixelOpcode_of_miss hmiss, missOpcode_rgba halpha] at hemits

/-- R117: a difference of two signed bytes, the second within -32..31, that leaves the byte range wraps to a value
outside -8..7, so the range test may be made on either. -/
theorem sub_toInt_fits_iff (x y : Byte) (hlo : -32 ≤ y.toInt) (hhi : y.toInt ≤ 31) :
    (-8 ≤ (x - y).toInt ∧ (x - y).toInt ≤ 7) ↔ (-8 ≤ x.toInt - y.toInt ∧ x.toInt - y.toInt ≤ 7) := by
  have hx := BitVec.toInt_lt (x := x)
  have hx' := BitVec.le_toInt x
  rw [BitVec.toInt_sub, Int.bmod_def]
  omega

/-- Settles O10: `sub_toInt_fits_iff` for red and for blue. -/
theorem wrappedDeltaFitsExactlyWhenUnwrappedDoes : Obligations.WrappedDeltaFitsExactlyWhenUnwrappedDoes := by
  intro px pv hlo hhi
  rw [deltas_eq] at hlo hhi ⊢
  exact ⟨sub_toInt_fits_iff _ _ hlo hhi, sub_toInt_fits_iff _ _ hlo hhi⟩

/-! ## The start step (R126, R201) -/

/-- Settles O48: each start step writes every register of its agent from the ports or from constants. -/
theorem startForgetsEarlierPasses : Obligations.StartForgetsEarlierPasses := by
  intro s s' hports
  refine ⟨fun hw hh hn => ?_, ?_, rfl⟩
  · have hgood : startAccepted s.ports := ⟨hw, hh, hn⟩
    rw [encStart_accepted s hgood, encStart_accepted s' (hports ▸ hgood), hports]
    exact ⟨rfl, rfl⟩
  · simp only [decStart, hports]

end Sys2Proof.Machine
end

section
/-! PROOFS. ENC's pixel steps over a list of pixels, and the bytes of a run (spec/41_encoder.md R112, R113, R123, R125,
R129). -/

namespace Sys2Proof.Machine

/-! ## One pixel step for each pixel -/

/-- R112: the registers after one pixel step for each pixel. -/
def passRegs (pixels : List Pixel) (e : Enc) : Enc := pixels.foldl (fun r px => pixelRegs px r) e

/-- R112: the bytes of one pixel step for each pixel. -/
def passBytes : List Pixel → Enc → List Byte
  | [], _ => []
  | px :: rest, e => pixelBytes px e ++ passBytes rest (pixelRegs px e)

theorem passBytes_cons (px : Pixel) (rest : List Pixel) (e : Enc) :
    passBytes (px :: rest) e = pixelBytes px e ++ passBytes rest (pixelRegs px e) := rfl

theorem passRegs_concat (ps : List Pixel) (px : Pixel) (e : Enc) :
    passRegs (ps ++ [px]) e = pixelRegs px (passRegs ps e) :=
  List.foldl_concat _ _ _ _

theorem passBytes_concat (ps : List Pixel) (px : Pixel) (e : Enc) :
    passBytes (ps ++ [px]) e = passBytes ps e ++ pixelBytes px (passRegs ps e) := by
  induction ps generalizing e with
  | nil => exact List.append_nil _
  | cons p ps ih =>
    rw [List.cons_append, passBytes_cons, ih, passBytes_cons, List.append_assoc]
    rfl

/-- R112: the pixel steps emit `passBytes`, leave `passRegs`, and change nothing else. -/
theorem foldl_encPixel_eq (pixels : List Pixel) (s : State) :
    pixels.foldl (fun u p => encPixel p u) s =
      { s with
        mem := { s.mem with bytesOut := bytesAppended s.mem.bytesOut s.enc.outCount (passBytes pixels s.enc) }
        enc := passRegs pixels s.enc } := by
  induction pixels generalizing s with
  | nil => rfl
  | cons px rest ih =>
    rw [List.foldl_cons, ih, encPixel_eq, passBytes_cons, bytesAppended_append]
    rfl

theorem passRegs_npix (pixels : List Pixel) (e : Enc) : (passRegs pixels e).npix = e.npix := by
  induction pixels generalizing e with
  | nil => rfl
  | cons px rest ih => exact ih (pixelRegs px e)

theorem passRegs_outCount (pixels : List Pixel) (e : Enc) :
    (passRegs pixels e).outCount = e.outCount + BitVec.ofNat 32 (passBytes pixels e).length := by
  induction pixels generalizing e with
  | nil => exact (BitVec.add_zero _).symm
  | cons px rest ih =>
    rw [passBytes_cons, List.length_append, BitVec.ofNat_add, ← BitVec.add_assoc]
    exact ih (pixelRegs px e)

/-- R123: a pass goes on until the position reaches the pixel count, and is then done. -/
theorem EncInv.pixelRegs_state {e : Enc} (h : EncInv e) (ha : e.state = .active) (px : Pixel) :
    (pixelRegs px e).state = if e.pxPos.toNat + 1 = e.npix.toNat then .done else .active := by
  rw [← ha, ← if_congr (h.lastPixel_iff ha) rfl rfl]
  rfl

/-- What holds after a pass's steps on `pixels`, none of them beyond its last pixel. -/
structure PassReached (pixels : List Pixel) (e : Enc) : Prop where
  inv : EncInv (passRegs pixels e)
  pxPos : (passRegs pixels e).pxPos.toNat = e.pxPos.toNat + pixels.length
  outCount : (passRegs pixels e).outCount.toNat = e.outCount.toNat + (passBytes pixels e).length
  state : (passRegs pixels e).state = if e.pxPos.toNat + pixels.length = e.npix.toNat then .done else .active

/-- R123: while pixels are still to come the pass is active. -/
theorem PassReached.active {pixels : List Pixel} {e : Enc} (h : PassReached pixels e)
    (hmore : e.pxPos.toNat + pixels.length < e.npix.toNat) : (passRegs pixels e).state = .active :=
  h.state.trans (if_neg hmore.ne)

/-- R112: the pixel after `pixels` is the last one when no more are left. -/
theorem PassReached.lastPixel_iff {pixels : List Pixel} {e : Enc} (h : PassReached pixels e)
    (hmore : e.pxPos.toNat + pixels.length < e.npix.toNat) :
    (passRegs pixels e).pxPos + 1 = (passRegs pixels e).npix ↔ e.pxPos.toNat + pixels.length + 1 = e.npix.toNat := by
  rw [h.inv.lastPixel_iff (h.active hmore), h.pxPos, passRegs_npix]

/-- R123, R129: the steps on as many pixels as the pass has left, or fewer. -/
theorem EncInv.passReached {e : Enc} (h : EncInv e) (ha : e.state = .active) (pixels : List Pixel)
    (hfit : e.pxPos.toNat + pixels.length ≤ e.npix.toNat) : PassReached pixels e := by
  induction pixels using List.reverseRecOn with
  | nil => exact ⟨h, rfl, rfl, ha.trans (if_neg (h.pos_lt ha).ne).symm⟩
  | append_singleton ps px ih =>
    rw [List.length_append, List.length_singleton, ← Nat.add_assoc] at hfit
    have hps := ih (by omega)
    have hact := hps.active hfit
    obtain ⟨hpx, -⟩ := pixelStep_bounds px _ hps.inv hact
    have hlt := hps.inv.outCount_lt hact
    have hlen := length_pixelBytes_le px (passRegs ps e)
    have hout : (pixelRegs px (passRegs ps e)).outCount.toNat = _ := toNat_add_ofNat_of_lt _ _ (by omega)
    refine ⟨?_, ?_, ?_, ?_⟩ <;> rw [passRegs_concat]
    · exact encInv_pixelRegs px _ hps.inv hact
    · rw [hpx, hps.pxPos, List.length_append, List.length_singleton, Nat.add_assoc]
    · rw [hout, hps.outCount, passBytes_concat, List.length_append, Nat.add_assoc]
    · rw [hps.inv.pixelRegs_state hact, hps.pxPos, passRegs_npix, List.length_append, List.length_singleton,
        Nat.add_assoc]

/-- R112: what the pixel steps append to BYTES_OUT. -/
theorem EncInv.emitsBytes_pass {s : State} (h : EncInv s.enc) (ha : s.enc.state = .active) (pixels : List Pixel)
    (hfit : s.enc.pxPos.toNat + pixels.length ≤ s.enc.npix.toNat) :
    EmitsBytes (passBytes pixels s.enc) s (pixels.foldl (fun u p => encPixel p u) s) := by
  have hcount := (h.passReached ha pixels hfit).outCount
  have hlt := (passRegs pixels s.enc).outCount.isLt
  rw [foldl_encPixel_eq]
  exact emitsBytes_of_appended _ s _ (by omega) rfl (passRegs_outCount _ _)

/-! ## Runs (R125) -/

/-- R125: a run's whole bytes, and the byte of what is left of it. -/
theorem runBytes_eq (m : Nat) : runBytes m = List.replicate (m / 62) 0xFD ++
    if m % 62 = 0 then [] else [BitVec.ofNat 8 (0xC0 + (m % 62 - 1))] := by
  unfold runBytes
  split
  · rfl
  · rw [Nat.add_sub_assoc (by omega)]

/-- R125: one pixel more closes a run of 62, or is the first of the rest. -/
theorem runBytes_succ (m : Nat) :
    runBytes (m + 1) = List.replicate (m / 62) 0xFD ++ [BitVec.ofNat 8 (0xC0 + m % 62)] := by
  rw [runBytes_eq]
  by_cases h : m % 62 = 61
  · rw [if_pos (by omega), h, List.append_nil, show (m + 1) / 62 = m / 62 + 1 by omega, List.replicate_succ']
    rfl
  · rw [if_neg (by omega), show (m + 1) / 62 = m / 62 by omega, show (m + 1) % 62 - 1 = m % 62 by omega]

/-- R113: a pixel equal to `prev`, not the last one, writes a byte where the run reaches 62. -/
theorem pixelStep_prev {e : Enc} (hrun : e.run.toNat ≤ 61) (hmore : e.pxPos + 1 ≠ e.npix) :
    pixelBytes e.prev e = List.replicate ((e.run.toNat + 1) / 62) 0xFD ∧
      (pixelRegs e.prev e).run.toNat = (e.run.toNat + 1) % 62 := by
  have hcloses := runCloses_iff e
  by_cases hmax : e.run.toNat = 61
  · have hc := hcloses.2 (.inl hmax)
    rw [pixelBytes_of_closes hc, pixelRegs_run_of_closes hc, hmax]
    exact ⟨rfl, rfl⟩
  · have hc : runCloses e = false := Bool.eq_false_iff.2 fun hc => (hcloses.1 hc).elim hmax hmore
    rw [pixelBytes_of_extends hc, pixelRegs_run_of_extends hc hrun, Nat.div_eq_of_lt (by omega),
      Nat.mod_eq_of_lt (by omega)]
    exact ⟨rfl, rfl⟩

/-- R113, R125: `m` pixels equal to `prev`, none of them the last: a byte for each 62 of the run, the rest open. -/
theorem pass_replicate_prev {e : Enc} (h : EncInv e) (ha : e.state = .active) (m : Nat)
    (hmore : e.pxPos.toNat + m < e.npix.toNat) :
    passBytes (List.replicate m e.prev) e = List.replicate ((e.run.toNat + m) / 62) 0xFD ∧
      (passRegs (List.replicate m e.prev) e).run.toNat = (e.run.toNat + m) % 62 ∧
      (passRegs (List.replicate m e.prev) e).prev = e.prev := by
  have hrun := h.run_le
  induction m with
  | zero =>
    rw [Nat.add_zero, Nat.div_eq_of_lt (by omega), Nat.mod_eq_of_lt (by omega)]
    exact ⟨rfl, rfl, rfl⟩
  | succ m ih =>
    obtain ⟨hbytes, hopen, hprev⟩ := ih (by omega)
    have hlen := List.length_replicate (n := m) (a := e.prev)
    have hreached := h.passReached ha (List.replicate m e.prev) (by omega)
    have hstep := pixelStep_prev hreached.inv.run_le fun hlast =>
      absurd ((hreached.lastPixel_iff (by omega)).1 hlast) (by omega)
    rw [hprev, hopen] at hstep
    rw [List.replicate_succ', passBytes_concat, passRegs_concat, hbytes, hstep.1, hstep.2,
      List.replicate_append_replicate]
    exact ⟨congrArg (List.replicate · _) (by omega), by omega, rfl⟩

/-- R124, R125: the pass ends with `m` pixels equal to `prev`. -/
theorem passBytes_replicate_prev_last {e : Enc} (h : EncInv e) (ha : e.state = .active) (m : Nat) (hm : 0 < m)
    (hlast : e.pxPos.toNat + m = e.npix.toNat) :
    passBytes (List.replicate m e.prev) e = runBytes (e.run.toNat + m) := by
  obtain ⟨m, rfl⟩ := Nat.exists_eq_succ_of_ne_zero hm.ne'
  obtain ⟨hbytes, hopen, hprev⟩ := pass_replicate_prev h ha m (by omega)
  have hlen := List.length_replicate (n := m) (a := e.prev)
  have hreached := h.passReached ha (List.replicate m e.prev) (by omega)
  have hstep := pixelBytes_of_closes
    ((runCloses_iff _).2 (.inr ((hreached.lastPixel_iff (by omega)).2 (by omega))))
  rw [hprev, hopen] at hstep
  rw [List.replicate_succ', passBytes_concat, hbytes, hstep]
  exact (runBytes_succ _).symm

/-- R114, R125: a pixel that differs ends a run of `m` pixels equal to `prev`, which it follows. -/
theorem passBytes_replicate_prev_then {e : Enc} (h : EncInv e) (ha : e.state = .active) (m : Nat) {px : Pixel}
    (hp : px ≠ e.prev) (hmore : e.pxPos.toNat + m < e.npix.toNat) :
    passBytes (List.replicate m e.prev ++ [px]) e = runBytes (e.run.toNat + m) ++
      encode (pixelOpcode px (passRegs (List.replicate m e.prev) e)) := by
  obtain ⟨hbytes, hopen, hprev⟩ := pass_replicate_prev h ha m hmore
  rw [passBytes_concat, hbytes, pixelBytes_of_ne (hprev.symm ▸ hp), runBytes_eq, List.append_assoc, flushBytes, hopen]

/-- Settles O51: with no run open the bytes are `runBytes m`, by where the `m` pixels stand; a first pixel that differs
is coded by its own opcode and leaves no run open. -/
theorem runBoundary : Obligations.RunBoundary := by
  intro s m he ha
  refine ⟨fun hrun hm hlast => ?_, fun px hrun hp hmore => ?_, fun q hq hm hlast => ?_⟩
  · have hemits := he.emitsBytes_pass ha (List.replicate m s.enc.prev) (by rw [List.length_replicate]; omega)
    have hzero : s.enc.run.toNat = 0 := congrArg BitVec.toNat hrun
    rwa [passBytes_replicate_prev_last he ha m hm hlast, hzero, Nat.zero_add] at hemits
  · have hemits := he.emitsBytes_pass ha (List.replicate m s.enc.prev ++ [px])
      (by rw [List.length_append, List.length_replicate]; exact hmore)
    have hzero : s.enc.run.toNat = 0 := congrArg BitVec.toNat hrun
    rw [passBytes_replicate_prev_then he ha m hp hmore, hzero, Nat.zero_add] at hemits
    exact ⟨_, wellFormed_of_ne_run (pixelOpcode_ne_run _ _), pixelOpcode_ne_run _ _, hemits⟩
  · have hemits := he.emitsBytes_pass ha (List.replicate m q) (by rw [List.length_replicate]; omega)
    obtain ⟨k, rfl⟩ := Nat.exists_eq_succ_of_ne_zero hm.ne'
    have hrest : passBytes (List.replicate k q) (pixelRegs q s.enc) = runBytes k := by
      rcases Nat.eq_zero_or_pos k with rfl | hk
      · rfl
      · obtain ⟨hpx, -⟩ := pixelStep_bounds q s.enc he ha
        have hnext := passBytes_replicate_prev_last (encInv_pixelRegs q s.enc he ha)
          ((he.pixelRegs_state ha q).trans (if_neg (by omega))) k hk (hpx ▸ (by omega : _ = s.enc.npix.toNat))
        rwa [pixelRegs_run_of_ne hq, show (0 : BitVec 6).toNat = 0 from rfl, Nat.zero_add] at hnext
    rw [List.replicate_succ, passBytes_cons, hrest, pixelBytes_of_ne hq] at hemits
    exact ⟨_, wellFormed_of_ne_run (pixelOpcode_ne_run _ _), pixelOpcode_ne_run _ _, hemits⟩

end Sys2Proof.Machine
end

section
/-! PROOFS. DEC in a pass, one opcode after the other: what it has read and what it has delivered (spec/42_decoder.md
R141 to R154). -/

namespace Sys2Proof.Machine

/-! ## Runs of the machine -/

/-- Steps one after the other. -/
theorem run_add {s t : State} {n : Nat} (m : Nat) (h : Host.Core.run Sys2Proof.core n s = .next t) :
    Host.Core.run Sys2Proof.core (n + m) s = Host.Core.run Sys2Proof.core m t := by
  induction n generalizing s with
  | zero => cases h; rw [Nat.zero_add]
  | succ n ih =>
    cases hs : step s with
    | next u =>
      rw [run_cons s u n hs] at h
      rw [Nat.add_right_comm, run_cons s u _ hs, ih h]
    | fault r => cases r
    | refused r => simp [Host.Core.run, Sys2Proof.core, hs] at h

/-! ## What an opcode emits and leaves (R148, R153, R154) -/

/-- R148, R153: how many pixels an opcode emits. -/
def opcodeCount : Instr → Nat
  | .run l => l.toNat + 1
  | .index _ | .diff .. | .luma .. | .rgb .. | .rgba .. => 1

/-- R148, R153: the cache an opcode leaves. -/
def opcodeCache (i : Instr) (d : Dec) : Cache :=
  match i with
  | .run _ => d.cache
  | .index _ | .diff .. | .luma .. | .rgb .. | .rgba .. => store d.cache (pixelHash (opcodePixel i d)) (opcodePixel i d)

theorem opcodeCount_pos (i : Instr) : 0 < opcodeCount i := by
  cases i with
  | run l => exact Nat.succ_pos _
  | index | diff | luma | rgb | rgba => exact Nat.one_pos

theorem opcodeCount_of_ne_run {i : Instr} (h : ∀ l, i ≠ .run l) : opcodeCount i = 1 := by
  cases i with
  | run l => exact absurd rfl (h l)
  | index | diff | luma | rgb | rgba => rfl

theorem opcodeCache_of_ne_run {i : Instr} (h : ∀ l, i ≠ .run l) (d : Dec) :
    opcodeCache i d = store d.cache (pixelHash (opcodePixel i d)) (opcodePixel i d) := by
  cases i with
  | run l => exact absurd rfl (h l)
  | index | diff | luma | rgb | rgba => rfl

/-- R101, R146 to R151: an opcode's pixel and cache come from the cache and `prev` before it. -/
theorem opcodePixel_congr (i : Instr) {d d' : Dec} (hc : d'.cache = d.cache) (hp : d'.prev = d.prev) :
    opcodePixel i d' = opcodePixel i d ∧ opcodeCache i d' = opcodeCache i d := by
  cases i <;> simp only [opcodePixel, opcodeCache, hc, hp, and_self]

/-- What an opcode that fits does to DEC, in the state with its bytes read. -/
structure OpcodeEmits (i : Instr) (s t : State) : Prop where
  rasterOut : t.mem.rasterOut = memFill s.mem.rasterOut s.dec.outCount.toNat (opcodePixel i s.dec) (opcodeCount i)
  outCount : t.dec.outCount = s.dec.outCount + BitVec.ofNat 32 (opcodeCount i)
  prev : t.dec.prev = opcodePixel i s.dec
  cache : t.dec.cache = opcodeCache i s.dec
  state : t.dec.state = stateAfter (opcodeCount i) .op s.dec
  errCause : t.dec.errCause = causeAfter (opcodeCount i) s.dec
  only : OnlyDecoder s t
  keeps : OpcodeKeeps s.dec t.dec

/-- R154: the state and the cause that CheckComplete leaves. -/
theorem checkComplete_state (s : State) :
    (checkComplete s).dec.state =
      (if s.dec.outCount = s.dec.npix then if s.dec.inPos = s.dec.inLen then .done else .error else s.dec.state) ∧
    (checkComplete s).dec.errCause =
      if s.dec.outCount = s.dec.npix ∧ s.dec.inPos ≠ s.dec.inLen then .fmtTrailingBytes else s.dec.errCause := by
  rcases checkComplete_cases s with ⟨hn, hc⟩ | ⟨hn, hp, hc⟩ | ⟨hn, hp, hc⟩ <;> rw [hc]
  · rw [if_neg hn, if_neg fun h => hn h.1]; exact ⟨rfl, rfl⟩
  · rw [if_pos hn, if_pos hp, if_neg fun h => h.2 hp]; exact ⟨rfl, rfl⟩
  · rw [if_pos hn, if_neg hp, if_pos ⟨hn, hp⟩]; exact ⟨rfl, rfl⟩

/-- R148, R153: an opcode that emits no more pixels than the pass has left. RUN, which does not write `state`, runs in
`OP`. -/
theorem exec_emits (i : Instr) (s : State) (hfit : s.dec.outCount.toNat + opcodeCount i ≤ s.dec.npix.toNat)
    (hrun : ∀ l, i = .run l → s.dec.state = .op) : ∃ t, exec i s = .next t ∧ OpcodeEmits i s t := by
  obtain ⟨t, ht, honly, hkeeps⟩ := exec_next i s
  refine ⟨t, ht, ?_⟩
  by_cases hi : ∃ l, i = .run l
  · obtain ⟨l, rfl⟩ := hi
    have he := (exec_run_cases l s).resolve_left fun h => absurd h.1 (not_lt.2 hfit)
    obtain ⟨hstate, hcause⟩ := checkComplete_state (runEmitted (l.toNat + 1) s)
    rw [he.2] at ht
    cases ht
    exact ⟨congrArg Memory.rasterOut (checkComplete_mem _), checkComplete_dec_outCount _, checkComplete_dec_prev _,
      checkComplete_dec_cache _, hstate.trans (if_congr Iff.rfl rfl (hrun l rfl)), hcause, honly, hkeeps⟩
  · have hne : ∀ l, i ≠ .run l := fun l e => hi ⟨l, e⟩
    have hone := opcodeCount_of_ne_run hne
    obtain ⟨hstate, hcause⟩ := checkComplete_state (pixelFinished (opcodePixel i s.dec) s)
    rw [exec_pixelOpcode i s hne] at ht
    cases ht
    refine ⟨?_, ?_, finishPixel_dec_prev _ s, ?_, ?_, ?_, honly, hkeeps⟩
    · rw [finishPixel_mem, hone, memFill_one]
    · rw [hone]; exact finishPixel_dec_outCount _ s
    · rw [opcodeCache_of_ne_run hne]; exact finishPixel_dec_cache _ s
    · rw [hone]; exact hstate
    · rw [hone]; exact hcause

/-! ## Reading an opcode's bytes -/

theorem readOperands_frame (operands : List Byte) (s : State) : ∃ pos arg argc, readOperands operands s =
    { s with dec := { s.dec with inPos := pos, arg := arg, argc := argc } } := by
  induction operands generalizing s with
  | nil => exact ⟨s.dec.inPos, s.dec.arg, s.dec.argc, rfl⟩
  | cons v operands ih =>
    obtain ⟨pos, arg, argc, h⟩ := ih (takeOperand v (consumeByte s))
    exact ⟨pos, arg, argc, h⟩

/-- R145, R152: reading an opcode's bytes writes the registers of the opcode, `in_pos` and `state`, and no others. -/
theorem readOpcode_frame (bs : List Byte) (s : State) : ∃ pos op first arg argc st, readOpcode bs s =
    { s with dec := { s.dec with
      inPos := pos, op := op, opByte := first, arg := arg, argc := argc, state := st } } := by
  match bs with
  | [] => exact ⟨_, _, _, _, _, _, rfl⟩
  | [v] => exact ⟨_, _, _, _, _, _, rfl⟩
  | v :: w :: operands =>
    obtain ⟨pos, arg, argc, h⟩ := readOperands_frame (w :: operands) (openOpcode v (consumeByte s))
    exact ⟨pos, _, _, arg, argc, _, h⟩

/-- R145, R152: reading an opcode's bytes leaves the image's fields and the cause alone. -/
theorem readOpcode_keeps (bs : List Byte) (s : State) : (readOpcode bs s).dec.width = s.dec.width ∧
    (readOpcode bs s).dec.height = s.dec.height ∧ (readOpcode bs s).dec.errCause = s.dec.errCause := by
  obtain ⟨pos, op, first, arg, argc, st, h⟩ := readOpcode_frame bs s
  rw [h]
  exact ⟨rfl, rfl, rfl⟩

/-- R145: a RUN is read in one step, which leaves DEC in `OP`. -/
theorem readOpcode_run_state (l : BitVec 6) (s : State) : (readOpcode (encode (.run l)) s).dec.state = s.dec.state :=
  rfl

theorem BytesWait.left {bs rest : List Byte} {s : State} (h : BytesWait (bs ++ rest) s) : BytesWait bs s := by
  have hfits := h.fits
  rw [List.length_append] at hfits
  refine ⟨h.taken, h.valid, by omega, fun k hk => ?_⟩
  rw [h.offered k (by rw [List.length_append]; omega), List.getElem?_append_left hk]

/-- R29: once the first of the waiting bytes have been read, the others wait. -/
theorem BytesWait.right {bs rest : List Byte} {s t : State} (h : BytesWait (bs ++ rest) s)
    (hpos : t.dec.inPos.toNat = s.dec.inPos.toNat + bs.length) (hlen : t.dec.inLen = s.dec.inLen)
    (hmem : t.mem.bytesIn = s.mem.bytesIn) (hports : t.ports = s.ports) (htaken : decPxValid t = false) :
    BytesWait rest t := by
  have hfits := h.fits
  rw [List.length_append] at hfits
  refine ⟨htaken, hports ▸ h.valid, by rw [hpos, hlen]; omega, fun k hk => ?_⟩
  rw [hpos, hmem, Nat.add_assoc, h.offered _ (by rw [List.length_append]; omega),
    List.getElem?_append_right (by omega), Nat.add_sub_cancel_left]

/-! ## The pixels delivered (R43, R60) -/

/-- The elements of a stream from an index on, where its elements are those of a list. -/
theorem memFrom_eq_drop {α : Type} {m : List (Nat × α)} {xs : List α} (hwf : memWf m = true)
    (hread : ∀ k, memRead m k = xs[k]?) {base : Nat} (hbase : base ≤ xs.length) : memFrom m base = xs.drop base := by
  obtain ⟨hlen, hitems⟩ := memFrom_of_range m hwf 0 xs.length base (Nat.zero_le _)
    (fun k => by rw [hread k, Bool.eq_iff_iff]; simp) (Nat.zero_le _) hbase
  refine List.ext_getElem? fun k => ?_
  rw [List.getElem?_drop]
  by_cases hk : k < xs.length - base
  · rw [hitems k hk, hread]
  · rw [List.getElem?_eq_none (by omega), List.getElem?_eq_none (by omega)]

/-- DEC has emitted the pixels `out` in its pass, and the sink, which held `sunk` at the start of it, has them all. -/
structure Delivered (sunk out : List Pixel) (s : State) : Prop where
  wf : memWf s.mem.rasterOut = true
  read : ∀ k, memRead s.mem.rasterOut k = out[k]?
  count : s.dec.outCount.toNat = out.length
  taken : s.decTaken = s.dec.outCount
  sink : s.pixelSink = sunk ++ out

theorem Delivered.not_valid {sunk out : List Pixel} {s : State} (h : Delivered sunk out s) : decPxValid s = false := by
  simp [decPxValid, h.taken]

/-- R43, R148: `n` equal pixels emitted, at least one, all move to a sink that is ready. -/
theorem Delivered.emit {sunk out : List Pixel} {s t : State} (h : Delivered sunk out s) (p : Pixel) {n : Nat}
    (hn : 0 < n) (hfit : out.length + n < 2 ^ 32)
    (hm : t.mem.rasterOut = memFill s.mem.rasterOut s.dec.outCount.toNat p n)
    (hc : t.dec.outCount = s.dec.outCount + BitVec.ofNat 32 n) (htaken : t.decTaken = s.decTaken)
    (hsink : t.pixelSink = s.pixelSink) (hready : t.ports.decPxReady = true) :
    Delivered sunk (out ++ List.replicate n p) (drainPixels t) := by
  have hcount := h.count
  have hcount' : t.dec.outCount.toNat = out.length + n := by
    rw [hc, toNat_add_ofNat_of_lt _ _ (by omega), hcount]
  have hwf : memWf t.mem.rasterOut = true := by rw [hm]; exact memWf_memFill _ _ _ _ h.wf
  have hread : ∀ k, memRead t.mem.rasterOut k = (out ++ List.replicate n p)[k]? := fun k => by
    rw [hm, memRead_memFill, hcount, h.read]
    rcases lt_or_ge k out.length with hk | hk
    · rw [if_neg (by omega), List.getElem?_append_left hk]
    · rw [List.getElem?_append_right hk, List.getElem?_replicate, List.getElem?_eq_none hk]
      exact if_congr (by omega) rfl rfl
  have htake : t.decTaken.toNat = out.length := by rw [htaken, h.taken, hcount]
  have hvalid : decPxValid t = true := decide_eq_true fun he => by rw [he] at htake; omega
  have hdrain : drainPixels t = { t with
      pixelSink := t.pixelSink ++ memFrom t.mem.rasterOut t.decTaken.toNat
      decTaken := t.dec.outCount } := if_pos (by rw [hready, hvalid]; rfl)
  rw [hdrain]
  refine ⟨hwf, hread, ?_, rfl, ?_⟩
  · rw [List.length_append, List.length_replicate]; exact hcount'
  · change t.pixelSink ++ _ = _
    rw [memFrom_eq_drop hwf hread (by rw [htake, List.length_append]; omega), htake, List.drop_left, hsink, h.sink,
      List.append_assoc]

/-! ## DEC in a pass -/

/-- DEC in a pass of the dimensions `w` and `h`, its header read: it has delivered the pixels `out`, and its next turns,
before `moves`, read the bytes `bytes`, which are all that is left of its input. -/
structure InPass (w h : Word) (sunk : List Pixel) (moves : List Move) (out : List Pixel) (bytes : List Byte)
    (s : State) : Prop where
  width : s.dec.width = w
  height : s.dec.height = h
  npix : s.dec.npix.toNat = w.toNat * h.toNat
  cause : s.dec.errCause = .none
  wait : BytesWait bytes s
  ends : s.dec.inPos.toNat + bytes.length = s.dec.inLen.toNat
  ready : s.ports.decPxReady = true
  agenda : s.agenda = List.replicate bytes.length (.turn .dec) ++ moves
  delivered : Delivered sunk out s

/-- DEC in a pass, between two opcodes: done when it has delivered every pixel. -/
structure Decoding (w h : Word) (sunk : List Pixel) (moves : List Move) (out : List Pixel) (bytes : List Byte)
    (s : State) : Prop extends InPass w h sunk moves out bytes s where
  state : s.dec.state = if out.length = w.toNat * h.toNat then .done else .op

section
variable {w h : Word} {sunk out : List Pixel} {moves : List Move} {rest : List Byte} {s : State}

/-- R152: an opcode's bytes read, and nothing delivered yet. -/
theorem InPass.readOpcode {bs : List Byte} (hd : InPass w h sunk moves out (bs ++ rest) s) :
    InPass w h sunk moves out rest
      (readOpcode bs { s with agenda := List.replicate rest.length (.turn .dec) ++ moves }) := by
  have hreads := onlyReads_readOpcode bs { s with agenda := List.replicate rest.length (.turn .dec) ++ moves }
  obtain ⟨hwidth, hheight, hcause⟩ := readOpcode_keeps bs
    { s with agenda := List.replicate rest.length (.turn .dec) ++ moves }
  generalize Machine.readOpcode bs { s with agenda := List.replicate rest.length (.turn .dec) ++ moves } = r at *
  have hends := hd.ends
  rw [List.length_append] at hends
  have hinPos : r.dec.inPos.toNat = s.dec.inPos.toNat + bs.length := by
    have hlt : s.dec.inPos.toNat + bs.length < 2 ^ 32 := by omega
    rw [hreads.inPos]
    exact toNat_add_ofNat_of_lt _ _ hlt
  have hdelivered : Delivered sunk out r :=
    { wf := hreads.mem ▸ hd.delivered.wf
      read := hreads.mem ▸ hd.delivered.read
      count := hreads.outCount ▸ hd.delivered.count
      taken := hreads.only.decTaken.trans (hd.delivered.taken.trans hreads.outCount.symm)
      sink := hreads.only.pixelSink.trans hd.delivered.sink }
  exact
    { width := hwidth.trans hd.width
      height := hheight.trans hd.height
      npix := hreads.npix ▸ hd.npix
      cause := hcause.trans hd.cause
      wait := hd.wait.right hinPos hreads.inLen hreads.only.bytesIn hreads.only.ports hdelivered.not_valid
      ends := by rw [hinPos, hreads.inLen, ← hends, Nat.add_assoc]
      ready := hreads.only.ports ▸ hd.ready
      agenda := hreads.only.agenda
      delivered := hdelivered }

/-- R148, R153, R154: an opcode that fits, its bytes read, delivers its pixels; the last one ends the pass. -/
theorem InPass.exec {i : Instr} (hd : InPass w h sunk moves out rest s)
    (hfit : out.length + opcodeCount i ≤ w.toNat * h.toNat)
    (hlast : out.length + opcodeCount i = w.toNat * h.toNat → rest = [])
    (hrun : ∀ l, i = .run l → s.dec.state = .op) :
    ∃ t, exec i s = .next t ∧
      Decoding w h sunk moves (out ++ List.replicate (opcodeCount i) (opcodePixel i s.dec)) rest (drainPixels t) ∧
      t.dec.prev = opcodePixel i s.dec ∧ t.dec.cache = opcodeCache i s.dec := by
  have hnpix := hd.npix
  have hcount := hd.delivered.count
  have hfull := s.dec.npix.isLt
  obtain ⟨t, ht, he⟩ := exec_emits i s (by omega) hrun
  have hports := he.only.ports
  have hdelivered := hd.delivered.emit (opcodePixel i s.dec) (opcodeCount_pos i) (by omega) he.rasterOut he.outCount
    he.only.decTaken he.only.pixelSink (hports ▸ hd.ready)
  have hcompletes : s.dec.outCount + BitVec.ofNat 32 (opcodeCount i) = s.dec.npix ↔
      out.length + opcodeCount i = w.toNat * h.toNat := by
    rw [← BitVec.toNat_inj, toNat_add_ofNat_of_lt _ _ (by omega), hcount, hnpix]
  have hatEnd : out.length + opcodeCount i = w.toNat * h.toNat → s.dec.inPos = s.dec.inLen := fun hl => by
    have hends := hd.ends
    rw [hlast hl] at hends
    exact BitVec.eq_of_toNat_eq hends
  have hstate : t.dec.state = if out.length + opcodeCount i = w.toNat * h.toNat then .done else .op := by
    rw [he.state, stateAfter, if_congr hcompletes rfl rfl]
    split
    next hl => exact if_pos (hatEnd hl)
    next => rfl
  have hcause : t.dec.errCause = .none := by
    rw [he.errCause, causeAfter, if_neg fun hc => hc.2 (hatEnd (hcompletes.1 hc.1)), hd.cause]
  obtain ⟨sink, taken, hdrain⟩ := drainPixels_eq t
  refine ⟨t, ht, ⟨?_, ?_⟩, he.prev, he.cache⟩
  · have hvalid := hdelivered.not_valid
    rw [hdrain] at hdelivered hvalid ⊢
    exact
      { width := he.keeps.width.trans hd.width
        height := he.keeps.height.trans hd.height
        npix := he.keeps.npix ▸ hd.npix
        cause := hcause
        wait := hd.wait.right (bs := []) (congrArg _ he.keeps.inPos) he.keeps.inLen he.only.bytesIn hports hvalid
        ends := he.keeps.inPos ▸ he.keeps.inLen ▸ hd.ends
        ready := hports ▸ hd.ready
        agenda := he.only.agenda.trans hd.agenda
        delivered := hdelivered }
  · rw [drainPixels_dec, hstate, List.length_append, List.length_replicate]

/-- R145 to R154: the turns of an opcode that fits deliver its pixels; the last opcode, and no other, ends the pass. -/
theorem Decoding.opcode {i : Instr} (hd : Decoding w h sunk moves out (encode i ++ rest) s)
    (hi : i.wellFormed = true) (hfit : out.length + opcodeCount i ≤ w.toNat * h.toNat)
    (hlast : out.length + opcodeCount i = w.toNat * h.toNat → rest = []) :
    ∃ t, Host.Core.run Sys2Proof.core (encode i).length s = .next t ∧
      Decoding w h sunk moves (out ++ List.replicate (opcodeCount i) (opcodePixel i s.dec)) rest t ∧
      t.dec.prev = opcodePixel i s.dec ∧ t.dec.cache = opcodeCache i s.dec := by
  have hcount := opcodeCount_pos i
  have hs : s.dec.state = .op := hd.state.trans (if_neg (by omega))
  have ha := hd.agenda
  rw [List.length_append, ← List.replicate_append_replicate, List.append_assoc] at ha
  have hreads := onlyReads_readOpcode (encode i) { s with agenda := List.replicate rest.length (.turn .dec) ++ moves }
  obtain ⟨hpixel, hcache⟩ := opcodePixel_congr i hreads.cache hreads.prev
  obtain ⟨t, ht, hdecoding, hp, hc⟩ := hd.toInPass.readOpcode.exec hfit hlast (by rintro l rfl; exact hs)
  refine ⟨drainPixels t, ?_, hpixel ▸ hdecoding, ?_, ?_⟩
  · exact (run_opcode i s _ hi hs ha hd.wait.left).trans (congrArg (mapNext drainPixels) ht)
  · rw [drainPixels_dec, hp]; exact hpixel
  · rw [drainPixels_dec, hc]; exact hcache

end

end Sys2Proof.Machine
end

section
/-! PROOFS. DEC in step with ENC, pixel by pixel (spec/40_pixel_cache.md R107, spec/41_encoder.md R113, R114). -/

namespace Sys2Proof.Machine

section
variable {w h : Word} {sunk out : List Pixel} {moves : List Move} {s : State}

/-- ENC, with the registers `e`, has the steps of `pixels` still to take, and DEC, with the registers `d`, has delivered
the pixels `out`, which are the pixels before them but for those of ENC's open run. -/
structure InStep (w h : Word) (pixels out : List Pixel) (e : Enc) (d : Dec) : Prop where
  inv : EncInv e
  npix : e.npix.toNat = w.toNat * h.toNat
  left : e.pxPos.toNat + pixels.length = e.npix.toNat
  active : pixels ≠ [] → e.state = .active
  cache : d.cache = e.cache
  prev : d.prev = e.prev
  opened : out.length + e.run.toNat = e.pxPos.toNat

variable {e : Enc} {px : Pixel} {pixels out' : List Pixel} {bytes : List Byte} {d d' : Dec}

/-- R112: after ENC's step on a pixel the two are in step again, where DEC has followed. -/
theorem InStep.next (hi : InStep w h (px :: pixels) out e d) (hcache : d'.cache = (pixelRegs px e).cache)
    (hprev : d'.prev = px) (hopened : out'.length + (pixelRegs px e).run.toNat = e.pxPos.toNat + 1) :
    InStep w h pixels out' (pixelRegs px e) d' := by
  have ha := hi.active (List.cons_ne_nil _ _)
  have hleft := hi.left
  rw [List.length_cons] at hleft
  have hpos : (pixelRegs px e).pxPos.toNat = e.pxPos.toNat + 1 := hi.inv.pxPos_succ ha
  refine ⟨encInv_pixelRegs px e hi.inv ha, hi.npix, ?_, fun hne => ?_, hcache, hprev, hopened.trans hpos.symm⟩
  · rw [hpos, Nat.add_assoc, Nat.add_comm 1]
    exact hleft
  · have hmore := List.length_pos_of_ne_nil hne
    exact (hi.inv.pixelRegs_state ha px).trans (if_neg (by omega))

/-- R114, R148: DEC follows the byte of a run that a differing pixel ends. -/
theorem Decoding.flush (hd : Decoding w h sunk moves out (flushBytes e ++ bytes) s) (hrun : e.run.toNat ≤ 61)
    (hmore : out.length + e.run.toNat < w.toNat * h.toNat) :
    ∃ t, Host.Core.run Sys2Proof.core (flushBytes e).length s = .next t ∧
      Decoding w h sunk moves (out ++ List.replicate e.run.toNat s.dec.prev) bytes t ∧
      t.dec.prev = s.dec.prev ∧ t.dec.cache = s.dec.cache := by
  rw [← flushBytes_eq] at hd ⊢
  by_cases h0 : e.run = 0
  · rw [if_neg (not_not.2 h0)] at hd ⊢
    rw [h0]
    exact ⟨s, rfl, (List.append_nil out).symm ▸ hd, rfl, rfl⟩
  · have hne : e.run.toNat ≠ 0 := fun h => h0 (BitVec.eq_of_toNat_eq h)
    have hlen : (e.run - 1).toNat + 1 = e.run.toNat := by
      have hle : (1 : BitVec 6) ≤ e.run := Nat.one_le_iff_ne_zero.2 hne
      rw [BitVec.toNat_sub_of_le hle]
      exact Nat.sub_add_cancel (Nat.one_le_iff_ne_zero.2 hne)
    rw [if_pos h0] at hd ⊢
    obtain ⟨t, ht, hdecoding, hp, hc⟩ := Decoding.opcode (i := .run (e.run - 1)) hd (decide_eq_true (by omega))
      (by simp only [opcodeCount]; omega) (by simp only [opcodeCount]; omega)
    exact ⟨t, ht, by rwa [opcodeCount, hlen] at hdecoding, hp, hc⟩

/-- R107: ENC has the registers `e`, and the turns of DEC that read the bytes of ENC's step on `px` end with the two in
step again and `bytes` still to read. -/
def Follows (w h : Word) (sunk : List Pixel) (moves : List Move) (px : Pixel) (pixels out : List Pixel)
    (bytes : List Byte) (e : Enc) (s : State) : Prop :=
  ∃ t out', Host.Core.run Sys2Proof.core (pixelBytes px e).length s = .next t ∧
    Decoding w h sunk moves out' bytes t ∧ InStep w h pixels out' (pixelRegs px e) t.dec ∧
    out' ++ List.replicate (pixelRegs px e).run.toNat px = out ++ List.replicate e.run.toNat e.prev ++ [px]

/-- R107, R113: DEC follows ENC's step on a pixel equal to `prev`. -/
theorem Decoding.followsPrev (hi : InStep w h (e.prev :: pixels) out e s.dec)
    (hd : Decoding w h sunk moves out (pixelBytes e.prev e ++ bytes) s) (hlast : pixels = [] → bytes = []) :
    Follows w h sunk moves e.prev pixels out bytes e s := by
  unfold Follows
  have hopened := hi.opened
  have hleft := hi.left
  rw [hi.npix, List.length_cons] at hleft
  by_cases hc : runCloses e = true
  · have hbytes : pixelBytes e.prev e = encode (.run e.run) := by
      rw [pixelBytes, if_pos rfl, if_pos hc, runByte, BitVec.add_sub_cancel]
    rw [hbytes] at hd ⊢
    obtain ⟨t, ht, hdecoding, hp, hcache⟩ := Decoding.opcode hd (decide_eq_true hi.inv.run_le)
      (by simp only [opcodeCount]; omega)
      fun hn => hlast (List.length_eq_zero_iff.1 (by simp only [opcodeCount] at hn; omega))
    have hpixel : opcodePixel (.run e.run) s.dec = e.prev := hi.prev
    rw [hpixel] at hdecoding hp
    refine ⟨t, _, ht, hdecoding, hi.next ?_ hp ?_, ?_⟩
    · rw [pixelRegs_cache_of_prev]
      exact hcache.trans hi.cache
    · rw [pixelRegs_run_of_closes hc, List.length_append, List.length_replicate, ← hopened]
      rfl
    · rw [pixelRegs_run_of_closes hc, opcodeCount, List.replicate_succ', ← List.append_assoc]
      exact List.append_nil _
  · have hc := Bool.eq_false_iff.2 hc
    rw [pixelBytes_of_extends hc] at hd ⊢
    refine ⟨s, out, rfl, hd, hi.next ?_ hi.prev ?_, ?_⟩
    · rw [pixelRegs_cache_of_prev, hi.cache]
    · rw [pixelRegs_run_of_extends hc hi.inv.run_le, ← hopened, Nat.add_assoc]
    · rw [pixelRegs_run_of_extends hc hi.inv.run_le, List.replicate_succ', List.append_assoc]

/-- R107, R114: DEC follows ENC's step on a pixel that differs from `prev`. -/
theorem Decoding.followsDiffering (hi : InStep w h (px :: pixels) out e s.dec) (hp : px ≠ e.prev)
    (hd : Decoding w h sunk moves out (pixelBytes px e ++ bytes) s) (hlast : pixels = [] → bytes = []) :
    Follows w h sunk moves px pixels out bytes e s := by
  unfold Follows
  have hopened := hi.opened
  have hleft := hi.left
  rw [hi.npix, List.length_cons] at hleft
  rw [pixelBytes_of_ne hp] at hd ⊢
  rw [List.append_assoc] at hd
  have hnotRun := pixelOpcode_ne_run px e
  have hone := opcodeCount_of_ne_run hnotRun
  have hlen : (out ++ List.replicate e.run.toNat s.dec.prev).length = e.pxPos.toNat := by
    rw [List.length_append, List.length_replicate, hopened]
  obtain ⟨u, hu, hflushed, hprev, hcache⟩ := hd.flush hi.inv.run_le (by omega)
  obtain ⟨t, ht, hdecoding, hpt, hct⟩ := hflushed.opcode (wellFormed_of_ne_run hnotRun) (by omega)
    fun hn => hlast (List.length_eq_zero_iff.1 (by omega))
  have hpixel : opcodePixel (pixelOpcode px e) u.dec = px :=
    opcodePixel_pixelOpcode px (hcache.trans hi.cache) (hprev.trans hi.prev)
  rw [hpixel] at hpt
  rw [opcodeCache_of_ne_run hnotRun, hpixel, hcache, hi.cache, ← pixelRegs_cache_of_differs hp] at hct
  rw [hone, hpixel] at hdecoding
  refine ⟨t, _, ?_, hdecoding, hi.next hct hpt ?_, ?_⟩
  · rw [List.length_append, run_add _ hu, ht]
  · rw [List.length_append, hlen, pixelRegs_run_of_ne hp]
    rfl
  · rw [pixelRegs_run_of_ne hp, hi.prev]
    exact List.append_nil _

/-- R107, R128: DEC follows ENC to the end of the pass. -/
theorem Decoding.followsPass (hi : InStep w h pixels out e s.dec)
    (hd : Decoding w h sunk moves out (passBytes pixels e) s) :
    ∃ t, Host.Core.run Sys2Proof.core (passBytes pixels e).length s = .next t ∧
      Decoding w h sunk moves (out ++ List.replicate e.run.toNat e.prev ++ pixels) [] t := by
  induction pixels generalizing e s out with
  | nil =>
    have hclosed : e.run = 0 := hi.inv.run_closed fun ha => absurd hi.left (hi.inv.pos_lt ha).ne
    rw [hclosed]
    exact ⟨s, rfl, by rw [List.append_nil]; exact (List.append_nil out).symm ▸ hd⟩
  | cons px pixels ih =>
    have hlast : pixels = [] → passBytes pixels (pixelRegs px e) = [] := fun hnil => by rw [hnil]; rfl
    have hstep : Follows w h sunk moves px pixels out (passBytes pixels (pixelRegs px e)) e s := by
      by_cases hp : px = e.prev
      · subst hp
        exact Decoding.followsPrev hi hd hlast
      · exact Decoding.followsDiffering hi hp hd hlast
    obtain ⟨u, out', hu, hdu, hiu, hout⟩ := hstep
    obtain ⟨t, ht, hdt⟩ := ih hiu hdu
    refine ⟨t, ?_, ?_⟩
    · rw [passBytes_cons, List.length_append, run_add _ hu, ht]
    · rw [show (pixelRegs px e).prev = px from rfl, hout] at hdt
      rwa [List.append_cons]

end

end Sys2Proof.Machine
end

section
/-! PROOFS. DEC started on the bytes that left ENC gives the raster back (spec/41_encoder.md R128). -/

namespace Sys2Proof.Machine

/-! ## The start of both passes -/

/-- R140: DEC's turn with a start request and no pass running. -/
theorem step_starts (s : State) (moves : List Move) (ha : s.agenda = .turn .dec :: moves)
    (hb : s.dec.state.busy = false) (hs : s.ports.decStart = true) (hv : decPxValid s = false) :
    step s = .next (decStart { s with agenda := moves }) := by
  have hstep : decStep { s with agenda := moves } = .next (decStart { s with agenda := moves }) := by
    unfold decStep
    rw [if_neg (by simp [hb]), if_pos hs]
  rw [step_decTurn s moves ha, decTurn_of_not_valid { s with agenda := moves } hv, hstep, mapNext_next,
    drainPixels_of_not_valid]
  rfl

/-- R142 to R144: a header that ENC emits, read whole, sets the fields and opens the opcode stream. -/
theorem parseHeader_headerBytes {w h : Word} (hgood : w ≠ 0 ∧ h ≠ 0 ∧ w.toNat * h.toNat ≤ Config.maxPixels)
    {s : State} (hs : HeaderRead [] s) : ∃ hdr pos, pos.toNat = 14 ∧
      parseHeader (readHeader (headerBytes w h) s) =
        { s with dec := { s.dec with
          hdr := hdr, inPos := pos, width := w, height := h, channels := Config.channelsByte
          colorspace := Config.colorspaceByte, npix := BitVec.ofNat 32 (w.toNat * h.toNat), state := .op } } := by
  obtain ⟨hw, hh, hn⟩ := hgood
  have hlen := length_headerBytes w h
  have hread := hs.readHeader (bs := headerBytes w h) (by rw [hlen]; decide)
  obtain ⟨hdr, pos, hframe⟩ := readHeader_frame (headerBytes w h) s
  rw [hframe, List.nil_append] at hread
  refine ⟨hdr, pos, hread.inPos.trans hlen, ?_⟩
  rw [hframe, HeaderRead.parseHeader hread]
  exact if_neg (not_or.2 ⟨hw, not_or.2 ⟨hh, not_lt.2 hn⟩⟩)

/-- R140, R142 to R144: DEC, started on a header that passes and the bytes `body`, has the header read after fourteen
turns. -/
theorem run_startedHeader {w h : Word} (d : State) (moves : List Move) (body : List Byte)
    (hgood : w ≠ 0 ∧ h ≠ 0 ∧ w.toNat * h.toNat ≤ Config.maxPixels)
    (hbytes : ∀ k, memRead d.mem.bytesIn k = (headerBytes w h ++ body)[k]?)
    (hlen : d.ports.decInLen.toNat = 14 + body.length) (hvalid : d.ports.decInValid = true)
    (hready : d.ports.decPxReady = true) (ha : d.agenda = List.replicate (14 + body.length) (.turn .dec) ++ moves) :
    ∃ t, Host.Core.run Sys2Proof.core 14 (decStart d) = .next t ∧ Decoding w h d.pixelSink moves [] body t ∧
      t.dec.cache = cacheReset ∧ t.dec.prev = .black := by
  obtain ⟨hcount, hpos⟩ := pixelCount_of_goodDims w h hgood.1 hgood.2.1 hgood.2.2
  have hheader := length_headerBytes w h
  have hwait : BytesWait (headerBytes w h ++ body) (decStart d) :=
    ⟨rfl, hvalid, by rw [List.length_append, hheader]; exact (Nat.zero_add _).trans_le hlen.ge,
      fun k _ => (congrArg (memRead _) (Nat.zero_add k)).trans (hbytes k)⟩
  rw [← List.replicate_append_replicate, List.append_assoc] at ha
  have hrun := run_header (headerBytes w h) (read := [])
    (fields := be32 w ++ be32 h ++ [Config.channelsByte, Config.colorspaceByte]) (decStart d) _ ⟨rfl, rfl, nofun⟩
    (by simp only [headerBytes, List.nil_append, List.append_assoc]) rfl (by rintro ⟨⟩) ha hwait.left
  obtain ⟨hdr, pos, hpos14, hparsed⟩ := parseHeader_headerBytes hgood
    (s := { decStart d with agenda := List.replicate body.length (.turn .dec) ++ moves }) ⟨rfl, rfl, nofun⟩
  rw [hparsed] at hrun
  refine ⟨_, hrun, ⟨?_, ?_⟩, rfl, rfl⟩
  · exact
      { width := rfl
        height := rfl
        npix := hcount
        cause := rfl
        wait := hwait.right (hpos14.trans (by rw [hheader]; rfl)) rfl rfl rfl rfl
        ends := (congrArg (· + body.length) hpos14).trans hlen.symm
        ready := hready
        agenda := rfl
        delivered := ⟨rfl, fun _ => rfl, rfl, rfl, (List.append_nil _).symm⟩ }
  · exact (if_neg hpos.ne).symm

/-- R110: a start that passes leaves ENC in its invariant, whatever ENC held, since the start step reads the ports
alone. -/
theorem encInv_encStart_accepted (s : State) (h : startAccepted s.ports) : EncInv (encStart s).enc := by
  have hsame := (startForgetsEarlierPasses s { State.reset with ports := s.ports } rfl).1 h.1 h.2.1 h.2.2
  rw [hsame.1]
  exact encInv_encStart { State.reset with ports := s.ports } (encInv_atReset _) nofun

/-- R110, R128: after a start that passes ENC has every pixel to take, and DEC, its header read, is in step with it. -/
theorem inStep_encStart {s : State} (h : startAccepted s.ports) {pixels : List Pixel}
    (hlen : pixels.length = s.ports.encWidth.toNat * s.ports.encHeight.toNat) {d : Dec} (hcache : d.cache = cacheReset)
    (hprev : d.prev = .black) :
    InStep s.ports.encWidth s.ports.encHeight pixels [] (encStart s).enc d := by
  have hinv := encInv_encStart_accepted s h
  have hcount := (pixelCount_of_goodDims _ _ h.1 h.2.1 h.2.2).1
  rw [encStart_accepted s h] at hinv ⊢
  exact ⟨hinv, hcount, (Nat.zero_add _).trans (hlen.trans hcount.symm), fun _ => rfl, hcache, hprev, rfl⟩

/-- R110, R123: ENC's steps on a raster that passes, one for each pixel from the start on. -/
theorem passRegs_encStart {s : State} (h : startAccepted s.ports) {pixels : List Pixel}
    (hlen : pixels.length = s.ports.encWidth.toNat * s.ports.encHeight.toNat) :
    (passRegs pixels (encStart s).enc).state = .done ∧
      (passRegs pixels (encStart s).enc).outCount.toNat = 14 + (passBytes pixels (encStart s).enc).length := by
  have hi := inStep_encStart h hlen (d := { Dec.atReset cacheReset with prev := .black }) rfl rfl
  have hact : (encStart s).enc.state = .active := by rw [encStart_accepted s h]
  have hreached := hi.inv.passReached hact pixels hi.left.le
  refine ⟨hreached.state.trans (if_pos hi.left), hreached.outCount.trans ?_⟩
  rw [encStart_accepted s h]
  rfl

/-- R60: the stream of bytes emitted from the start of a pass on holds them from index 0. -/
theorem memRead_bytesAppended_nil (bs : List Byte) (hlen : bs.length ≤ 2 ^ 32) (k : Nat) :
    memRead (bytesAppended [] 0 bs) k = bs[k]? := by
  rw [memRead_bytesAppended [] 0 bs k ((Nat.zero_add _).trans_le hlen)]
  split
  next => rfl
  next hk =>
    have hge : bs.length ≤ k := not_lt.1 fun hlt => hk ⟨Nat.zero_le _, hlt.trans_eq (Nat.zero_add _).symm⟩
    exact (List.getElem?_eq_none hge).symm

/-- R60, R111: what BYTES_OUT holds after a start that passes and a step on each of `pixels`. -/
theorem bytesOut_pass {s : State} (h : startAccepted s.ports) (pixels : List Pixel) :
    (pixels.foldl (fun u p => encPixel p u) (encStart s)).mem.bytesOut =
      bytesAppended [] 0
        (headerBytes s.ports.encWidth s.ports.encHeight ++ passBytes pixels (encStart s).enc) := by
  rw [foldl_encPixel_eq, bytesAppended_append, encStart_accepted s h]
  rfl

/-- Settles O50: ENC's bytes are the header and `passBytes`; DEC reads the header by `run_startedHeader` and is then in
step with ENC, whose pass it follows by `Decoding.followsPass`, by induction over the pixels. -/
theorem decodeOfEncodeIsTheRaster : Obligations.DecodeOfEncodeIsTheRaster := by
  intro s e d pixels moves hw hh hn hpixels he
  have hgood : startAccepted s.ports := ⟨hw, hh, hn⟩
  obtain ⟨hdone, hcount⟩ := passRegs_encStart hgood hpixels
  have hregs : e.enc = passRegs pixels (encStart s).enc := by rw [he, foldl_encPixel_eq]
  rw [← hregs] at hdone hcount
  refine ⟨hdone, fun hbytesIn hb hv hs hl hvalid hready ha => ?_⟩
  have hbytes : ∀ k, memRead d.mem.bytesIn k =
      (headerBytes s.ports.encWidth s.ports.encHeight ++ passBytes pixels (encStart s).enc)[k]? := fun k => by
    rw [hbytesIn, he, bytesOut_pass hgood, memRead_bytesAppended_nil]
    rw [List.length_append, length_headerBytes, ← hcount]
    exact e.enc.outCount.isLt.le
  rw [hcount, List.replicate_succ, List.cons_append] at ha
  have hstep := step_starts d _ ha hb hs hv
  obtain ⟨u, hu, hdu, hcache, hprev⟩ := run_startedHeader
    { d with agenda := List.replicate (14 + (passBytes pixels (encStart s).enc).length) (.turn .dec) ++ moves }
    moves _ hgood hbytes ((congrArg BitVec.toNat hl).trans hcount) hvalid hready rfl
  obtain ⟨t, ht, hdt⟩ := hdu.followsPass (inStep_encStart hgood hpixels hcache hprev)
  have hrun : (encStart s).enc.run = 0 := by rw [encStart_accepted s hgood]
  rw [hrun] at hdt
  refine ⟨t, ?_, hdt.state.trans (if_pos hpixels), hdt.cause, hdt.width, hdt.height, hdt.delivered.sink, hdt.agenda,
    hdt.delivered.read⟩
  rw [hcount, run_cons d _ _ hstep, run_add _ hu, ht]

end Sys2Proof.Machine
end

section
/-! PROOFS. What each opcode does once its bytes have been read (spec/42_decoder.md R146 to R154, R183). -/

namespace Sys2Proof.Machine

/-- R20, R148, R153: every opcode is DEC's alone, and leaves the registers of `OpcodeKeeps`. -/
theorem exec_frame {i : Instr} {s t : State} (h : exec i s = .next t) : OnlyDecoder s t ∧ OpcodeKeeps s.dec t.dec := by
  obtain ⟨u, hu, hframe⟩ := exec_next i s
  rw [hu] at h
  cases h
  exact hframe

/-! ## The five opcodes that end in FinishPixel (R153) -/

/-- R153, R154: an opcode other than RUN emits its pixel, stores it at its own hash, keeps it in `prev`, closes the
opcode registers, and ends in one of the three ways of R154. -/
theorem pixelOpcode_completes (i : Instr) (s : State) (hi : ∀ l, i ≠ .run l) :
    ∃ t, exec i s = .next t ∧
      memRead t.mem.rasterOut s.dec.outCount.toNat = some (opcodePixel i s.dec) ∧
      lookup t.dec.cache (pixelHash (opcodePixel i s.dec)) = opcodePixel i s.dec ∧
      t.dec.prev = opcodePixel i s.dec ∧ t.dec.outCount = s.dec.outCount + 1 ∧
      t.dec.op = .none ∧ t.dec.argc = 0 ∧
      t.dec.state = stateAfter 1 .op s.dec ∧ t.dec.errCause = causeAfter 1 s.dec := by
  obtain ⟨hstate, hcause⟩ := checkComplete_state (pixelFinished (opcodePixel i s.dec) s)
  refine ⟨_, exec_pixelOpcode i s hi, ?_, ?_, finishPixel_dec_prev _ s, finishPixel_dec_outCount _ s,
    finishPixel_dec_op _ s, finishPixel_dec_argc _ s, hstate, hcause⟩
  · rw [finishPixel_mem]
    exact memRead_memWrite_self _ _ _
  · rw [finishPixel_dec_cache, lookup_store_self]

/-- Settles O11: RGBA's pixel is its four operands. -/
theorem rgbaProducesItsOperands : Obligations.RgbaProducesItsOperands := fun r g b a s =>
  pixelOpcode_completes (.rgba r g b a) s nofun

/-- Settles O12: RGB's pixel is its three operands with the alpha of `prev`. -/
theorem rgbKeepsPreviousAlpha : Obligations.RgbKeepsPreviousAlpha := fun r g b s =>
  pixelOpcode_completes (.rgb r g b) s nofun

/-- Settles O13: INDEX's pixel is that of the slot named, and FinishPixel stores it at its own hash. -/
theorem indexReproducesSlotAndStoresAtHash : Obligations.IndexReproducesSlotAndStoresAtHash := fun i s =>
  pixelOpcode_completes (.index i) s nofun

/-- R11, R92: a delta is added to a channel modulo 256. -/
theorem addDelta_toNat (p : Byte) (d : Int) : ((addDelta p d).toNat : Int) = ((p.toNat : Int) + d) % 256 := by
  unfold addDelta add8
  rw [BitVec.toNat_add, Int.natCast_mod, Int.natCast_add, BitVec.toNat_ofInt]
  omega

/-- Settles O14: DIFF's pixel adds each field less 2 to a channel of `prev`, by `addDelta_toNat`. -/
theorem diffAddsBiasedDeltas : Obligations.DiffAddsBiasedDeltas := by
  intro rr gg bb s
  obtain ⟨t, ht, hmem, hcache, hprev, hrest⟩ := pixelOpcode_completes (.diff rr gg bb) s nofun
  have hpx : t.dec.prev = diffPixel rr gg bb s.dec.prev := hprev
  rw [← hprev] at hmem hcache
  refine ⟨t, ht, hmem, hcache, ?_, ?_, ?_, (congrArg Pixel.a hpx :), hrest⟩ <;> rw [hpx] <;> exact addDelta_toNat _ _

/-- Settles O15: LUMA's pixel adds the green delta to each channel of `prev`, and to red and blue the nibble's own as
well, by `addDelta_toNat`. -/
theorem lumaAddsGreenBasedDeltas : Obligations.LumaAddsGreenBasedDeltas := by
  intro g rrrr bbbb s
  obtain ⟨t, ht, hmem, hcache, hprev, hrest⟩ := pixelOpcode_completes (.luma g rrrr bbbb) s nofun
  have hpx : t.dec.prev = lumaPixel g rrrr bbbb s.dec.prev := hprev
  rw [← hprev] at hmem hcache
  refine ⟨t, ht, hmem, hcache, ?_, ?_, ?_, (congrArg Pixel.a hpx :), hrest⟩ <;> rw [hpx] <;> exact addDelta_toNat _ _

/-- Settles O19: FinishPixel writes one slot and one index of RASTER_OUT, and of its three endings one writes the
cause. -/
theorem pixelOpcodesFrame : Obligations.PixelOpcodesFrame := by
  intro i s t hi ht
  rw [exec_pixelOpcode i s hi] at ht
  cases ht
  refine ⟨onlyDecoder_finishPixel _ s, opcodeKeeps_finishPixel _ s, fun slot hslot => ?_, fun a ha => ?_, ?_⟩
  · rw [finishPixel_dec_prev] at hslot
    rw [finishPixel_dec_cache, lookup_store_other _ _ _ _ hslot]
  · rw [finishPixel_mem]
    exact memRead_memWrite_other _ _ _ a ha
  · rcases finishPixel_ending (opcodePixel i s.dec) s with ⟨-, -, hc⟩ | ⟨-, -, -, hc⟩ | ⟨-, -, hs, hc⟩
    · exact .inl hc
    · exact .inl hc
    · exact .inr ⟨hc, hs⟩

/-! ## RUN (R148) -/

/-- R148: a RUN that fits emits its pixels and checks for the end. -/
theorem exec_run_of_fits {l : BitVec 6} {s : State} (h : s.dec.outCount.toNat + (l.toNat + 1) ≤ s.dec.npix.toNat) :
    exec (.run l) s = .next (checkComplete (runEmitted (l.toNat + 1) s)) :=
  ((exec_run_cases l s).resolve_left fun hover => absurd hover.1 (not_lt.2 h)).2

/-- R148: a RUN that would pass the pixel count raises. -/
theorem exec_run_of_overruns {l : BitVec 6} {s : State}
    (h : s.dec.npix.toNat < s.dec.outCount.toNat + (l.toNat + 1)) :
    exec (.run l) s = .next (raise .dec .fmtRunOverrun s) :=
  ((exec_run_cases l s).resolve_right fun hfits => absurd hfits.1 (not_le.2 h)).2

/-- R148: a RUN that fits puts its copies of `prev` at the end of RASTER_OUT and leaves the rest of it alone. -/
theorem memRead_runEmitted (n : Nat) (s : State) (a : Nat) :
    memRead (checkComplete (runEmitted n s)).mem.rasterOut a =
      if s.dec.outCount.toNat ≤ a ∧ a < s.dec.outCount.toNat + n then some s.dec.prev
      else memRead s.mem.rasterOut a := by
  rw [checkComplete_mem]
  exact memRead_memFill _ _ _ n a

/-- Settles O17: error entry writes the cause and the state, and RUN raises before it emits. -/
theorem runOverrunRaisesBeforeEmitting : Obligations.RunOverrunRaisesBeforeEmitting := fun _ _ h =>
  exec_run_of_overruns h

/-- Settles O16: the registers are those before CheckComplete, but for the state and the cause, and the count cannot
wrap. -/
theorem runRepeatsPreviousPixel : Obligations.RunRepeatsPreviousPixel := by
  intro l s hfit
  have hnpix := s.dec.npix.isLt
  obtain ⟨hstate, hcause⟩ := checkComplete_state (runEmitted (l.toNat + 1) s)
  refine ⟨_, exec_run_of_fits hfit, fun k hk => ?_, ?_, checkComplete_dec_cache _, checkComplete_dec_prev _,
    checkComplete_dec_op _, checkComplete_dec_argc _, hstate, hcause⟩
  · rw [memRead_runEmitted, if_pos (by omega)]
  · rw [checkComplete_dec_outCount]
    exact toNat_add_ofNat_of_lt s.dec.outCount (l.toNat + 1) (by omega)

/-- Settles O20: an overrun is an error entry; a RUN that fits writes the indices of its pixels, and CheckComplete
nothing but the state and the cause. -/
theorem runOpcodeFrame : Obligations.RunOpcodeFrame := by
  intro l s t ht
  obtain ⟨honly, hkeeps⟩ := exec_frame ht
  refine ⟨honly, hkeeps, ?_⟩
  rcases exec_run_cases l s with ⟨-, he⟩ | ⟨-, he⟩ <;> rw [he] at ht <;> cases ht
  · exact ⟨rfl, rfl, rfl, rfl, fun _ _ => rfl, .inr (.inr ⟨rfl, rfl, rfl, rfl⟩)⟩
  · refine ⟨checkComplete_dec_cache _, checkComplete_dec_prev _, checkComplete_dec_op _, checkComplete_dec_argc _,
      fun a ha => ?_, ?_⟩
    · rw [memRead_runEmitted, if_neg (by omega)]
    · rcases checkComplete_cases (runEmitted (l.toNat + 1) s) with ⟨-, hc⟩ | ⟨-, -, hc⟩ | ⟨-, -, hc⟩ <;> rw [hc]
      · exact .inl rfl
      · exact .inl rfl
      · exact .inr (.inl ⟨rfl, rfl⟩)

/-! ## An opcode that ends the pass (R154) -/

theorem stateAfter_of_bytesLeft {n : Nat} {between : DecState} {d : Dec}
    (hcount : d.outCount + BitVec.ofNat 32 n = d.npix) (hleft : d.inPos ≠ d.inLen) :
    stateAfter n between d = .error := by
  rw [stateAfter, if_pos hcount, if_neg hleft]

theorem causeAfter_of_bytesLeft {n : Nat} {d : Dec} (hcount : d.outCount + BitVec.ofNat 32 n = d.npix)
    (hleft : d.inPos ≠ d.inLen) : causeAfter n d = .fmtTrailingBytes :=
  if_pos ⟨hcount, hleft⟩

/-- Settles O18: the opcode fits, so it has emitted its pixels and `prev` is that pixel (`runRepeatsPreviousPixel`,
`pixelOpcode_completes`), and with bytes left over the ending is that of `FMT_TRAILING_BYTES`. -/
theorem trailingBytesRaiseAfterLastPixel : Obligations.TrailingBytesRaiseAfterLastPixel := by
  intro i s n hn hlast hleft
  have hnpix := s.dec.npix.isLt
  have hcount : s.dec.outCount + BitVec.ofNat 32 n = s.dec.npix :=
    BitVec.eq_of_toNat_eq ((toNat_add_ofNat_of_lt _ n (by omega)).trans hlast)
  have hstate := fun between => stateAfter_of_bytesLeft (between := between) hcount hleft
  have hcause := causeAfter_of_bytesLeft hcount hleft
  by_cases hi : ∃ l, i = .run l
  · obtain ⟨l, rfl⟩ := hi
    obtain rfl : n = l.toNat + 1 := hn
    obtain ⟨t, ht, hmem, hout, -, hprev, -, -, hs, hc⟩ := runRepeatsPreviousPixel l s hlast.le
    exact ⟨t, ht, hs.trans (hstate _), hc.trans hcause, BitVec.eq_of_toNat_eq (hout.trans hlast),
      (exec_frame ht).2.inPos, hprev, hmem⟩
  · have hne : ∀ l, i ≠ .run l := fun l e => hi ⟨l, e⟩
    obtain rfl : n = 1 := by
      cases i with
      | run l => exact absurd rfl (hne l)
      | index | diff | luma | rgb | rgba => exact hn
    obtain ⟨t, ht, hmem, -, hprev, hout, -, -, hs, hc⟩ := pixelOpcode_completes i s hne
    refine ⟨t, ht, hs.trans (hstate _), hc.trans hcause, hout.trans hcount, (exec_frame ht).2.inPos, hprev,
      fun k hk => ?_⟩
    obtain rfl : k = 0 := by omega
    exact hmem

end Sys2Proof.Machine
end

section
/-! PROOFS. What one turn of DEC does: the start, a byte read, the end of the input; and that a pass ends
(spec/42_decoder.md R140 to R145, R152, R155, spec/60_exceptions.md R182, R184). -/

namespace Sys2Proof.Machine

/-! ## Every step answers (R155, R182) -/

theorem agentTurn_next (a : Agent) (s : State) : ∃ t, agentTurn a s = .next t := by
  cases a with
  | enc => exact ⟨_, rfl⟩
  | dec => exact decTurn_next s

theorem doMove_next (m : Move) (s : State) : ∃ t, doMove m s = .next t := by
  cases m with
  | turn a => exact agentTurn_next a s
  | rst | takeByte | takePixel | driveEncStart | driveEncPxValid | driveEncOutReady | driveDecStart | driveDecInValid
  | driveDecPxReady | putPixel | putByte => exact ⟨_, rfl⟩

/-- Settles O56: a step is a move of the agenda or an agent's turn, and each of these answers. -/
theorem stepAlwaysAnswers : Obligations.StepAlwaysAnswers := by
  intro s
  cases ha : s.agenda with
  | nil =>
    rw [step_nil s ha]
    exact agentTurn_next _ _
  | cons m moves =>
    rw [step_cons s m moves ha]
    exact doMove_next m _

/-! ## What one turn of DEC does -/

/-- R141, R182: a busy DEC at the end of its input raises, whatever is offered. -/
theorem decStep_truncates (s : State) (hb : s.dec.state.busy = true) (hp : s.dec.inPos = s.dec.inLen) :
    decStep s = .next (raise .dec .fmtTruncated s) := by
  unfold decStep
  rw [if_pos hb, if_pos hp]

/-- R185: with no pass running and no start request DEC changes nothing. -/
theorem decStep_rests (s : State) (hb : s.dec.state.busy = false) (hs : s.ports.decStart = false) :
    decStep s = .next s := by
  unfold decStep
  rw [if_neg (by simp [hb]), if_neg (by simp [hs])]

/-- R43, R141: the byte a host offers within the input waits to be read. -/
theorem bytesWait_of_offeredByte {s : State} {v : Byte} (hv : decPxValid s = false)
    (hp : s.dec.inPos.toNat < s.dec.inLen.toNat) (ho : offeredByte s = some v) : BytesWait [v] s := by
  unfold offeredByte at ho
  obtain ⟨hvalid, hread⟩ := Option.ite_none_right_eq_some.1 ho
  refine ⟨hv, hvalid, hp, fun k hk => ?_⟩
  obtain rfl : k = 0 := by simpa using hk
  exact hread

/-- Settles O26: the end of the input is looked for before a byte is, and error entry writes the cause and the state. -/
theorem truncationIsRaisedBeforeAnyByteCheck : Obligations.TruncationIsRaisedBeforeAnyByteCheck := by
  intro s moves ha hb hp hv
  rw [step_decTurn s moves ha, decTurn_of_not_valid { s with agenda := moves } hv,
    decStep_truncates { s with agenda := moves } hb hp, mapNext_next]
  exact congrArg _ (drainPixels_of_not_valid _ hv)

/-- Settles O21: the byte offered waits to be read, and there is a lemma about DEC's turn for each kind of byte. -/
theorem stepRunsTheDecodedOpcode : Obligations.StepRunsTheDecodedOpcode := by
  intro s moves v ha hv hp ho
  have hw := (bytesWait_of_offeredByte hv hp ho).withAgenda moves
  rw [step_decTurn s moves ha]
  exact ⟨fun i hs hd => decTurn_runsOneByteOpcode _ v [] i hs hw hd, fun hs hd => decTurn_opensOpcode _ v [] hs hw hd,
    fun i hs hc hd => decTurn_runsOpcode _ v [] i hs hw hc hd, fun hs hc => decTurn_keepsOperand _ v [] hs hw hc⟩

/-- Settles O23: the turn is DEC's start step (`step_starts`), which writes each of these registers. -/
theorem decodeStartSetsThePass : Obligations.DecodeStartSetsThePass := by
  intro s moves ha hs hb hv
  exact ⟨_, step_starts s moves ha hb hs hv, rfl, rfl, rfl, rfl, rfl, rfl, rfl, rfl,
    fun _ h => Vector.getElem_replicate h, rfl, rfl, rfl, fun _ h => Vector.getElem_replicate h, rfl,
    lookup_cacheReset, rfl, rfl, rfl, rfl, rfl⟩

/-- R142: the byte read at index 3 is kept there, and the header bytes before it stay. -/
theorem getElem_keepHeaderByte_three {s : State} (hp : s.dec.inPos = 3) (v : Byte) (k : Nat) (hk : k < 14) :
    (keepHeaderByte v s).dec.hdr[k] = if 3 = k then v else s.dec.hdr[k] := by
  simp only [keepHeaderByte_dec_hdr, hp]
  exact Vector.getElem_setIfInBounds hk

/-- R143: the byte read at index 3 completes the magic, which is then checked. -/
theorem decHeader_wrongMagic {s : State} {v : Byte} (hp : s.dec.inPos = 3)
    (hm : bigEndian32 s.dec.hdr[0] s.dec.hdr[1] s.dec.hdr[2] v ≠ Config.magic) :
    decHeader v s = raise .dec .fmtBadMagic (keepHeaderByte v s) := by
  have hread := getElem_keepHeaderByte_three hp v
  unfold decHeader checkMagic
  rw [if_pos hp, if_pos]
  rwa [hread 0, hread 1, hread 2, hread 3]

/-- Settles O25: the turn keeps the byte, checks the magic and raises (`decHeader_wrongMagic`). -/
theorem wrongMagicIsRejectedAtByteThree : Obligations.WrongMagicIsRejectedAtByteThree := by
  intro s moves v ha hs hp hlen hv ho hm
  have hw : BytesWait [v] s := bytesWait_of_offeredByte hv (by rw [hp]; exact hlen) ho
  have hheader := decHeader_wrongMagic (s := { s with agenda := moves }) hp hm
  have hdrain := drainPixels_of_not_valid
    (raise .dec .fmtBadMagic (keepHeaderByte v { s with agenda := moves })) hv
  have hread := getElem_keepHeaderByte_three hp v
  have hstep := step_readsHeader s v [] moves ha hs hw
  rw [hheader, hdrain] at hstep
  exact ⟨_, hstep, rfl, rfl, congrArg (· + 1) hp, rfl, rfl, hread 0 (by decide), hread 1 (by decide),
    hread 2 (by decide), hread 3 (by decide)⟩

/-! ## A pass ends (R155) -/

/-- R28: no opcode goes back to `IDLE`. -/
theorem exec_ne_idle {i : Instr} {s t : State} (hs : s.dec.state ≠ .idle) (h : exec i s = .next t) :
    t.dec.state ≠ .idle := by
  by_cases hi : ∃ l, i = .run l
  · obtain ⟨l, rfl⟩ := hi
    rcases exec_run_cases l s with ⟨-, he⟩ | ⟨-, he⟩ <;> rw [he] at h <;> cases h
    · nofun
    · rcases checkComplete_cases (runEmitted (l.toNat + 1) s) with ⟨-, hc⟩ | ⟨-, -, hc⟩ | ⟨-, -, hc⟩ <;> rw [hc]
      · exact hs
      · nofun
      · nofun
  · rw [exec_pixelOpcode i s fun l e => hi ⟨l, e⟩] at h
    cases h
    rcases finishPixel_ending (opcodePixel i s.dec) s with ⟨-, hc, -⟩ | ⟨-, -, hc, -⟩ | ⟨-, -, hc, -⟩ <;> rw [hc] <;>
      nofun

/-- R141: what a step that reads a byte leaves of the position, and that it does not go back to `IDLE`. -/
structure ReadsOne (s t : State) : Prop where
  inPos : t.dec.inPos = s.dec.inPos + 1
  inLen : t.dec.inLen = s.dec.inLen
  not_idle : t.dec.state ≠ .idle

theorem readsOne_exec {i : Instr} {s r t : State} (hr : ReadsOne s r) (h : exec i r = .next t) : ReadsOne s t := by
  obtain ⟨-, hkeeps⟩ := exec_frame h
  exact ⟨hkeeps.inPos.trans hr.inPos, hkeeps.inLen.trans hr.inLen, exec_ne_idle hr.not_idle h⟩

theorem readsOne_decHeader (v : Byte) (s : State) (hs : s.dec.state = .hdr) : ReadsOne s (decHeader v s) := by
  have hkeep : ReadsOne s (keepHeaderByte v s) := ⟨rfl, rfl, by simp [hs]⟩
  unfold decHeader checkMagic parseHeader
  dsimp only
  split_ifs
  · exact ⟨rfl, rfl, nofun⟩
  · exact hkeep
  · exact ⟨rfl, rfl, nofun⟩
  · exact ⟨rfl, rfl, nofun⟩
  · exact hkeep

/-- R141: a byte step of a running pass, in each of its three states. -/
theorem readsOne_decByte {v : Byte} {s t : State} (hb : s.dec.state.busy = true) (h : decByte v s = .next t) :
    ReadsOne s t := by
  have hidle : s.dec.state ≠ .idle := fun e => by rw [e] at hb; cases hb
  have hconsume : ReadsOne s (consumeByte s) := ⟨rfl, rfl, hidle⟩
  have htake : ReadsOne s (takeOperand v (consumeByte s)) := ⟨rfl, rfl, hidle⟩
  unfold decByte at h
  rcases (decBusy_iff _).1 hb with hs | hs | hs <;> rw [hs] at h
  · cases h; exact readsOne_decHeader v s hs
  · rcases decode_firstByte v with ⟨i, hd, -⟩ | ⟨hd, -⟩
    · exact readsOne_exec hconsume ((decOp_of_decode v i s hd).symm.trans h)
    · cases (decOp_of_truncated v s hd).symm.trans h
      exact ⟨rfl, rfl, nofun⟩
  · cases hc : operandsComplete (takeOperand v (consumeByte s)).dec with
    | true =>
      obtain ⟨i, hd, -⟩ := decode_collectedBytes _ hc
      exact readsOne_exec htake ((decArg_of_complete v i s hc hd).symm.trans h)
    | false =>
      cases (decArg_of_incomplete v s hc).symm.trans h
      exact htake

/-- R155: with the host offering every byte left, taking every pixel and asking for no start, a pass that still runs is
less than `n` bytes from the end of its input. -/
structure EndsWithin (n : Nat) (s : State) : Prop where
  valid : s.ports.decInValid = true
  ready : s.ports.decPxReady = true
  no_start : s.ports.decStart = false
  offered : ∀ k, s.dec.inPos.toNat ≤ k → k < s.dec.inLen.toNat → memRead s.mem.bytesIn k ≠ none
  not_idle : s.dec.state ≠ .idle
  left : s.dec.state.busy = true → s.dec.inPos.toNat ≤ s.dec.inLen.toNat ∧ s.dec.inLen.toNat < s.dec.inPos.toNat + n

theorem EndsWithin.drainPixels {n : Nat} {s : State} (h : EndsWithin n s) : EndsWithin n (drainPixels s) := by
  obtain ⟨sink, taken, hd⟩ := drainPixels_eq s
  rw [hd]
  exact { h with }

/-- R155: a pass with no turn left has ended. -/
theorem EndsWithin.ended {s : State} (h : EndsWithin 0 s) : s.dec.state = .done ∨ s.dec.state = .error := by
  have hnot : s.dec.state.busy ≠ true := fun hb => by
    obtain ⟨hle, hlt⟩ := h.left hb
    omega
  cases hs : s.dec.state with
  | idle => exact absurd hs h.not_idle
  | hdr | op | arg => exact absurd (by rw [hs]; rfl) hnot
  | done => exact .inl rfl
  | error => exact .inr rfl

/-- R141: a byte of the input left to read is offered. -/
theorem EndsWithin.offeredByte {n : Nat} {s : State} (h : EndsWithin n s) (hp : s.dec.inPos.toNat < s.dec.inLen.toNat) :
    ∃ v, offeredByte s = some v := by
  unfold Machine.offeredByte
  rw [if_pos h.valid]
  exact Option.ne_none_iff_exists'.1 (h.offered _ (le_refl _) hp)

/-- R141, R155: DEC's step reads a byte, or raises at the end of the input, or finds the pass ended. -/
theorem EndsWithin.decStep {n : Nat} {s t : State} (h : EndsWithin (n + 1) s) (hv : decPxValid s = false)
    (ht : decStep s = .next t) : EndsWithin n t := by
  obtain ⟨-, -, -, -, -, hbytes, hports, -⟩ := decStep_frame s t ht
  cases hb : s.dec.state.busy with
  | false =>
    rw [decStep_rests s hb h.no_start] at ht
    cases ht
    exact { h with left := fun hrun => absurd hrun (by simp [hb]) }
  | true =>
    obtain ⟨hle, hlt⟩ := h.left hb
    rcases hle.eq_or_lt with hend | hmore
    · rw [decStep_truncates s hb (BitVec.eq_of_toNat_eq hend)] at ht
      cases ht
      exact { h with not_idle := nofun, left := nofun }
    · obtain ⟨v, ho⟩ := h.offeredByte hmore
      rw [decStep_reads s v hb hmore hv ho] at ht
      have hread := readsOne_decByte hb ht
      have hpos : t.dec.inPos.toNat = s.dec.inPos.toNat + 1 := by rw [hread.inPos, inPos_succ s.dec hmore]
      exact
        { valid := hports ▸ h.valid
          ready := hports ▸ h.ready
          no_start := hports ▸ h.no_start
          offered := fun k hk hlen => by
            rw [hread.inLen] at hlen
            rw [hbytes]
            exact h.offered k (by omega) hlen
          not_idle := hread.not_idle
          left := fun _ => by
            rw [hpos, hread.inLen]
            omega }

/-- R43, R155: a turn of DEC brings the end of the pass one turn nearer. -/
theorem EndsWithin.step {n : Nat} {s : State} {moves : List Move} (h : EndsWithin (n + 1) s)
    (ha : s.agenda = .turn .dec :: moves) : ∃ t, step s = .next t ∧ EndsWithin n t ∧ t.agenda = moves := by
  have hready : EndsWithin (n + 1) (Machine.drainPixels { s with agenda := moves }) :=
    EndsWithin.drainPixels (s := { s with agenda := moves }) { h with }
  have hv := decPxValid_drainPixels { s with agenda := moves } h.ready
  obtain ⟨u, hu⟩ := decStep_next (Machine.drainPixels { s with agenda := moves })
  have hturn : decTurn { s with agenda := moves } = .next (Machine.drainPixels u) := by
    unfold decTurn
    dsimp only
    rw [if_neg (by simp [hv]), hu, mapNext_next]
  obtain ⟨-, -, -, -, -, -, -, hagenda⟩ := decTurn_frame _ _ hturn
  exact ⟨_, (step_decTurn s moves ha).trans hturn, (hready.decStep hv hu).drainPixels, hagenda⟩

/-- R155: after `n` turns the pass has ended. -/
theorem EndsWithin.run {n : Nat} {s : State} {moves : List Move} (h : EndsWithin n s)
    (ha : s.agenda = List.replicate n (.turn .dec) ++ moves) :
    ∃ t, Host.Core.run Sys2Proof.core n s = .next t ∧ (t.dec.state = .done ∨ t.dec.state = .error) := by
  induction n generalizing s with
  | zero => exact ⟨s, run_zero s, h.ended⟩
  | succ n ih =>
    obtain ⟨u, hu, hends, hagenda⟩ := h.step ha
    rw [run_cons s u n hu]
    exact ih hends hagenda

/-- Settles O30: each turn reads one byte more or ends the pass (`EndsWithin.step`), by induction over the turns. -/
theorem decodePassEnds : Obligations.DecodePassEnds := by
  intro s n moves hi hb hvalid hready hoffered hn hstart ha
  have hle := hi.pos_le
  have hidle : s.dec.state ≠ .idle := fun e => by rw [e] at hb; cases hb
  have hends : EndsWithin n s := ⟨hvalid, hready, hstart, hoffered, hidle, fun _ => ⟨hle, by omega⟩⟩
  exact hends.run ha

end Sys2Proof.Machine
end

section
/-! PROOFS. Error entry and the ways out of `ERROR` (spec/60_exceptions.md R182, R185). -/

namespace Sys2Proof.Machine

/-- Settles O31: `raise` is one record update of two registers, and nothing else. -/
theorem raiseWritesCauseAndStateOnly : Obligations.RaiseWritesCauseAndStateOnly := fun c s =>
  ⟨raise_enc_enc_errCause c s, raise_enc_enc_state c s, rfl, raise_dec_dec_errCause c s, raise_dec_dec_state c s, rfl⟩

/-! ## What can change an agent's registers -/

/-- R20, R200: a step that is no turn and no hardware reset leaves the registers of both agents. -/
theorem step_registers_cases {s t : State} (h : step s = .next t) :
    (t.enc = s.enc ∧ t.dec = s.dec) ∨
    (∃ moves a, t = encTurn (scheduled moves a s) ∨ decTurn (scheduled moves a s) = .next t) ∨
    ∃ e d moves, s.agenda = .rst e d :: moves := by
  obtain ⟨r, moves, a, rfl, h⟩ := step_cases s t h
  rcases h with h | h | ⟨e, d, hhead, -⟩ | rfl | rfl | ⟨p, rin, bin, rfl⟩
  · exact .inr (.inl ⟨moves, a, .inl h⟩)
  · exact .inr (.inl ⟨moves, a, .inr h⟩)
  · exact .inr (.inr ⟨e, d, List.head?_eq_some_iff.1 hhead⟩)
  · obtain ⟨sink, taken, ht⟩ := takeByte_eq (scheduled moves a s)
    rw [ht]
    exact .inl ⟨rfl, rfl⟩
  · obtain ⟨sink, taken, ht⟩ := takePixel_eq (scheduled moves a s)
    rw [ht]
    exact .inl ⟨rfl, rfl⟩
  · exact .inl ⟨rfl, rfl⟩

/-- R43: DEC's turn leaves DEC's registers, or they are those its step leaves. -/
theorem decTurn_dec_cases {s t : State} (h : decTurn s = .next t) :
    t.dec = s.dec ∨ ∃ u, decStep (drainPixels s) = .next u ∧ t.dec = u.dec := by
  unfold decTurn at h
  dsimp only at h
  split at h
  · cases h
    exact .inl (drainPixels_dec s)
  · obtain ⟨u, hu⟩ := decStep_next (drainPixels s)
    rw [hu] at h
    cases h
    exact .inr ⟨u, hu, drainPixels_dec u⟩

/-- R43: ENC's turn leaves ENC's registers, or they are those its step leaves. -/
theorem encTurn_enc_cases (s : State) :
    (encTurn s).enc = s.enc ∨ (encTurn s).enc = (encStep (drainBytes s)).enc := by
  unfold encTurn
  dsimp only
  split
  · exact .inl (drainBytes_enc s)
  · exact .inr (drainBytes_enc _)

/-! ## The turns of an agent in `ERROR` (R185) -/

/-- R110: the two endings of a start step. -/
theorem encStart_ending (s : State) :
    (encStart s).enc.state = .active ∧ (encStart s).enc.errCause = .none ∨
      (encStart s).enc.state = .error ∧
        ((encStart s).enc.errCause = .preZeroDim ∨ (encStart s).enc.errCause = .preTooManyPixels) := by
  by_cases hgood : startAccepted s.ports
  · rw [encStart_accepted s hgood]
    exact .inl ⟨rfl, rfl⟩
  · obtain ⟨c, hzero, hmany, hc⟩ := encStart_rejected s hgood
    rw [hc]
    exact .inr ⟨rfl, (em _).imp hzero hmany⟩

/-- R185: a turn that changes the registers of a DEC in `ERROR` has taken a start step. -/
theorem decTurn_leavesError {s t : State} (h : decTurn s = .next t) (hs : s.dec.state = .error)
    (hne : t.dec ≠ s.dec) : s.ports.decStart = true ∧ t.dec.state = .hdr ∧ t.dec.errCause = .none := by
  rcases decTurn_dec_cases h with hsame | ⟨u, hu, ht⟩
  · exact absurd hsame hne
  rcases decStep_cases (drainPixels s) with ⟨hb, -⟩ | ⟨v, hb, -⟩ | ⟨-, hstart, he⟩ | he
  · rw [drainPixels_dec, hs] at hb
    cases hb
  · rw [drainPixels_dec, hs] at hb
    cases hb
  · rw [drainPixels_ports] at hstart
    cases he.symm.trans hu
    rw [ht]
    exact ⟨hstart, rfl, rfl⟩
  · cases he.symm.trans hu
    exact absurd (ht.trans (drainPixels_dec s)) hne

/-- R185: a turn that changes the registers of an ENC in `ERROR` has taken a start step. -/
theorem encTurn_leavesError {s : State} (hs : s.enc.state = .error) (hne : (encTurn s).enc ≠ s.enc) :
    s.ports.encStart = true ∧ (encTurn s).enc = (encStart (drainBytes s)).enc := by
  rcases encTurn_enc_cases s with hsame | ht
  · exact absurd hsame hne
  rw [ht] at hne ⊢
  rcases encStep_cases (drainBytes s) with ⟨px, ha, -⟩ | ⟨-, hstart, he⟩ | he
  · rw [drainBytes_enc, hs] at ha
    cases ha
  · rw [drainBytes_ports] at hstart
    exact ⟨hstart, congrArg State.enc he⟩
  · rw [he, drainBytes_enc] at hne
    exact absurd rfl hne

/-! ## The ways out (R185) -/

/-- R185: DEC's half of O32. -/
theorem step_decLeavesError {s t : State} (h : step s = .next t) (hs : s.dec.state = .error) (hne : t.dec ≠ s.dec) :
    (s.ports.decStart = true ∧ t.dec.state = .hdr ∧ t.dec.errCause = .none) ∨
    (∃ e moves, s.agenda = .rst e true :: moves ∧ t.dec.state = .idle ∧ t.dec.errCause = .none) := by
  rcases step_registers_cases h with ⟨-, hsame⟩ | ⟨moves, a, rfl | hturn⟩ | ⟨e, d, moves, ha⟩
  · exact absurd hsame hne
  · exact absurd (encTurn_frame (scheduled moves a s)).1 hne
  · exact .inl (decTurn_leavesError (s := scheduled moves a s) hturn hs hne)
  · obtain ⟨u, hu, -, -, hreset, hkept, -⟩ := hardwareResetAbandonsThePass s e d moves ha
    cases h.symm.trans hu
    cases d with
    | false => exact absurd (hkept rfl).1 hne
    | true =>
      obtain ⟨c, hc, -⟩ := hreset rfl
      rw [hc]
      exact .inr ⟨e, moves, ha, rfl, rfl⟩

/-- R185: ENC's half of O32. -/
theorem step_encLeavesError {s t : State} (h : step s = .next t) (hs : s.enc.state = .error) (hne : t.enc ≠ s.enc) :
    (s.ports.encStart = true ∧
      (t.enc.state = .active ∧ t.enc.errCause = .none ∨
        t.enc.state = .error ∧ (t.enc.errCause = .preZeroDim ∨ t.enc.errCause = .preTooManyPixels))) ∨
    (∃ d moves, s.agenda = .rst true d :: moves ∧ t.enc.state = .idle ∧ t.enc.errCause = .none) := by
  rcases step_registers_cases h with ⟨hsame, -⟩ | ⟨moves, a, rfl | hturn⟩ | ⟨e, d, moves, ha⟩
  · exact absurd hsame hne
  · obtain ⟨hstart, ht⟩ := encTurn_leavesError (s := scheduled moves a s) hs hne
    rw [ht]
    exact .inl ⟨hstart, encStart_ending _⟩
  · exact absurd (decTurn_frame _ t hturn).1 hne
  · obtain ⟨u, hu, hreset, hkept, -⟩ := hardwareResetAbandonsThePass s e d moves ha
    cases h.symm.trans hu
    cases e with
    | false => exact absurd (hkept rfl).1 hne
    | true =>
      obtain ⟨c, hc, -⟩ := hreset rfl
      rw [hc]
      exact .inr ⟨d, moves, ha, rfl, rfl⟩

/-- Settles O32: only a turn of the agent or a reset that names it writes its registers, and of the turn's steps an
agent in `ERROR` can take the start step alone. -/
theorem errorIsLeftOnlyByStartOrReset : Obligations.ErrorIsLeftOnlyByStartOrReset :=
  ⟨fun _ _ => step_decLeavesError, fun _ _ => step_encLeavesError⟩

end Sys2Proof.Machine
end
